-- ==== Sys2Proof/Word.lean ====
section
/-! DEFINITION. The word types of the block (00_scope.md rules R9 and R10). -/

namespace Sys2Proof

/-- A byte: a tag, a checksum accumulator, a byte of the stream (R9, R10). -/
abbrev Byte := BitVec 8

/-- A 16-bit word: the header word, the status word, `CONSUMED`. -/
abbrev Half := BitVec 16

/-- A 32-bit word: the `WORD` of a decoded lane (10_state.md rule R38). -/
abbrev Word := BitVec 32

end Sys2Proof
end

