-- ==== Sys2Proof/Config.lean ====
section
/-! DEFINITION. The configuration record of the block (00_scope.md rule R8; 10_state.md rules R21 to R28)
and the constants of this hardware. The OPEN parameters are fields of `Cfg`, so every statement about a
state is a statement for every value of them. -/

namespace Sys2Proof

/-- The numeric kinds of a field (30_encoding.md rule R89; u16 by 90_conflicts.md C5). -/
inductive Kind where
  | u8 | u16 | u32 | i16 | i32 | f32
  deriving DecidableEq, Repr

/-- `SOURCE_KIND` (10_state.md rule R23). -/
inductive SourceKind where
  /-- A live source, with a readiness query. -/
  | streamed
  /-- A finite source, with no readiness query. -/
  | file
  deriving DecidableEq, Repr

/-- A registered PacketSpec (10_state.md rule R26). A field descriptor is `{endian: LE, kind}`; its
endianness is the same for all, so a layout lists the kinds. `payload_length` is a u8. -/
structure PacketSpec where
  payloadLength : Byte
  layout        : List Kind
  deriving DecidableEq, Repr

/-- `REGISTRY` (10_state.md rule R25): a partial map from tags to specs, as a list of the registered
tags with their specs, tags strictly rising, so that equal maps are equal lists. -/
abbrev Registry := List (Byte × PacketSpec)

/-- The configuration record `cfg` (10_state.md rule R21). -/
structure Cfg where
  syncByte       : Byte
  sourceKind     : SourceKind
  readyThreshold : Nat
  registry       : Registry
  deriving DecidableEq, Repr

/-- `MAX_PAYLOAD_LEN` (00_scope.md rule R8, decision D13). -/
def maxPayloadLen : Nat := 255

/-- `SYNC_BYTE` of this protocol (10_state.md rule R22). -/
def syncByteAA : Byte := 0xAA

/-- The GPS layout the source fixes (30_encoding.md rule R92; 90_conflicts.md C1). -/
def gpsLayout : List Kind :=
  [.u32, .i32, .i32, .i32, .i32, .i32, .i32, .u32, .u32, .u32, .i32, .u8, .u8, .u8, .u8]

/-- The GPS spec: 48 bytes, 15 fields (R92). -/
def gpsSpec : PacketSpec := { payloadLength := 48, layout := gpsLayout }

/-- A PacketSpec as a deployment supplies it, before the checks of 10_state.md rules R27 and R28: the
length is any natural number, each field descriptor is a byte (30_encoding.md rule R88). -/
structure RawSpec where
  payloadLength : Nat
  descriptors   : List Byte
  deriving DecidableEq, Repr

/-- The configuration as a deployment supplies it to construction (70_reset_and_hazards.md rule R203).
It is an argument of `construct`, never a part of State. -/
structure RawCfg where
  syncByte       : Byte
  sourceKind     : SourceKind
  readyThreshold : Nat
  registry       : Byte → Option RawSpec

/-- A configuration error names the first failing tag (R203). -/
structure ConfigError where
  tag : Byte
  deriving DecidableEq, Repr

/-- The configuration `State.reset` carries. DESIGN CHOICE (log 1): the spec leaves `SOURCE_KIND`,
`READY_THRESHOLD` and `REGISTRY` open; `SYNC_BYTE` is the spec's. -/
def Cfg.atReset : Cfg :=
  { syncByte := syncByteAA, sourceKind := .file, readyThreshold := 0, registry := [] }

end Sys2Proof
end

