-- ==== Sys2Proof/Syntax.lean ====
section
/-! DEFINITION. The commands of the block: one constructor of `Instr` per row of spec/opcode_table.json
(30_encoding.md rules R84 to R86). -/

namespace Sys2Proof

/-- A command as the host sends it (20_memory.md rule R56, 30_encoding.md rule R84). -/
structure Command where
  op   : Byte
  arg  : Byte
  len  : Byte
  data : List Byte
  deriving DecidableEq, Repr

/-- The legal commands. `LEN` is the length of the data. -/
inductive Instr where
  /-- `TRY_READ_FRAME` (41_frame_reader.md rule R120). -/
  | tryReadFrame
  /-- `DECODE t, [data]` (42_deserializer.md rule R158). -/
  | decodeRecord (tag : Byte) (data : List Byte)
  /-- `CHECKSUM [data]` (40_checksum.md rule R111). -/
  | checksum (data : List Byte)
  /-- `CVT.U8 [data]` (42_deserializer.md rule R152). -/
  | cvtU8 (data : List Byte)
  /-- `CVT.U16 [data]` (42_deserializer.md rule R153). -/
  | cvtU16 (data : List Byte)
  /-- `CVT.U32 [data]` (42_deserializer.md rule R154). -/
  | cvtU32 (data : List Byte)
  /-- `CVT.I16 [data]` (42_deserializer.md rule R155). -/
  | cvtI16 (data : List Byte)
  /-- `CVT.I32 [data]` (42_deserializer.md rule R156). -/
  | cvtI32 (data : List Byte)
  /-- `CVT.F32 [data]` (42_deserializer.md rule R157). -/
  | cvtF32 (data : List Byte)
  deriving DecidableEq, Repr

/-- What a legal header `OP`, `ARG`, `LEN` asks for (30_encoding.md rule R85). -/
inductive Form where
  | tryReadFrame
  | decodeRecord
  | checksum
  | cvt (k : Kind)
  deriving DecidableEq, Repr

/-- Why a header is illegal (30_encoding.md rule R87). -/
inductive IllegalReason where
  /-- `OP` is 0x00 or in 0x05 to 0xFF. -/
  | opcode
  /-- `OP = 0x01` and `ARG != 0`. -/
  | tryReadFrameArg
  /-- `OP = 0x01` and `LEN != 0`. -/
  | tryReadFrameLen
  /-- `OP = 0x03` and `ARG != 0`. -/
  | checksumArg
  /-- `OP = 0x04` and `ARG` is not a legal descriptor byte. -/
  | descriptor
  deriving DecidableEq, Repr

/-- What the decoder answers where it gives no instruction. -/
inductive DecodeError where
  /-- The bytes do not hold a whole command yet: fewer than 3, or fewer than `3 + LEN`. -/
  | incomplete
  /-- A whole command, illegal for the reason named, with the bytes after it. -/
  | illegal (reason : IllegalReason) (cmd : Command) (rest : List Byte)
  deriving DecidableEq, Repr

end Sys2Proof
end

