-- ==== Sys2Proof/Machine/State.lean ====
section
/-! DEFINITION. The state of the machine as plain data: the registers of the block (10_state.md rule
R31), its configuration (R21), the byte source and the host port (R20, R39), and the reset state
(70_reset_and_hazards.md rule R200). -/

namespace Sys2Proof.Machine

/-- `PHASE` (10_state.md rule R32). Codes 9 to 15 are never entered, so they have no constructor
(log 12). -/
inductive Phase where
  | idle | checkReady | readSync | readTag | readCkA | readCkB | readPayload | verify | exec
  deriving DecidableEq, Repr

/-- `OUTCOME` (30_encoding.md rule R90). Codes 8 to 15 are never produced. -/
inductive OutcomeCode where
  | ok | noDataAvailable | endOfStream | unknownPacketType
  | checksumMismatch | truncatedFrame | layoutMismatch | illegalCommand
  deriving DecidableEq, Repr

/-- A decoded field as a lane `{KIND, WORD}` (10_state.md rule R38). -/
structure Lane where
  kind : Kind
  word : Word
  deriving DecidableEq, Repr

/-- The response record (10_state.md rule R34). -/
@[ext]
structure Response where
  outcome  : OutcomeCode
  tagV     : Bool
  tag      : Byte
  consumed : Half
  ckV      : Bool
  rxA      : Byte
  rxB      : Byte
  calcA    : Byte
  calcB    : Byte
  plen     : Byte
  payload  : List Byte
  nf       : Byte
  fields   : List Lane
  deriving DecidableEq, Repr

/-- The cleared response (10_state.md rule R36). -/
def Response.cleared : Response :=
  { outcome := .ok, tagV := false, tag := 0, consumed := 0, ckV := false, rxA := 0, rxB := 0,
    calcA := 0, calcB := 0, plen := 0, payload := [], nf := 0, fields := [] }

/-- One answer of the byte source to `SrcRead()` (20_memory.md rule R50). -/
inductive ReadAnswer where
  | byte (b : Byte)
  | eos
  deriving DecidableEq, Repr

/-- The byte source (20_memory.md rules R50 to R55 and R65), an agent of its own. `answers` and
`readies` are the answers it has made available to the next reads and readiness queries, in order;
when a list is empty the next operation is not answered yet (log 3). -/
@[ext]
structure Source where
  /-- The read cursor: bytes consumed so far (R51, R65). -/
  cursor    : Nat
  /-- `EOS` has been answered (R54). -/
  exhausted : Bool
  answers   : List ReadAnswer
  readies   : List Nat
  deriving DecidableEq, Repr

/-- The host port (20_memory.md rules R56 to R59): the bytes of the commands offered and not taken
yet, and the responses the host has taken, oldest first (log 7, log 22). -/
@[ext]
structure HostPort where
  port  : List Byte
  taken : List Response
  deriving DecidableEq, Repr

/-- What the host can do (70_reset_and_hazards.md rule R216). -/
inductive HostAction where
  /-- Offer the bytes of commands on the port. -/
  | offer (bytes : List Byte)
  /-- Take the response offered. -/
  | take
  /-- Reset the block. -/
  | reset
  deriving DecidableEq, Repr

/-- What the byte source can do (20_memory.md rule R50). -/
inductive SourceAction where
  /-- Make the answer to one more read available. -/
  | answer (a : ReadAnswer)
  /-- Make the answer to one more readiness query available. -/
  | ready (n : Nat)
  deriving DecidableEq, Repr

/-- Which agent moves (10_state.md rule R20, log 5). -/
inductive Turn where
  | host (a : HostAction)
  | source (a : SourceAction)
  /-- The block makes one transition of `PHASE`. -/
  | block
  deriving DecidableEq, Repr

/-- The state. The first group of fields is the register list of 10_state.md rule R31. -/
@[ext]
structure State where
  phase    : Phase
  cmdOp    : Byte
  cmdArg   : Byte
  cmdLen   : Byte
  tag      : Byte
  tagV     : Bool
  rxA      : Byte
  rxB      : Byte
  specLen  : Byte
  idx      : Byte
  /-- `PBUF` as (offset, byte) pairs, offsets strictly rising, no byte 0 listed (log 13). -/
  pbuf     : List Host.Cell
  accA     : Byte
  accB     : Byte
  consumed : Half
  rsp      : Response
  rspV     : Bool
  /-- The configuration: no step changes it (10_state.md rule R21, log 2). -/
  cfg      : Cfg
  src      : Source
  host     : HostPort
  /-- The turns to come; when there is none, the block moves (log 5). -/
  agenda   : List Turn
  deriving DecidableEq, Repr

/-- Why the machine stops. Neither is raised from a state that meets `Inv`. -/
inductive Fault where
  /-- Raised by `conv` when a field would be read past offset 254 of `PBUF`, which does not exist
  (20_memory.md rule R64). Safe: a registry that meets 10_state.md rule R27 never leads there. -/
  | pbufOutOfRange
  /-- Raised by `execPhase` when `PHASE = EXEC` while a TRY_READ_FRAME is latched, which acceptance
  (20_memory.md rule R59) never leaves. Safe: no run reaches it. -/
  | sequencerStuck
  deriving DecidableEq, Repr

/-- What has no meaning. -/
inductive Refusal where
  /-- Raised by `exec` for an instruction that has no meaning yet; no arm does. Safe. -/
  | notModelled (mnemonic : String)
  deriving DecidableEq, Repr

/-- The outcome of one transition of `PHASE` of the frame reader (41_frame_reader.md rule R132). -/
inductive Progress where
  | moved (s : State)
  /-- No transition: the source has not answered, or there is nothing to do. -/
  | waits
  deriving DecidableEq, Repr

/-- What a `SrcRead()` gives: the state after it, except when it is not answered. -/
inductive ReadResult where
  | unanswered
  | eos (s : State)
  | byte (b : Byte) (s : State)
  deriving DecidableEq, Repr

/-- What the block does next when it is its move. -/
inductive Fetched where
  /-- A legal command is taken from the port, which is the state given. -/
  | run (i : Instr) (s : State)
  /-- An illegal command is taken from the port. -/
  | reject (cmd : Command) (s : State)
  /-- A command is in progress. -/
  | busy
  /-- Idle: nothing whole is offered, or the last response has not been taken. -/
  | waits
  deriving DecidableEq, Repr

/-- A block just constructed with `cfg`, all its registers at their reset values (R31, R200, R203); the
source has answered nothing and the host has done nothing (log 4). -/
def State.constructed (cfg : Cfg) : State :=
  { phase := .idle, cmdOp := 0, cmdArg := 0, cmdLen := 0, tag := 0, tagV := false, rxA := 0,
    rxB := 0, specLen := 0, idx := 0, pbuf := [], accA := 0, accB := 0, consumed := 0,
    rsp := .cleared, rspV := false, cfg := cfg,
    src := { cursor := 0, exhausted := false, answers := [], readies := [] },
    host := { port := [], taken := [] }, agenda := [] }

/-- The machine right after reset (R200), with the configuration of log 1. -/
def State.reset : State := State.constructed Cfg.atReset

end Sys2Proof.Machine
end

