-- ==== Sys2Proof/Machine/Flags.lean ====
section
/-! DEFINITION. The status bits the block gives: outcome and phase codes, the status word, and the
checksum accumulators whose comparison decides a frame (10_state.md rules R32 and R35; 30_encoding.md
rule R90; 40_checksum.md rules R110 and R115). -/

namespace Sys2Proof.Machine

/-- `PHASE` codes (10_state.md rule R32). -/
def Phase.code : Phase → BitVec 4
  | .idle => 0
  | .checkReady => 1
  | .readSync => 2
  | .readTag => 3
  | .readCkA => 4
  | .readCkB => 5
  | .readPayload => 6
  | .verify => 7
  | .exec => 8

/-- `OUTCOME` codes (30_encoding.md rule R90). -/
def OutcomeCode.code : OutcomeCode → BitVec 4
  | .ok => 0
  | .noDataAvailable => 1
  | .endOfStream => 2
  | .unknownPacketType => 3
  | .checksumMismatch => 4
  | .truncatedFrame => 5
  | .layoutMismatch => 6
  | .illegalCommand => 7

/-- The block is busy (10_state.md rule R32). -/
def State.busy (s : State) : Bool := decide (s.phase ≠ .idle)

/-- The status word (10_state.md rule R35): `[15:8]` `TAG`, `[7:6]` 0, `[5]` `CK_V`, `[4]` `TAG_V`,
`[3:0]` `OUTCOME`. -/
def Response.statusWord (r : Response) : Half :=
  r.tag ++ (0 : BitVec 2) ++ BitVec.ofBool r.ckV ++ BitVec.ofBool r.tagV ++ r.outcome.code

/-- One byte folded into the accumulators `(a, b)`: `b` uses the `a` just updated, both modulo 256
(40_checksum.md rule R110). -/
def fletcherStep (acc : Byte × Byte) (x : Byte) : Byte × Byte :=
  (acc.1 + x, acc.2 + (acc.1 + x))

/-- The accumulators after the bytes of `P`, from `acc` on. -/
def fletcherFrom : Byte × Byte → List Byte → Byte × Byte
  | acc, [] => acc
  | acc, x :: P => fletcherFrom (fletcherStep acc x) P

/-- `fletcher(P)` (40_checksum.md rule R110). -/
def fletcher (P : List Byte) : Byte × Byte := fletcherFrom (0, 0) P

/-- The comparison of verification: both bytes (40_checksum.md rule R115). -/
def checksumMatches (s : State) : Bool := decide ((s.accA, s.accB) = (s.rxA, s.rxB))

end Sys2Proof.Machine
end

