-- ==== Sys2Proof/Machine/Memory.lean ====
section
/-! DEFINITION. The payload buffer `PBUF`, the only addressed storage (20_memory.md rule R64): offsets 0
to 254, every byte 0 at reset (10_state.md rule R31), held as a sparse list in one canonical form. -/

namespace Sys2Proof.Machine

/-- What an unlisted offset reads as: the reset contents (10_state.md rule R31). -/
def Memory.blank : Byte := 0

/-- Read one byte. -/
def Memory.read : List Host.Cell → Nat → Byte
  | [], _ => Memory.blank
  | (k, v) :: m, a => if k = a then v else Memory.read m a

/-- Put a cell at its place among strictly rising offsets. -/
def Memory.insert (a : Nat) (b : Byte) : List Host.Cell → List Host.Cell
  | [] => [(a, b)]
  | (k, v) :: m => if a < k then (a, b) :: (k, v) :: m else (k, v) :: Memory.insert a b m

/-- Remove every cell of an offset. -/
def Memory.erase (a : Nat) (m : List Host.Cell) : List Host.Cell := m.filter fun c => c.1 ≠ a

/-- Write one byte; writing what an unlisted offset reads as removes the cell. -/
def Memory.write (a : Nat) (b : Byte) (m : List Host.Cell) : List Host.Cell :=
  if b = Memory.blank then Memory.erase a m else Memory.insert a b (Memory.erase a m)

/-- Write bytes at consecutive offsets, in order (20_memory.md rule R59). -/
def Memory.writeAll : Nat → List Byte → List Host.Cell → List Host.Cell
  | _, [], m => m
  | a, b :: bs, m => Memory.writeAll (a + 1) bs (Memory.write a b m)

/-- The bytes at offsets `off` to `off + n - 1`, in order. -/
def Memory.bytes (m : List Host.Cell) (off n : Nat) : List Byte :=
  (List.range n).map fun i => Memory.read m (off + i)

/-- The canonical form: offsets strictly rising, every offset one that exists, no blank byte listed. -/
def Memory.wf (m : List Host.Cell) : Bool :=
  decide ((m.map (·.1)).Pairwise (· < ·)) &&
    m.all fun c => decide (c.1 < maxPayloadLen) && decide (c.2 ≠ Memory.blank)

end Sys2Proof.Machine
end

