-- ==== Sys2Proof/WellFormed.lean ====
section
/-! DEFINITION. Well-formed commands: `LEN` is 8 bits, so a command carries at most 255 data bytes
(30_encoding.md rules R84 and R85). -/

namespace Sys2Proof

/-- The data bytes of a command. -/
def Instr.data : Instr → List Byte
  | .tryReadFrame => []
  | .decodeRecord _ data => data
  | .checksum data => data
  | .cvtU8 data => data
  | .cvtU16 data => data
  | .cvtU32 data => data
  | .cvtI16 data => data
  | .cvtI32 data => data
  | .cvtF32 data => data

/-- The data fit the 8-bit `LEN` (R84, R85). -/
abbrev Instr.WellFormed (i : Instr) : Prop := i.data.length ≤ 255

/-- `DATA` has `LEN` bytes (20_memory.md rule R56). -/
abbrev Command.WellFormed (c : Command) : Prop := c.data.length = c.len.toNat

end Sys2Proof
end

