-- ==== Sys2Proof/Decode.lean ====
section
/-! DEFINITION. The command decoder and, after it, the encoder (30_encoding.md rules R84 to R89). -/

namespace Sys2Proof

/-- Kind codes (R89); 6 and 7 are reserved. -/
def kindOfCode (c : BitVec 3) : Option Kind :=
  match c.toNat with
  | 0 => some .u8
  | 1 => some .u16
  | 2 => some .u32
  | 3 => some .i16
  | 4 => some .i32
  | 5 => some .f32
  | _ => none

/-- `KIND`, bits [2:0] of a descriptor byte (R88). -/
def descKind (b : Byte) : BitVec 3 := b.extractLsb' 0 3

/-- `ENDIAN`, bit [3] of a descriptor byte (R88): 0 is little-endian. -/
def descEndian (b : Byte) : BitVec 1 := b.extractLsb' 3 1

/-- The reserved bits [7:4] of a descriptor byte (R88). -/
def descReserved (b : Byte) : BitVec 4 := b.extractLsb' 4 4

/-- The kind of a legal field descriptor byte, none for an illegal one (R88). -/
def descriptorKind (b : Byte) : Option Kind :=
  if descReserved b = 0 ∧ descEndian b = 0 then kindOfCode (descKind b) else none

/-- The legal headers and the illegal ones (R85, R87). -/
def classify (op arg len : Byte) : Except IllegalReason Form :=
  match op.toNat with
  | 1 =>
    if arg ≠ 0 then .error .tryReadFrameArg
    else if len ≠ 0 then .error .tryReadFrameLen
    else .ok .tryReadFrame
  | 2 => .ok .decodeRecord
  | 3 => if arg ≠ 0 then .error .checksumArg else .ok .checksum
  | 4 =>
    match descriptorKind arg with
    | some k => .ok (.cvt k)
    | none => .error .descriptor
  | _ => .error .opcode

/-- The instruction of a legal form, with its operands (R86). -/
def Form.instr (f : Form) (arg : Byte) (data : List Byte) : Instr :=
  match f with
  | .tryReadFrame => .tryReadFrame
  | .decodeRecord => .decodeRecord arg data
  | .checksum => .checksum data
  | .cvt .u8 => .cvtU8 data
  | .cvt .u16 => .cvtU16 data
  | .cvt .u32 => .cvtU32 data
  | .cvt .i16 => .cvtI16 data
  | .cvt .i32 => .cvtI32 data
  | .cvt .f32 => .cvtF32 data

/-- A whole command as an instruction, or the reason it is illegal (R85, R87). -/
def decodeCommand (c : Command) : Except IllegalReason Instr :=
  match classify c.op c.arg c.len with
  | .ok f => .ok (f.instr c.arg c.data)
  | .error r => .error r

/-- The first whole command of a byte sequence and the bytes after it: byte 0 `OP`, byte 1 `ARG`,
byte 2 `LEN`, then `LEN` data bytes (R84). -/
def splitCommand : List Byte → Option (Command × List Byte)
  | op :: arg :: len :: rest =>
    if len.toNat ≤ rest.length then
      some (⟨op, arg, len, rest.take len.toNat⟩, rest.drop len.toNat)
    else none
  | _ => none

/-- The decoder: total on any bytes; it answers the instruction and the bytes after it. -/
def decode (bytes : List Byte) : Except DecodeError (Instr × List Byte) :=
  match splitCommand bytes with
  | none => .error .incomplete
  | some (c, rest) =>
    match decodeCommand c with
    | .ok i => .ok (i, rest)
    | .error r => .error (.illegal r c rest)

/-- Kind codes, for the encoder (R89). -/
def Kind.code : Kind → BitVec 3
  | .u8 => 0
  | .u16 => 1
  | .u32 => 2
  | .i16 => 3
  | .i32 => 4
  | .f32 => 5

/-- The little-endian descriptor byte of a kind (R88): the code, all other bits 0. -/
def Kind.descriptor (k : Kind) : Byte := k.code.setWidth 8

/-- `LEN` of a command that carries these data (R84). -/
def lenByte (data : List Byte) : Byte := BitVec.ofNat 8 data.length

/-- The command an instruction stands for (R85, R91). -/
def Instr.command : Instr → Command
  | .tryReadFrame => ⟨0x01, 0x00, 0x00, []⟩
  | .decodeRecord t data => ⟨0x02, t, lenByte data, data⟩
  | .checksum data => ⟨0x03, 0x00, lenByte data, data⟩
  | .cvtU8 data => ⟨0x04, 0x00, lenByte data, data⟩
  | .cvtU16 data => ⟨0x04, 0x01, lenByte data, data⟩
  | .cvtU32 data => ⟨0x04, 0x02, lenByte data, data⟩
  | .cvtI16 data => ⟨0x04, 0x03, lenByte data, data⟩
  | .cvtI32 data => ⟨0x04, 0x04, lenByte data, data⟩
  | .cvtF32 data => ⟨0x04, 0x05, lenByte data, data⟩

/-- The bytes of a command (R84). -/
def Command.bytes (c : Command) : List Byte := c.op :: c.arg :: c.len :: c.data

/-- The encoder: the bytes of an instruction (R91). -/
def encode (i : Instr) : List Byte := i.command.bytes

/-- The header word `H = {ARG, OP}` that spec/opcode_table.json matches on (R84). -/
def Command.header (c : Command) : Half := c.arg ++ c.op

/-- The longest command: 3 bytes and 255 data bytes (R84, R85). -/
def maxCommandLen : Nat := 258

/-- The bytes of a word of `nbits` bits, byte `k` its bits `8k+7` to `8k`; every byte above is 0. -/
def tableBytes (nbits w : Nat) : List Byte :=
  (List.range maxCommandLen).map fun k => BitVec.ofNat 8 ((w % 2 ^ nbits) >>> (8 * k))

/-- The bytes of the one command a table word lays out: `3 + LEN` of them, the rest 0 (R84). -/
def tableCommand (nbits w : Nat) : List Byte :=
  match splitCommand (tableBytes nbits w) with
  | some (c, _) => c.bytes
  | none => []

/-- What the decoder reads from a table word. -/
def decodeTableWord (nbits w : Nat) : Option Instr :=
  match decode (tableBytes nbits w) with
  | .ok (i, _) => some i
  | .error _ => none

end Sys2Proof
end

