-- ==== Sys2Proof/Machine/Registry.lean ====
section
/-! DEFINITION. The PacketSpec registry and construction (10_state.md rules R25 to R30;
70_reset_and_hazards.md rule R203). -/

namespace Sys2Proof.Machine

/-- `width(k)` in bytes (42_deserializer.md rule R150). -/
def width : Kind → Nat
  | .u8 => 1
  | .u16 => 2
  | .u32 => 4
  | .i16 => 2
  | .i32 => 4
  | .f32 => 4

/-- The sum of the widths of a layout (10_state.md rule R27). -/
def widthSum : List Kind → Nat
  | [] => 0
  | k :: ks => width k + widthSum ks

/-- `Lookup(t)` (10_state.md rule R30). -/
def lookup : Registry → Byte → Option PacketSpec
  | [], _ => none
  | (t', spec) :: r, t => if t' = t then some spec else lookup r t

/-- The registry invariant (R27). -/
def specLegal (spec : PacketSpec) : Bool := decide (widthSum spec.layout = spec.payloadLength.toNat)

/-- A registry in its canonical form, every spec of it legal (R25, R27). -/
def registryLegal (r : Registry) : Bool :=
  decide ((r.map (·.1.toNat)).Pairwise (· < ·)) && r.all fun e => specLegal e.2

/-- The kinds of a list of descriptor bytes, none if one is illegal (10_state.md rule R28,
30_encoding.md rule R88). -/
def layoutKinds : List Byte → Option (List Kind)
  | [] => some []
  | b :: bs =>
    match descriptorKind b, layoutKinds bs with
    | some k, some ks => some (k :: ks)
    | _, _ => none

/-- The checks of R27 and R28 on one spec: the spec, or none where it must be refused. -/
def checkSpec (r : RawSpec) : Option PacketSpec :=
  match layoutKinds r.descriptors with
  | some ks =>
    if r.payloadLength ≤ maxPayloadLen ∧ widthSum ks = r.payloadLength then
      some { payloadLength := BitVec.ofNat 8 r.payloadLength, layout := ks }
    else none
  | none => none

/-- The 256 tags, lowest first. -/
def allTags : List Byte := (List.range 256).map (BitVec.ofNat 8)

/-- A tag registered with a spec that fails a check (R203). -/
def failingTag (raw : RawCfg) (t : Byte) : Bool :=
  match raw.registry t with
  | some r => (checkSpec r).isNone
  | none => false

/-- The checked spec of a tag, if it is registered. -/
def checkedSpec (raw : RawCfg) (t : Byte) : Option PacketSpec := (raw.registry t).bind checkSpec

/-- The configuration of a raw configuration, each of whose specs passes its checks. -/
def checkedCfg (raw : RawCfg) : Cfg :=
  { syncByte := raw.syncByte, sourceKind := raw.sourceKind, readyThreshold := raw.readyThreshold,
    registry := allTags.filterMap fun t => (checkedSpec raw t).map fun spec => (t, spec) }

/-- Construction (R203): a block in the reset state, or a configuration error that names the lowest
failing tag, and then no block. -/
def construct (raw : RawCfg) : Except ConfigError State :=
  match allTags.find? (failingTag raw) with
  | some t => .error ⟨t⟩
  | none => .ok (State.constructed (checkedCfg raw))

/-- The raw spec of the GPS layout (30_encoding.md rule R92). -/
def gpsRaw : RawSpec :=
  { payloadLength := 48, descriptors := gpsLayout.map Kind.descriptor }

/-- A deployment's configuration from its OPEN parameters (00_scope.md rule R8): the GPS spec at
`TAG_GPS`, the sensor spec, if any, at `TAG_SENSOR` (30_encoding.md rules R92 and R93, log 18). -/
def deployment (kind : SourceKind) (threshold : Nat) (tagGps tagSensor : Byte)
    (sensor : Option RawSpec) : RawCfg :=
  { syncByte := syncByteAA, sourceKind := kind, readyThreshold := threshold,
    registry := fun t => if t = tagGps then some gpsRaw else if t = tagSensor then sensor else none }

end Sys2Proof.Machine
end

