-- ==== Sys2Proof/Machine/Ops.lean ====
section
/-! DEFINITION. The shared operations: the source port, ending a command with an outcome, accepting a
command, reset, and the turns of the host and of the source (00_scope.md rule R11; 10_state.md rule R36;
20_memory.md rules R50 to R59; 60_exceptions.md rule R180; 70_reset_and_hazards.md rules R200 to R202). -/

namespace Sys2Proof.Machine

/-- `pc <- phase` (00_scope.md rule R11). -/
def goto (p : Phase) (s : State) : State := { s with phase := p }

/-- `TAG <- t; TAG_V <- 1` (41_frame_reader.md rule R123, 42_deserializer.md rule R158). -/
def latchTag (t : Byte) (s : State) : State := { s with tag := t, tagV := true }

/-- `ACC_A <- a; ACC_B <- b` (40_checksum.md rule R111). -/
def latchAcc (acc : Byte × Byte) (s : State) : State := { s with accA := acc.1, accB := acc.2 }

/-- The bytes on the host port (20_memory.md rule R56, log 7). -/
def setPort (bytes : List Byte) (s : State) : State := { s with host := { s.host with port := bytes } }

/-- The turns to come (log 5). -/
def setAgenda (turns : List Turn) (s : State) : State := { s with agenda := turns }

/-- More answers of the source: to reads and to readiness queries (20_memory.md rule R50, log 3). -/
def deliver (answers : List ReadAnswer) (readies : List Nat) (s : State) : State :=
  { s with src := { s.src with
      answers := s.src.answers ++ answers
      readies := s.src.readies ++ readies } }

/-- A byte taken from the source: the cursor moves past it and it is counted (20_memory.md rule R51). -/
def readOne (rest : List ReadAnswer) (s : State) : State :=
  { s with
    src := { s.src with cursor := s.src.cursor + 1, answers := rest }
    consumed := s.consumed + 1 }

/-- `EOS` taken from the source: nothing is consumed (20_memory.md rule R51). -/
def readEos (rest : List ReadAnswer) (s : State) : State :=
  { s with src := { s.src with exhausted := true, answers := rest } }

/-- A readiness count taken from the source: no byte is consumed and the cursor does not move
(20_memory.md rule R52). -/
def readReady (rest : List Nat) (s : State) : State :=
  { s with src := { s.src with readies := rest } }

/-- `SrcRead()`: one byte or `EOS`, or no answer yet (20_memory.md rules R50, R51 and R55). A FILE source
that has answered `EOS` answers it for ever (R54), and at once, with no turn of the source: the spec
bounds no read's time, so that is the model's choice (DESIGN CHOICE, log 26). -/
def srcRead (s : State) : ReadResult :=
  if s.cfg.sourceKind = .file ∧ s.src.exhausted = true then .eos s
  else
    match s.src.answers with
    | [] => .unanswered
    | .eos :: rest => .eos (readEos rest s)
    | .byte b :: rest => .byte b (readOne rest s)

/-- `SrcReady()`: the count the source answers and the state after it, or no answer yet (20_memory.md
rules R52 and R55). -/
def srcReady (s : State) : Option (Nat × State) :=
  match s.src.readies with
  | [] => none
  | n :: rest => some (n, readReady rest s)

/-- `raise` and `finish` (00_scope.md rule R11, 60_exceptions.md rule R180): the command ends with the
response `r` under the outcome `o`, and the block returns to `IDLE`. `CONSUMED` of the response is the
register (log 11). -/
def raise (o : OutcomeCode) (r : Response) (s : State) : State :=
  { s with
    phase := .idle
    rsp := { r with outcome := o, consumed := s.consumed }
    rspV := true }

/-- The first phase of a command (20_memory.md rule R59, 10_state.md rule R32). -/
def firstPhase (c : Command) : Phase :=
  match classify c.op c.arg c.len with
  | .ok .tryReadFrame => .checkReady
  | _ => .exec

/-- The block accepts a command only when `PHASE = IDLE` and `RSP_V = 0` (20_memory.md rule R59). -/
def State.canAccept (s : State) : Bool := decide (s.phase = .idle) && !s.rspV

/-- Acceptance (20_memory.md rule R59, 10_state.md rule R36): latch the header, clear the working
registers and the response, take the data into `PBUF[0..LEN)`, enter the first phase. -/
def accept (c : Command) (s : State) : State :=
  { s with
    phase := firstPhase c
    cmdOp := c.op
    cmdArg := c.arg
    cmdLen := c.len
    tag := 0
    tagV := false
    rxA := 0
    rxB := 0
    specLen := 0
    idx := 0
    pbuf := Memory.writeAll 0 (c.data.take c.len.toNat) s.pbuf
    accA := 0
    accB := 0
    consumed := 0
    rsp := .cleared }

/-- A command offered to the block: accepted and carried out by `body`, or, while it cannot be accepted,
not taken (20_memory.md rule R59, log 8). -/
def issue (c : Command) (body : State → Host.Outcome State Fault Refusal) (s : State) :
    Host.Outcome State Fault Refusal :=
  if s.canAccept then body (accept c s) else .next s

/-- Reset of the block (70_reset_and_hazards.md rules R200 to R202): every register at its reset value;
the configuration, the source and the host port as they were (log 10). -/
def resetBlock (s : State) : State :=
  { State.constructed s.cfg with src := s.src, host := s.host, agenda := s.agenda }

/-- The host takes the response, if there is one (20_memory.md rule R58). -/
def takeResponse (s : State) : State :=
  if s.rspV then
    { s with rspV := false, host := { s.host with taken := s.host.taken ++ [s.rsp] } }
  else s

/-- One action of the host (70_reset_and_hazards.md rule R216). -/
def hostTurn (a : HostAction) (s : State) : State :=
  match a with
  | .offer bytes => setPort (s.host.port ++ bytes) s
  | .take => takeResponse s
  | .reset => resetBlock s

/-- One action of the byte source (20_memory.md rule R50). -/
def sourceTurn (a : SourceAction) (s : State) : State :=
  match a with
  | .answer r => deliver [r] [] s
  | .ready n => deliver [] [n] s

end Sys2Proof.Machine
end

