-- ==== Sys2Proof/Machine/Checksum.lean ====
section
/-! DEFINITION. The CHECKSUM command (40_checksum.md rule R111). -/

namespace Sys2Proof.Machine

/-- The EXEC phase of CHECKSUM (R111): the accumulators over `PBUF[0..CMD_LEN)`. -/
def checksumBody (s : State) : Host.Outcome State Fault Refusal :=
  let pair := fletcher (Memory.bytes s.pbuf 0 s.cmdLen.toNat)
  .next (raise .ok { Response.cleared with ckV := true, calcA := pair.1, calcB := pair.2 }
    (latchAcc pair s))

/-- `CHECKSUM [data]` (R111). -/
def execChecksum (data : List Byte) (s : State) : Host.Outcome State Fault Refusal :=
  issue (Instr.checksum data).command checksumBody s

end Sys2Proof.Machine
end

