-- ==== Sys2Proof/Machine/Operands.lean ====
section
/-! DEFINITION. Operand forms: little-endian assembly, extension, the field converter `conv`, the values
lanes denote, and the field encoder (00_scope.md rule R11; 42_deserializer.md rules R150 to R165). -/

namespace Sys2Proof.Machine

/-- `le(P)` (42_deserializer.md rule R151): the byte at the lowest offset is least significant. -/
def leNat : List Byte → Nat
  | [] => 0
  | b :: bs => b.toNat + 256 * leNat bs

/-- `zext_32` of a number of at most 32 bits (00_scope.md rule R11). -/
def zext32 (v : Nat) : Word := BitVec.ofNat 32 v

/-- `sext_32` of a 16-bit number (00_scope.md rule R11). -/
def sext32of16 (v : Nat) : Word := (BitVec.ofNat 16 v).signExtend 32

/-- The `WORD` of a lane from the assembled number of its field (10_state.md rule R38, R161). -/
def laneWord : Kind → Nat → Word
  | .u8, v => zext32 v
  | .u16, v => zext32 v
  | .u32, v => zext32 v
  | .i16, v => sext32of16 v
  | .i32, v => zext32 v
  | .f32, v => zext32 v

/-- `MemRead(off, n)` of `PBUF` (00_scope.md rule R11); none past its last offset. -/
def memRead (s : State) (off n : Nat) : Option Nat :=
  if off + n ≤ maxPayloadLen then some (leNat (Memory.bytes s.pbuf off n)) else none

/-- `conv(k, off)` (42_deserializer.md rule R161), for DECODE and CVT alike. -/
def conv (s : State) (k : Kind) (off : Nat) : Option Lane :=
  (memRead s off (width k)).map fun v => { kind := k, word := laneWord k v }

/-- The lanes of a layout from offset `off` on, in declared order (42_deserializer.md rules R158 and
R159). -/
def walkLayout (s : State) : List Kind → Nat → Option (List Lane)
  | [], _ => some []
  | k :: ks, off =>
    match conv s k off, walkLayout s ks (off + width k) with
    | some lane, some lanes => some (lane :: lanes)
    | _, _ => none

/-- `off_j` (42_deserializer.md rule R159): the offset of field `j`. -/
def fieldOffset (layout : List Kind) (j : Nat) : Nat := widthSum (layout.take j)

/-- The lane of a field of kind `k` whose bytes are `bytes` (R161). -/
def laneOfBytes (k : Kind) (bytes : List Byte) : Lane :=
  { kind := k, word := laneWord k (leNat bytes) }

/-- The fields of an IEEE-754 binary32 pattern (42_deserializer.md rule R160; PRESUMED, log 16). -/
structure F32Datum where
  negative : Bool
  exponent : BitVec 8
  fraction : BitVec 23
  deriving DecidableEq, Repr

/-- Sign `WORD[31]`, biased exponent `WORD[30:23]`, fraction `WORD[22:0]` (R160). -/
def f32Datum (w : Word) : F32Datum :=
  { negative := w.getLsbD 31, exponent := w.extractLsb' 23 8, fraction := w.extractLsb' 0 23 }

/-- The classes of binary32 data (PRESUMED, log 16). -/
inductive F32Class where
  | zero | subnormal | normal | infinity | quietNaN | signallingNaN
  deriving DecidableEq, Repr

/-- The class of a datum (PRESUMED, log 16). -/
def F32Datum.classOf (d : F32Datum) : F32Class :=
  if d.exponent = 255 then
    if d.fraction = 0 then .infinity
    else if d.fraction.getLsbD 22 then .quietNaN else .signallingNaN
  else if d.exponent = 0 then (if d.fraction = 0 then .zero else .subnormal)
  else .normal

/-- The real value of a finite datum as `m * 2 ^ e`, none for an infinity or a NaN (PRESUMED, log 16).
A zero's sign is only in the datum. -/
def F32Datum.real (d : F32Datum) : Option (Int × Int) :=
  let sgn : Int := if d.negative then -1 else 1
  if d.exponent = 255 then none
  else if d.exponent = 0 then some (sgn * d.fraction.toNat, -149)
  else some (sgn * (d.fraction.toNat + 8388608 : Nat), (d.exponent.toNat : Int) - 150)

/-- A numeric value (42_deserializer.md rule R160). -/
inductive Value where
  | int (v : Int)
  | f32 (d : F32Datum)
  deriving DecidableEq, Repr

/-- The number a lane of an integer kind denotes: unsigned, or two's complement of 32 bits (R160,
R165). -/
def Lane.intVal (l : Lane) : Int :=
  match l.kind with
  | .u8 => l.word.toNat
  | .u16 => l.word.toNat
  | .u32 => l.word.toNat
  | .i16 => l.word.toInt
  | .i32 => l.word.toInt
  | .f32 => l.word.toNat

/-- `val(KIND, WORD)` (R160). -/
def Lane.val (l : Lane) : Value :=
  match l.kind with
  | .u8 => .int l.intVal
  | .u16 => .int l.intVal
  | .u32 => .int l.intVal
  | .i16 => .int l.intVal
  | .i32 => .int l.intVal
  | .f32 => .f32 (f32Datum l.word)

/-- The ranges of R160; for f32 the value is given by its bit pattern. -/
def inRange : Kind → Int → Bool
  | .u8, v => decide (0 ≤ v ∧ v ≤ 255)
  | .u16, v => decide (0 ≤ v ∧ v ≤ 65535)
  | .u32, v => decide (0 ≤ v ∧ v ≤ 4294967295)
  | .i16, v => decide (-32768 ≤ v ∧ v ≤ 32767)
  | .i32, v => decide (-2147483648 ≤ v ∧ v ≤ 2147483647)
  | .f32, v => decide (0 ≤ v ∧ v ≤ 4294967295)

/-- The `n` little-endian bytes of a number, modulo `256 ^ n`. -/
def leBytes : Nat → Nat → List Byte
  | 0, _ => []
  | n + 1, v => BitVec.ofNat 8 v :: leBytes n (v / 256)

/-- `enc(k, v)` (42_deserializer.md rule R163): the little-endian bytes of a value, of its two's
complement pattern when it is negative, of the bit pattern for f32. -/
def encField (k : Kind) (v : Int) : List Byte :=
  leBytes (width k) (v % (256 ^ width k : Nat)).toNat

/-- The encoded values of a layout, one after another (R163). -/
def encFields : List Kind → List Int → List Byte
  | k :: ks, v :: vs => encField k v ++ encFields ks vs
  | _, _ => []

end Sys2Proof.Machine
end

