-- ==== Sys2Proof/Machine/Deserializer.lean ====
section
/-! DEFINITION. The DECODE and CVT commands (42_deserializer.md rules R152 to R158). -/

namespace Sys2Proof.Machine

/-- The EXEC phase of DECODE (R158): the tag first, then the length, then the layout (60_exceptions.md
rule R183). -/
def decodeBody (s : State) : Host.Outcome State Fault Refusal :=
  let s1 := latchTag s.cmdArg s
  let r := { Response.cleared with tagV := true, tag := s.cmdArg }
  match lookup s1.cfg.registry s.cmdArg with
  | none => .next (raise .unknownPacketType r s1)
  | some spec =>
    if s1.cmdLen ≠ spec.payloadLength then .next (raise .layoutMismatch r s1)
    else
      match walkLayout s1 spec.layout 0 with
      | none => .fault .pbufOutOfRange
      | some lanes =>
        .next (raise .ok { r with nf := BitVec.ofNat 8 lanes.length, fields := lanes } s1)

/-- The EXEC phase of CVT for a kind (R152 to R157). -/
def cvtBody (k : Kind) (s : State) : Host.Outcome State Fault Refusal :=
  if s.cmdLen.toNat ≠ width k then .next (raise .layoutMismatch .cleared s)
  else
    match conv s k 0 with
    | none => .fault .pbufOutOfRange
    | some lane => .next (raise .ok { Response.cleared with nf := 1, fields := [lane] } s)

/-- `DECODE t, [data]` (R158). -/
def execDecodeRecord (t : Byte) (data : List Byte) (s : State) : Host.Outcome State Fault Refusal :=
  issue (Instr.decodeRecord t data).command decodeBody s

/-- `CVT.U8 [data]` (R152). -/
def execCvtU8 (data : List Byte) (s : State) : Host.Outcome State Fault Refusal :=
  issue (Instr.cvtU8 data).command (cvtBody .u8) s

/-- `CVT.U16 [data]` (R153). -/
def execCvtU16 (data : List Byte) (s : State) : Host.Outcome State Fault Refusal :=
  issue (Instr.cvtU16 data).command (cvtBody .u16) s

/-- `CVT.U32 [data]` (R154). -/
def execCvtU32 (data : List Byte) (s : State) : Host.Outcome State Fault Refusal :=
  issue (Instr.cvtU32 data).command (cvtBody .u32) s

/-- `CVT.I16 [data]` (R155). -/
def execCvtI16 (data : List Byte) (s : State) : Host.Outcome State Fault Refusal :=
  issue (Instr.cvtI16 data).command (cvtBody .i16) s

/-- `CVT.I32 [data]` (R156). -/
def execCvtI32 (data : List Byte) (s : State) : Host.Outcome State Fault Refusal :=
  issue (Instr.cvtI32 data).command (cvtBody .i32) s

/-- `CVT.F32 [data]` (R157). -/
def execCvtF32 (data : List Byte) (s : State) : Host.Outcome State Fault Refusal :=
  issue (Instr.cvtF32 data).command (cvtBody .f32) s

end Sys2Proof.Machine
end

