-- ==== Sys2Proof/Machine/FrameReader.lean ====
section
/-! DEFINITION. TRY_READ_FRAME as the transitions of `PHASE` (41_frame_reader.md rules R120 to R132). -/

namespace Sys2Proof.Machine

/-- `SPEC_LEN <- spec.payload_length` (R120). -/
def latchSpecLen (spec : PacketSpec) (s : State) : State := { s with specLen := spec.payloadLength }

/-- `RX_A <- x` (R125). -/
def latchRxA (x : Byte) (s : State) : State := { s with rxA := x }

/-- `RX_B <- x` (R125). -/
def latchRxB (x : Byte) (s : State) : State := { s with rxB := x }

/-- Step 1, readiness (R121). A FILE source is not queried. -/
def phaseCheckReady (s : State) : Progress :=
  match s.cfg.sourceKind with
  | .file => .moved (goto .readSync s)
  | .streamed =>
    match srcReady s with
    | none => .waits
    | some (n, s') =>
      if n < s'.cfg.readyThreshold then .moved (raise .noDataAvailable .cleared s')
      else .moved (goto .readSync s')

/-- Steps 2 and 3, sync (R122). -/
def phaseReadSync (s : State) : Progress :=
  match srcRead s with
  | .unanswered => .waits
  | .eos s' => .moved (raise .endOfStream .cleared s')
  | .byte b s' =>
    if b = s'.cfg.syncByte then .moved (goto .readTag s')
    else .moved (raise .noDataAvailable .cleared s')

/-- Step 4, tag (R123, R124). -/
def phaseReadTag (s : State) : Progress :=
  match srcRead s with
  | .unanswered => .waits
  | .eos s' => .moved (raise .truncatedFrame .cleared s')
  | .byte t s' =>
    match lookup s'.cfg.registry t with
    | none =>
      .moved (raise .unknownPacketType { Response.cleared with tagV := true, tag := t }
        (latchTag t s'))
    | some spec => .moved (goto .readCkA (latchSpecLen spec (latchTag t s')))

/-- The end of a frame cut short after its tag (R125, R126). -/
def truncated (s : State) : State :=
  raise .truncatedFrame { Response.cleared with tagV := true, tag := s.tag } s

/-- Step 5, `checksum_a` (R125). -/
def phaseReadCkA (s : State) : Progress :=
  match srcRead s with
  | .unanswered => .waits
  | .eos s' => .moved (truncated s')
  | .byte x s' => .moved (goto .readCkB (latchRxA x s'))

/-- Step 5, `checksum_b` (R125). -/
def phaseReadCkB (s : State) : Progress :=
  match srcRead s with
  | .unanswered => .waits
  | .eos s' => .moved (truncated s')
  | .byte x s' => .moved (goto .readPayload (latchRxB x s'))

/-- One payload byte taken into `PBUF[IDX]` and folded into the accumulators (R126). -/
def takePayloadByte (x : Byte) (s : State) : State :=
  let acc := fletcherStep (s.accA, s.accB) x
  latchAcc acc { s with pbuf := Memory.write s.idx.toNat x s.pbuf, idx := s.idx + 1 }

/-- Step 6, payload (R126): one byte a transition; `VERIFY` after the last, or at once when there is
none to read (R132). -/
def phaseReadPayload (s : State) : Progress :=
  if s.idx.toNat < s.specLen.toNat then
    match srcRead s with
    | .unanswered => .waits
    | .eos s' => .moved (truncated s')
    | .byte x s' =>
      .moved (goto (if s.idx.toNat + 1 < s.specLen.toNat then .readPayload else .verify)
        (takePayloadByte x s'))
  else .moved (goto .verify s)

/-- Step 7, verification (R127). -/
def phaseVerify (s : State) : State :=
  let r := { Response.cleared with
    tagV := true, tag := s.tag, ckV := true, rxA := s.rxA, rxB := s.rxB, calcA := s.accA,
    calcB := s.accB }
  if checksumMatches s then
    raise .ok { r with plen := s.specLen, payload := Memory.bytes s.pbuf 0 s.specLen.toNat } s
  else raise .checksumMismatch r s

/-- One transition of the frame reader (R132); none outside its phases. -/
def framePhase (s : State) : Progress :=
  match s.phase with
  | .idle => .waits
  | .exec => .waits
  | .checkReady => phaseCheckReady s
  | .readSync => phaseReadSync s
  | .readTag => phaseReadTag s
  | .readCkA => phaseReadCkA s
  | .readCkB => phaseReadCkB s
  | .readPayload => phaseReadPayload s
  | .verify => .moved (phaseVerify s)

/-- At most `n` transitions, until the attempt ends or the source has not answered (20_memory.md rule
R55). -/
def runFrame : Nat → State → State
  | 0, s => s
  | n + 1, s =>
    match framePhase s with
    | .moved s' => runFrame n s'
    | .waits => s

/-- More transitions than any attempt makes: 5 up to `READ_PAYLOAD`, at most 255 in it, `VERIFY`, and one
into `VERIFY` of an empty payload (R132, 70_reset_and_hazards.md rule R214). -/
def frameFuel : Nat := 262

/-- `TRY_READ_FRAME` (R120). -/
def execTryReadFrame (s : State) : Host.Outcome State Fault Refusal :=
  issue Instr.tryReadFrame.command (fun s => .next (runFrame frameFuel s)) s

end Sys2Proof.Machine
end

