-- ==== Sys2Proof/Machine/Sequencer.lean ====
section
/-! DEFINITION. The sequencer: illegal commands, the EXEC phase from the latched header, one transition
of `PHASE`, resuming a held command, and taking a command from the host port (10_state.md rule R32;
20_memory.md rules R55 to R59; 30_encoding.md rule R87). -/

namespace Sys2Proof.Machine

/-- The EXEC phase of a rejected command (30_encoding.md rule R87). -/
def illegalBody (s : State) : Host.Outcome State Fault Refusal :=
  .next (raise .illegalCommand .cleared s)

/-- An illegal command: accepted, its data taken and ignored, answered ILLEGAL_COMMAND (R87). -/
def execIllegal (c : Command) (s : State) : Host.Outcome State Fault Refusal :=
  issue c illegalBody s

/-- The EXEC phase, as the latched header directs (10_state.md rule R32). -/
def execPhase (s : State) : Host.Outcome State Fault Refusal :=
  match classify s.cmdOp s.cmdArg s.cmdLen with
  | .ok .tryReadFrame => .fault .sequencerStuck
  | .ok .decodeRecord => decodeBody s
  | .ok .checksum => checksumBody s
  | .ok (.cvt k) => cvtBody k s
  | .error _ => illegalBody s

/-- A command in progress carried on until it ends or the source has not answered (20_memory.md rule
R55). -/
def resume (s : State) : Host.Outcome State Fault Refusal :=
  if s.phase = .exec then execPhase s else .next (runFrame frameFuel s)

/-- What the block does next: carry on, wait, or take a command from the port (20_memory.md rule R59). -/
def fetch (s : State) : Fetched :=
  if s.phase ≠ .idle then .busy
  else if s.rspV then .waits
  else
    match decode s.host.port with
    | .ok (i, rest) => .run i (setPort rest s)
    | .error (.illegal _ c rest) => .reject c (setPort rest s)
    | .error .incomplete => .waits

/-- One transition of `PHASE` (10_state.md rule R32, 41_frame_reader.md rule R132): acceptance from `IDLE`,
the EXEC phase, or one transition of the frame reader. -/
def blockTurn (s : State) : Host.Outcome State Fault Refusal :=
  match fetch s with
  | .run i s' => .next (accept i.command s')
  | .reject c s' => .next (accept c s')
  | .waits => .next s
  | .busy =>
    if s.phase = .exec then execPhase s
    else
      match framePhase s with
      | .moved s' => .next s'
      | .waits => .next s

/-- `n` transitions of `PHASE`, one at a time. -/
def blockTurns : Nat → State → Host.Outcome State Fault Refusal
  | 0, s => .next s
  | n + 1, s =>
    match blockTurn s with
    | .next s' => blockTurns n s'
    | .fault f => .fault f
    | .refused r => .refused r

end Sys2Proof.Machine
end

