-- ==== Sys2Proof/Machine/Dispatch.lean ====
section
/-! DEFINITION. One arm per command. -/

namespace Sys2Proof.Machine

def exec (i : Instr) (s : State) : Host.Outcome State Fault Refusal :=
  match i with
  | .tryReadFrame => Sys2Proof.Machine.execTryReadFrame s
  | .decodeRecord t data => Sys2Proof.Machine.execDecodeRecord t data s
  | .checksum data => Sys2Proof.Machine.execChecksum data s
  | .cvtU8 data => Sys2Proof.Machine.execCvtU8 data s
  | .cvtU16 data => Sys2Proof.Machine.execCvtU16 data s
  | .cvtU32 data => Sys2Proof.Machine.execCvtU32 data s
  | .cvtI16 data => Sys2Proof.Machine.execCvtI16 data s
  | .cvtI32 data => Sys2Proof.Machine.execCvtI32 data s
  | .cvtF32 data => Sys2Proof.Machine.execCvtF32 data s

end Sys2Proof.Machine
end

