-- ==== Sys2Proof/Machine/Step.lean ====
section
/-! DEFINITION. One step of the machine: the next turn of the agenda, or, when there is none, the block's
move (10_state.md rule R20, log 5, log 6). -/

namespace Sys2Proof.Machine

/-- The block's move: take the next command from the port and carry it out, or carry on the one in
progress, or wait. -/
def blockMove (s : State) : Host.Outcome State Fault Refusal :=
  match fetch s with
  | .run i s' => exec i s'
  | .reject c s' => execIllegal c s'
  | .busy => resume s
  | .waits => .next s

/-- One step. -/
def step (s : State) : Host.Outcome State Fault Refusal :=
  match s.agenda with
  | [] => blockMove s
  | .host a :: rest => .next (hostTurn a (setAgenda rest s))
  | .source a :: rest => .next (sourceTurn a (setAgenda rest s))
  | .block :: rest => blockTurn (setAgenda rest s)

/-- The host offers the command a table word lays out to an idle block whose last response was taken,
and it is the block's move (log 15). -/
def State.withFetchWord (s : State) (nbits w : Nat) : State :=
  { s with
    phase := .idle
    rspV := false
    host := { s.host with port := tableCommand nbits w ++ s.host.port }
    agenda := [] }

end Sys2Proof.Machine
end

