-- ==== Sys2Proof/Machine/HostPrograms.lean ====
section
/-! DEFINITION. The host's pseudo-instructions POLL and READ_PACKET (30_encoding.md rule R91): the host
expands them, the block does not know them. -/

namespace Sys2Proof.Machine

/-- A command issued and, when the block has answered, its response taken. None when the block has not
answered: while a command is held, and for ever when the block does not accept the command, because the
previous response was not taken (70_reset_and_hazards.md rule R212) or a command is in progress
(20_memory.md rule R59). The command goes to the block at once: commands offered before it and still on the
port, and turns to come, stay as they are and wait. The spec says nothing of two offers at once, so that is
the model's choice (DESIGN CHOICE, log 28). -/
def hostCall (i : Instr) (s : State) : Option (Response × State) :=
  if s.canAccept then
    match exec i s with
    | .next s' => if s'.rspV then some (s'.rsp, takeResponse s') else none
    | .fault _ => none
    | .refused _ => none
  else none

/-- `POLL`: TRY_READ_FRAME while the outcome is NO_DATA_AVAILABLE, at most `n` times (log 23). -/
def poll : Nat → State → Option (Response × State)
  | 0, _ => none
  | n + 1, s =>
    match hostCall .tryReadFrame s with
    | none => none
    | some (r, s') => if r.outcome = .noDataAvailable then poll n s' else some (r, s')

/-- `n` attempts one after another, whatever they answer: the responses, oldest first, and the state. -/
def attempts : Nat → State → Option (List Response × State)
  | 0, s => some ([], s)
  | n + 1, s =>
    match hostCall .tryReadFrame s with
    | none => none
    | some (r, s') => (attempts n s').map fun p => (r :: p.1, p.2)

/-- `READ_PACKET`: `POLL`, then, if the outcome is OK, `DECODE TAG, PAYLOAD`. -/
def readPacket (n : Nat) (s : State) : Option (Response × State) :=
  match poll n s with
  | none => none
  | some (r, s') =>
    if r.outcome = .ok then hostCall (.decodeRecord r.tag r.payload) s' else some (r, s')

end Sys2Proof.Machine
end

