-- ==== Sys2Proof/Safety.lean ====
section
/-! DEFINITION. What claims are stated in: runs, the invariant `Inv`, and the end of a run
(70_reset_and_hazards.md rule R215). -/

namespace Sys2Proof.Machine

/-- One step leads from one state to the other. -/
abbrev Steps (s t : State) : Prop := step s = .next t

/-- Some number of steps leads from one state to the other. -/
inductive Reaches : State → State → Prop where
  | refl (s : State) : Reaches s s
  | tail {s t u : State} (h : Reaches s t) (hs : Steps t u) : Reaches s u

/-- The bytes a turn offers to the block. -/
def Turn.bytesOffered : Turn → List Byte
  | .host (.offer bytes) => bytes
  | .host .take => []
  | .host .reset => []
  | .source _ => []
  | .block => []

/-- What the host still offers: the bytes on the port, and those of its turns to come. -/
def stillOffered (s : State) : List Byte := s.host.port ++ s.agenda.flatMap Turn.bytesOffered

/-- The end of a run (70_reset_and_hazards.md rule R215): idle, no response pending, and the host offers no
further command, neither on the port nor in a turn to come. The spec knows whole commands only; that bytes
of an incomplete command count as an offer is the model's choice (DESIGN CHOICE, log 27). -/
abbrev RunEnded (s : State) : Prop := s.phase = .idle ∧ s.rspV = false ∧ stillOffered s = []

/-- The source is not a FILE source that has answered `EOS` (20_memory.md rule R54). -/
abbrev Answering (s : State) : Prop := ¬(s.cfg.sourceKind = .file ∧ s.src.exhausted = true)

/-- The tag in `TAG` is registered and `SPEC_LEN` is its payload length. -/
def TagRegistered (s : State) : Prop :=
  s.tagV = true ∧ ∃ spec, lookup s.cfg.registry s.tag = some spec ∧ s.specLen = spec.payloadLength

/-- The working registers a command in progress has not used yet are clear (10_state.md rule R36). -/
def WorkClear (s : State) : Prop := s.idx = 0 ∧ s.accA = 0 ∧ s.accB = 0

/-- The header latched is TRY_READ_FRAME's (30_encoding.md rule R85). -/
def FrameHeader (s : State) : Prop := s.cmdOp = 1 ∧ s.cmdArg = 0 ∧ s.cmdLen = 0

/-- What holds in each phase (41_frame_reader.md rules R120 to R127): how many bytes are consumed, and
what the registers hold. -/
def PhaseInv (s : State) : Prop :=
  match s.phase with
  | .idle => s.consumed.toNat ≤ 259
  | .exec =>
    s.consumed = 0 ∧ s.tagV = false ∧ classify s.cmdOp s.cmdArg s.cmdLen ≠ .ok .tryReadFrame
  | .checkReady => FrameHeader s ∧ s.consumed = 0 ∧ s.tagV = false ∧ WorkClear s
  | .readSync => FrameHeader s ∧ s.consumed = 0 ∧ s.tagV = false ∧ WorkClear s
  | .readTag => FrameHeader s ∧ s.consumed = 1 ∧ s.tagV = false ∧ WorkClear s
  | .readCkA => FrameHeader s ∧ s.consumed = 2 ∧ TagRegistered s ∧ WorkClear s
  | .readCkB => FrameHeader s ∧ s.consumed = 3 ∧ TagRegistered s ∧ WorkClear s
  | .readPayload =>
    FrameHeader s ∧ TagRegistered s ∧ s.consumed.toNat = 4 + s.idx.toNat ∧
      s.idx.toNat ≤ s.specLen.toNat ∧
      (s.accA, s.accB) = fletcher (Memory.bytes s.pbuf 0 s.idx.toNat)
  | .verify =>
    FrameHeader s ∧ TagRegistered s ∧ s.consumed.toNat = 4 + s.specLen.toNat ∧
      s.idx = s.specLen ∧ (s.accA, s.accB) = fletcher (Memory.bytes s.pbuf 0 s.specLen.toNat)

/-- A response with its counts right, no tag without `TAG_V` (10_state.md rules R34 and R35), no payload
that is not a verified one of a registered tag (41_frame_reader.md rule R127), and a consumption the
outcome allows (41_frame_reader.md rule R128). -/
structure ResponseInv (registry : Registry) (r : Response) : Prop where
  plen : r.plen.toNat = r.payload.length
  nf : r.nf.toNat = r.fields.length
  tag : r.tagV = false → r.tag = 0
  consumed : r.consumed.toNat ≤ 259
  pairs : r.ckV = false → r.rxA = 0 ∧ r.rxB = 0 ∧ r.calcA = 0 ∧ r.calcB = 0
  payload : r.outcome = .ok → r.tagV = true → r.ckV = true →
    ∃ spec, lookup registry r.tag = some spec ∧ r.plen = spec.payloadLength ∧
      (r.calcA, r.calcB) = fletcher r.payload ∧ r.rxA = r.calcA ∧ r.rxB = r.calcB
  noPayload : r.payload ≠ [] → r.outcome = .ok ∧ r.tagV = true ∧ r.ckV = true

/-- The invariant of the machine. -/
structure Inv (s : State) : Prop where
  pbuf : Memory.wf s.pbuf = true
  registry : registryLegal s.cfg.registry = true
  /-- At most one response at a time (20_memory.md rules R57 and R59). -/
  pending : s.phase ≠ .idle → s.rspV = false
  tag : s.tagV = false → s.tag = 0
  phase : PhaseInv s
  rsp : ResponseInv s.cfg.registry s.rsp

/-! ## What statements about commands are written in -/

/-- The block accepts a command (20_memory.md rule R59). -/
abbrev Ready (s : State) : Prop := s.phase = .idle ∧ s.rspV = false

/-- The state when a command with this header and these data has ended with the response `r`, written out
register by register: the header latched (20_memory.md rule R59), the working registers cleared
(10_state.md rule R36), the data in `PBUF` from offset 0 on, the response offered (20_memory.md rule
R58), everything else as it was. A command that leaves more in the working registers says so. -/
def afterCommand (c : Command) (r : Response) (s : State) : State :=
  { s with
    phase := .idle, cmdOp := c.op, cmdArg := c.arg, cmdLen := c.len, tag := 0, tagV := false,
    rxA := 0, rxB := 0, specLen := 0, idx := 0, pbuf := Memory.writeAll 0 c.data s.pbuf,
    accA := 0, accB := 0, consumed := 0, rsp := r, rspV := true }

/-- The state when an attempt has ended with the response `r` after `n` bytes, the source left with
`rest` to answer to reads and `readies` to readiness queries. -/
def afterAttempt (n : Nat) (rest : List ReadAnswer) (readies : List Nat) (r : Response) (s : State) :
    State :=
  { afterCommand ⟨0x01, 0x00, 0x00, []⟩ r s with
    consumed := BitVec.ofNat 16 n
    src := { s.src with cursor := s.src.cursor + n, answers := rest, readies := readies } }

/-- The readiness answers left when step 1 of an attempt is passed (41_frame_reader.md rule R121); none
when it is not passed. -/
def readyLeft (s : State) : Option (List Nat) :=
  match s.cfg.sourceKind, s.src.readies with
  | .file, rs => some rs
  | .streamed, n :: rs => if s.cfg.readyThreshold ≤ n then some rs else none
  | .streamed, [] => none

/-- The answer of the source to the next read, if it is there (20_memory.md rules R50 and R54; log 26 for
an exhausted FILE source). -/
def sourceNext (s : State) : Option ReadAnswer :=
  if s.cfg.sourceKind = .file ∧ s.src.exhausted = true then some .eos else s.src.answers.head?

/-- The table of 41_frame_reader.md rule R132: the phase a transition goes to and, into `IDLE`, the
outcome; none where the block holds. -/
def transitionTable (s : State) : Option (Phase × Option OutcomeCode) :=
  match s.phase with
  | .idle => none
  | .exec => none
  | .checkReady =>
    match s.cfg.sourceKind, s.src.readies with
    | .file, _ => some (.readSync, none)
    | .streamed, [] => none
    | .streamed, n :: _ =>
      if n < s.cfg.readyThreshold then some (.idle, some .noDataAvailable)
      else some (.readSync, none)
  | .readSync =>
    match sourceNext s with
    | none => none
    | some .eos => some (.idle, some .endOfStream)
    | some (.byte b) =>
      if b = s.cfg.syncByte then some (.readTag, none) else some (.idle, some .noDataAvailable)
  | .readTag =>
    match sourceNext s with
    | none => none
    | some .eos => some (.idle, some .truncatedFrame)
    | some (.byte t) =>
      if (lookup s.cfg.registry t).isSome then some (.readCkA, none)
      else some (.idle, some .unknownPacketType)
  | .readCkA =>
    match sourceNext s with
    | none => none
    | some .eos => some (.idle, some .truncatedFrame)
    | some (.byte _) => some (.readCkB, none)
  | .readCkB =>
    match sourceNext s with
    | none => none
    | some .eos => some (.idle, some .truncatedFrame)
    | some (.byte _) => some (.readPayload, none)
  | .readPayload =>
    if s.specLen = 0 then some (.verify, none)
    else
      match sourceNext s with
      | none => none
      | some .eos => some (.idle, some .truncatedFrame)
      | some (.byte _) =>
        if s.idx.toNat + 1 < s.specLen.toNat then some (.readPayload, none)
        else some (.verify, none)
  | .verify =>
    if s.accA = s.rxA ∧ s.accB = s.rxB then some (.idle, some .ok)
    else some (.idle, some .checksumMismatch)

/-- The phase in which an attempt waits for the byte at frame offset `j` (30_encoding.md rule R80). -/
def waitPhase : Nat → Phase
  | 0 => .readSync
  | 1 => .readTag
  | 2 => .readCkA
  | 3 => .readCkB
  | _ => .readPayload

/-- The bytes of a frame with tag `t` and payload `P` whose checksum bytes are `a` and `b`
(30_encoding.md rule R80). -/
def frameBytes (sync t a b : Byte) (P : List Byte) : List Byte := sync :: t :: a :: b :: P

/-- `Σ P[i]` (40_checksum.md rule R113). -/
def byteSum : List Byte → Nat
  | [] => 0
  | x :: P => x.toNat + byteSum P

/-- `Σ (n - i) · P[i]`, `n` the length (40_checksum.md rule R113). -/
def weightedSum : List Byte → Nat
  | [] => 0
  | x :: P => (P.length + 1) * x.toNat + weightedSum P

/-- The illegal headers, in the words of 30_encoding.md rule R87, on numbers. -/
abbrev IllegalHeader (op arg len : Byte) : Prop :=
  op.toNat = 0 ∨ 5 ≤ op.toNat ∨
  (op.toNat = 1 ∧ (arg.toNat ≠ 0 ∨ len.toNat ≠ 0)) ∨
  (op.toNat = 3 ∧ arg.toNat ≠ 0) ∨
  (op.toNat = 4 ∧
    (arg.toNat / 16 ≠ 0 ∨ arg.toNat / 8 % 2 = 1 ∨ arg.toNat % 8 = 6 ∨ arg.toNat % 8 = 7))

/-- A spec that passes the checks of 10_state.md rules R27 and R28: its descriptors are the bytes of
legal little-endian kinds, its length is at most 255 and the sum of their widths. -/
def RawLegal (r : RawSpec) : Prop :=
  r.payloadLength ≤ 255 ∧
    ∃ ks : List Kind, r.descriptors = ks.map Kind.descriptor ∧ widthSum ks = r.payloadLength

/-- A tag registered with a spec that fails a check (70_reset_and_hazards.md rule R203). -/
def FailsAt (raw : RawCfg) (t : Byte) : Prop := ∃ r, raw.registry t = some r ∧ ¬RawLegal r

/-- How many of a list of answers are bytes. -/
def byteCount : List ReadAnswer → Nat
  | [] => 0
  | .eos :: l => byteCount l
  | .byte _ :: l => byteCount l + 1

end Sys2Proof.Machine
end

