-- ==== Sys2Proof/Certificates/Slice0/Obligations.lean ====
section
/-! DEFINITION. The statements for the provers. -/

open Sys2Proof Sys2Proof.Machine

/-! ## Encoding -/

/-- Command bytes written out from 30_encoding.md rules R85, R88, R89 and R91, and what they stand for. -/
def Obligations.EncodedWordsDecode : Prop :=
  decode [0x01, 0x00, 0x00] = .ok (.tryReadFrame, []) ∧
  decode [0x02, 0x7F, 0x02, 0x0A, 0x0B] = .ok (.decodeRecord 0x7F [0x0A, 0x0B], []) ∧
  decode [0x03, 0x00, 0x01, 0x10, 0xEE] = .ok (.checksum [0x10], [0xEE]) ∧
  decode [0x04, 0x00, 0x01, 0xFF] = .ok (.cvtU8 [0xFF], []) ∧
  decode [0x04, 0x01, 0x02, 0x34, 0x12] = .ok (.cvtU16 [0x34, 0x12], []) ∧
  decode [0x04, 0x02, 0x00] = .ok (.cvtU32 [], []) ∧
  decode [0x04, 0x03, 0x02, 0xFE, 0xFF] = .ok (.cvtI16 [0xFE, 0xFF], []) ∧
  decode [0x04, 0x04, 0x00] = .ok (.cvtI32 [], []) ∧
  decode [0x04, 0x05, 0x00] = .ok (.cvtF32 [], [])

/-- The decoder gives back every instruction from its encoding, whatever bytes follow (30_encoding.md
rules R84 to R86). -/
def Obligations.DecodeOfEncodeIsIdentity : Prop :=
  ∀ (i : Instr) (rest : List Byte), i.WellFormed → decode (encode i ++ rest) = .ok (i, rest)

/-- What the decoder gives an instruction for is that instruction's encoding, `3 + LEN` bytes of it
(30_encoding.md rule R84), and the rest is untouched. -/
def Obligations.DecodedBytesAreTheEncoding : Prop :=
  ∀ (bytes : List Byte) (i : Instr) (rest : List Byte), decode bytes = .ok (i, rest) →
    i.WellFormed ∧ bytes = encode i ++ rest ∧ (encode i).length = 3 + i.data.length

/-- A descriptor byte is legal with kind `k` exactly when bits [7:4] are 0, bit [3] is 0 and bits [2:0]
are the code of `k` (30_encoding.md rules R88, R89). -/
def Obligations.DescriptorByteLegality : Prop :=
  ∀ (b : Byte) (k : Kind), descriptorKind b = some k ↔
    b.toNat / 16 = 0 ∧ b.toNat / 8 % 2 = 0 ∧
      b.toNat % 8 = (match k with | .u8 => 0 | .u16 => 1 | .u32 => 2 | .i16 => 3 | .i32 => 4 | .f32 => 5)

/-- A command decodes to an instruction exactly when its header is not one of the illegal headers of
30_encoding.md rule R87. -/
def Obligations.LegalHeadersAreDecoded : Prop :=
  ∀ c : Command, (∃ i, decodeCommand c = .ok i) ↔ ¬IllegalHeader c.op c.arg c.len

/-! ## The step -/

/-- When it is the block's move, the block is ready and the bytes on the port decode to `i`, the step is
`exec i`, with the bytes of `i` taken from the port; whether ready or busy, a step with no turn to come is
`blockMove`, which carries a command in progress on, and a turn of the block is one transition of `PHASE`.
The two granularities and the turns are the model's (log 5, log 6). -/
def Obligations.StepRunsDecodedInstruction : Prop :=
  ∀ s : State,
    (∀ (i : Instr) (rest : List Byte), s.agenda = [] → Ready s → decode s.host.port = .ok (i, rest) →
      step s = exec i { s with host := { s.host with port := rest } }) ∧
    (s.agenda = [] → step s = blockMove s) ∧
    (s.agenda = [] → s.phase ≠ .idle → step s = resume s) ∧
    (∀ turns : List Turn, s.agenda = .block :: turns → step s = blockTurn { s with agenda := turns })

/-- An illegal command is accepted, its data taken and ignored, nothing read from the source, and
answered ILLEGAL_COMMAND with every other field cleared (30_encoding.md rule R87). -/
def Obligations.IllegalCommandAnswer : Prop :=
  ∀ (s : State) (op arg len : Byte) (data rest : List Byte),
    s.agenda = [] → Ready s → s.host.port = op :: arg :: len :: (data ++ rest) →
      data.length = len.toNat → IllegalHeader op arg len →
      step s = .next (afterCommand ⟨op, arg, len, data⟩
        { Response.cleared with outcome := .illegalCommand }
        { s with host := { s.host with port := rest } })

/-- Acceptance of a command, legal or not, by a ready block, as one transition of `PHASE`: the header is
latched, the working registers are cleared, the data are in `PBUF` from offset 0 on and off the port, and
the first phase is entered (20_memory.md rule R59, 10_state.md rule R36). That `RSP` itself is cleared here
is the model's reading (log 9). -/
def Obligations.AcceptanceLatchesAndClears : Prop :=
  ∀ (s : State) (c : Command) (rest : List Byte), Ready s → c.WellFormed →
    s.host.port = c.bytes ++ rest →
    blockTurn s = .next { s with
      phase := if c.op = 1 ∧ c.arg = 0 ∧ c.len = 0 then .checkReady else .exec,
      cmdOp := c.op, cmdArg := c.arg, cmdLen := c.len, tag := 0, tagV := false, rxA := 0, rxB := 0,
      specLen := 0, idx := 0, pbuf := Memory.writeAll 0 c.data s.pbuf, accA := 0, accB := 0,
      consumed := 0, rsp := .cleared, host := { s.host with port := rest } }

/-- A command offered while a response is pending or a command is in progress is not taken: the port
keeps its bytes (20_memory.md rule R59, 70_reset_and_hazards.md rule R212). How that waiting looks as a step
or as `exec`, the clauses `t = s` and `exec i s = .next s`, is the model's choice (log 8). -/
def Obligations.OfferHoldsUntilReady : Prop :=
  ∀ (s t : State), s.agenda = [] → ¬Ready s → step s = .next t →
    t.host = s.host ∧ (s.phase = .idle → t = s) ∧ (∀ i, exec i s = .next s)

/-- Every command that is accepted ends in one response, or, for an attempt, holds in one of the phases
1 to 6 with none (20_memory.md rules R55, R57, R58). -/
def Obligations.OneResponsePerCommand : Prop :=
  ∀ (i : Instr) (s t : State), i.WellFormed → Ready s → exec i s = .next t →
    t.host = s.host ∧
    ((t.phase = .idle ∧ t.rspV = true) ∨
     (i = .tryReadFrame ∧ t.rspV = false ∧ t.phase ≠ .idle ∧ t.phase ≠ .exec ∧ t.phase ≠ .verify))

/-- The host's taking of a response clears `RSP_V` and hands it the response; nothing else changes
(20_memory.md rule R58). -/
def Obligations.TakingClearsPending : Prop :=
  ∀ (s : State) (turns : List Turn), s.agenda = .host .take :: turns → s.rspV = true →
    step s = .next { s with
      rspV := false, host := { s.host with taken := s.host.taken ++ [s.rsp] }, agenda := turns }

/-! ## Reset and construction -/

/-- The registers after reset (10_state.md rule R31, 70_reset_and_hazards.md rule R200). -/
def Obligations.ResetRegisterValues : Prop :=
  let s := State.reset
  s.phase = .idle ∧ s.phase.code = 0 ∧ s.cmdOp = 0 ∧ s.cmdArg = 0 ∧ s.cmdLen = 0 ∧ s.tag = 0 ∧
    s.tagV = false ∧ s.rxA = 0 ∧ s.rxB = 0 ∧ s.specLen = 0 ∧ s.idx = 0 ∧
    (∀ a, a < 255 → Memory.read s.pbuf a = 0) ∧ s.accA = 0 ∧ s.accB = 0 ∧ s.consumed = 0 ∧
    s.rsp = ⟨.ok, false, 0, 0, false, 0, 0, 0, 0, 0, [], 0, []⟩ ∧ s.rspV = false

/-- Reset, at any time, aborts the command in progress without a response, and discards one not taken:
every register is at its reset value, the host has taken nothing more, and the configuration and the
source with its cursor are as they were (70_reset_and_hazards.md rules R200 to R202). -/
def Obligations.ResetAbortsCommand : Prop :=
  ∀ (s : State) (turns : List Turn), s.agenda = .host .reset :: turns →
    ∃ t, step s = .next t ∧
      t.phase = .idle ∧ t.cmdOp = 0 ∧ t.cmdArg = 0 ∧ t.cmdLen = 0 ∧ t.tag = 0 ∧ t.tagV = false ∧
      t.rxA = 0 ∧ t.rxB = 0 ∧ t.specLen = 0 ∧ t.idx = 0 ∧
      (∀ a, a < 255 → Memory.read t.pbuf a = 0) ∧ t.accA = 0 ∧ t.accB = 0 ∧ t.consumed = 0 ∧
      t.rsp = Response.cleared ∧ t.rspV = false ∧
      t.cfg = s.cfg ∧ t.src = s.src ∧ t.host.taken = s.host.taken ∧ t.agenda = turns

/-- Construction (70_reset_and_hazards.md rule R203): it fails exactly when some registered spec fails a
check of 10_state.md rules R27 and R28, and the error names the lowest such tag; otherwise it gives a block
in the reset state, which meets the invariant, with exactly the configuration supplied, whatever the sync
byte, the threshold and the source kind. -/
def Obligations.ConstructionChecksRegistry : Prop :=
  (∀ (raw : RawCfg) (t : Byte), construct raw = .error ⟨t⟩ ↔
    FailsAt raw t ∧ ∀ t' : Byte, t'.toNat < t.toNat → ¬FailsAt raw t') ∧
  ∀ raw : RawCfg, (∀ t, ¬FailsAt raw t) → ∃ s, construct raw = .ok s ∧
    s = State.constructed s.cfg ∧ Inv s ∧ s.cfg.syncByte = raw.syncByte ∧
    s.cfg.sourceKind = raw.sourceKind ∧ s.cfg.readyThreshold = raw.readyThreshold ∧
    ∀ t : Byte,
      (raw.registry t = none → lookup s.cfg.registry t = none) ∧
      (∀ r, raw.registry t = some r → ∃ spec, lookup s.cfg.registry t = some spec ∧
        spec.payloadLength.toNat = r.payloadLength ∧
        spec.layout.map Kind.descriptor = r.descriptors)

/-- The GPS spec of 30_encoding.md rule R92, 48 bytes in 15 fields, can be registered at any tag; the
52 bytes the source's text names cannot (90_conflicts.md C1). -/
def Obligations.GpsSpecIsRegistrable : Prop :=
  ∀ (kind : SourceKind) (n : Nat) (tagGps tagSensor : Byte),
    (∃ s, construct (deployment kind n tagGps tagSensor none) = .ok s ∧
      lookup s.cfg.registry tagGps = some ⟨48, [.u32, .i32, .i32, .i32, .i32, .i32, .i32, .u32, .u32,
        .u32, .i32, .u8, .u8, .u8, .u8]⟩ ∧
      ∀ t, t ≠ tagGps → lookup s.cfg.registry t = none) ∧
    construct { deployment kind n tagGps tagSensor none with
      registry := fun t => if t = tagGps then some { gpsRaw with payloadLength := 52 } else none } =
      .error ⟨tagGps⟩

/-! ## CHECKSUM -/

/-- The closed form of the checksum (40_checksum.md rule R113). -/
def Obligations.FletcherClosedForm : Prop :=
  ∀ P : List Byte,
    ((fletcher P).1.toNat = byteSum P % 256 ∧ (fletcher P).2.toNat = weightedSum P % 256)

/-- CHECKSUM answers OK with the two sums of its data modulo 256, leaves them in the accumulators, and
touches nothing else (40_checksum.md rule R111). -/
def Obligations.ChecksumResult : Prop :=
  ∀ (s : State) (data : List Byte), Ready s → data.length ≤ 255 →
    let a : Byte := BitVec.ofNat 8 (byteSum data)
    let b : Byte := BitVec.ofNat 8 (weightedSum data)
    exec (.checksum data) s = .next
      { afterCommand ⟨0x03, 0x00, BitVec.ofNat 8 data.length, data⟩
          { Response.cleared with outcome := .ok, ckV := true, calcA := a, calcB := b } s with
        accA := a, accB := b }

/-- A change of one payload byte always changes `a` (40_checksum.md rule R114). -/
def Obligations.OneByteChangeChangesA : Prop :=
  ∀ (P Q : List Byte) (x y : Byte), x ≠ y →
    (fletcher (P ++ x :: Q)).1 ≠ (fletcher (P ++ y :: Q)).1

/-- The checksum has collisions: adding `d`, `-2d`, `d` at three consecutive offsets changes neither sum
(40_checksum.md rule R114). -/
def Obligations.FletcherCollisions : Prop :=
  ∀ (P Q : List Byte) (x y z d : Byte),
    fletcher (P ++ [x + d, y - 2 * d, z + d] ++ Q) = fletcher (P ++ [x, y, z] ++ Q)

/-! ## CVT -/

/-- The assembly is little-endian (42_deserializer.md rule R151). -/
def Obligations.AssemblyIsLittleEndian : Prop :=
  ∀ P : List Byte,
    leNat P = ((List.range P.length).map fun k => (P.getD k 0).toNat * 2 ^ (8 * k)).sum ∧
    leNat P < 2 ^ (8 * P.length)

/-- CVT.U8, CVT.U16 and CVT.U32 on data of their width: the bytes, least significant first, zero-extended
(42_deserializer.md rules R152 to R154). -/
def Obligations.CvtUnsignedResults : Prop :=
  ∀ (s : State) (b0 b1 b2 b3 : Byte), Ready s →
    exec (.cvtU8 [b0]) s = .next (afterCommand ⟨0x04, 0x00, 1, [b0]⟩
      { Response.cleared with outcome := .ok, nf := 1, fields := [⟨.u8, b0.setWidth 32⟩] } s) ∧
    exec (.cvtU16 [b0, b1]) s = .next (afterCommand ⟨0x04, 0x01, 2, [b0, b1]⟩
      { Response.cleared with
        outcome := .ok, nf := 1, fields := [⟨.u16, (b1 ++ b0).setWidth 32⟩] } s) ∧
    exec (.cvtU32 [b0, b1, b2, b3]) s = .next (afterCommand ⟨0x04, 0x02, 4, [b0, b1, b2, b3]⟩
      { Response.cleared with
        outcome := .ok, nf := 1, fields := [⟨.u32, b3 ++ b2 ++ b1 ++ b0⟩] } s)

/-- CVT.I16 and CVT.I32 on data of their width: the bytes, least significant first, sign-extended
(42_deserializer.md rules R155 and R156). -/
def Obligations.CvtSignedResults : Prop :=
  ∀ (s : State) (b0 b1 b2 b3 : Byte), Ready s →
    exec (.cvtI16 [b0, b1]) s = .next (afterCommand ⟨0x04, 0x03, 2, [b0, b1]⟩
      { Response.cleared with
        outcome := .ok, nf := 1, fields := [⟨.i16, (b1 ++ b0).signExtend 32⟩] } s) ∧
    exec (.cvtI32 [b0, b1, b2, b3]) s = .next (afterCommand ⟨0x04, 0x04, 4, [b0, b1, b2, b3]⟩
      { Response.cleared with
        outcome := .ok, nf := 1, fields := [⟨.i32, b3 ++ b2 ++ b1 ++ b0⟩] } s)

/-- CVT.F32 on four bytes returns every bit pattern unchanged (42_deserializer.md rules R157 and
R164). -/
def Obligations.CvtFloatKeepsPattern : Prop :=
  ∀ (s : State) (b0 b1 b2 b3 : Byte), Ready s →
    exec (.cvtF32 [b0, b1, b2, b3]) s = .next (afterCommand ⟨0x04, 0x05, 4, [b0, b1, b2, b3]⟩
      { Response.cleared with
        outcome := .ok, nf := 1, fields := [⟨.f32, b3 ++ b2 ++ b1 ++ b0⟩] } s)

/-- Each CVT on data of another length answers LAYOUT_MISMATCH with no field (42_deserializer.md rules
R152 to R157). -/
def Obligations.CvtWrongLength : Prop :=
  ∀ (s : State) (data : List Byte), Ready s → data.length ≤ 255 →
    let bad (arg : Byte) := Host.Outcome.next (φ := Fault) (ρ := Refusal)
      (afterCommand ⟨0x04, arg, BitVec.ofNat 8 data.length, data⟩
        { Response.cleared with outcome := .layoutMismatch } s)
    (data.length ≠ 1 → exec (.cvtU8 data) s = bad 0x00) ∧
    (data.length ≠ 2 → exec (.cvtU16 data) s = bad 0x01) ∧
    (data.length ≠ 4 → exec (.cvtU32 data) s = bad 0x02) ∧
    (data.length ≠ 2 → exec (.cvtI16 data) s = bad 0x03) ∧
    (data.length ≠ 4 → exec (.cvtI32 data) s = bad 0x04) ∧
    (data.length ≠ 4 → exec (.cvtF32 data) s = bad 0x05)

/-- The value a converted field denotes: its assembled number for the unsigned kinds, its two's
complement reading for the signed ones, in the range of its kind (42_deserializer.md rules R160 and
R165; log 16). -/
def Obligations.FieldValues : Prop :=
  ∀ (k : Kind) (bytes : List Byte), bytes.length = width k →
    let p : Int := leNat bytes
    inRange k (laneOfBytes k bytes).intVal = true ∧
    (laneOfBytes k bytes).intVal =
      (match k with
        | .u8 => p
        | .u16 => p
        | .u32 => p
        | .i16 => if p < 32768 then p else p - 65536
        | .i32 => if p < 2147483648 then p else p - 4294967296
        | .f32 => p)

/-! ## DECODE -/

/-- DECODE of an unregistered tag answers UNKNOWN_PACKET_TYPE, whatever the length
(42_deserializer.md rule R158, 60_exceptions.md rule R183). -/
def Obligations.DecodeUnregisteredTag : Prop :=
  ∀ (s : State) (t : Byte) (data : List Byte), Ready s → data.length ≤ 255 →
    lookup s.cfg.registry t = none →
    exec (.decodeRecord t data) s = .next
      { afterCommand ⟨0x02, t, BitVec.ofNat 8 data.length, data⟩
          { Response.cleared with outcome := .unknownPacketType, tagV := true, tag := t } s with
        tag := t, tagV := true }

/-- DECODE with data of another length than the spec's answers LAYOUT_MISMATCH (42_deserializer.md rule
R158). -/
def Obligations.DecodeLengthMismatch : Prop :=
  ∀ (s : State) (t : Byte) (spec : PacketSpec) (data : List Byte), Ready s → data.length ≤ 255 →
    lookup s.cfg.registry t = some spec → data.length ≠ spec.payloadLength.toNat →
    exec (.decodeRecord t data) s = .next
      { afterCommand ⟨0x02, t, BitVec.ofNat 8 data.length, data⟩
          { Response.cleared with outcome := .layoutMismatch, tagV := true, tag := t } s with
        tag := t, tagV := true }

/-- DECODE on data of the spec's length answers OK with one lane for each field of the layout, in
declared order, each converted from its own bytes at its offset (42_deserializer.md rules R158, R159). -/
def Obligations.DecodeFieldsInLayoutOrder : Prop :=
  ∀ (s : State) (t : Byte) (spec : PacketSpec) (data : List Byte), Ready s →
    lookup s.cfg.registry t = some spec → widthSum spec.layout = spec.payloadLength.toNat →
    data.length = spec.payloadLength.toNat →
    ∃ lanes : List Lane,
      exec (.decodeRecord t data) s = .next
        { afterCommand ⟨0x02, t, spec.payloadLength, data⟩
            { Response.cleared with
              outcome := .ok, tagV := true, tag := t, nf := BitVec.ofNat 8 spec.layout.length,
              fields := lanes } s with
          tag := t, tagV := true } ∧
      spec.layout.length ≤ 255 ∧ lanes.length = spec.layout.length ∧
      ∀ (j : Nat) (k : Kind), spec.layout[j]? = some k →
        lanes[j]? = some (laneOfBytes k ((data.drop (fieldOffset spec.layout j)).take (width k)))

/-- A field decoded by DECODE equals the field CVT gives for the same bytes (42_deserializer.md rule
R161). -/
def Obligations.DecodeFieldEqualsCvt : Prop :=
  ∀ (s u t' : State) (t : Byte) (spec : PacketSpec) (data : List Byte) (j : Nat) (k : Kind),
    Ready s → Ready u → lookup s.cfg.registry t = some spec →
    widthSum spec.layout = spec.payloadLength.toNat → data.length = spec.payloadLength.toNat →
    exec (.decodeRecord t data) s = .next t' → spec.layout[j]? = some k →
    ∃ v lane, exec ((Form.cvt k).instr 0
        ((data.drop (fieldOffset spec.layout j)).take (width k))) u = .next v ∧
      v.rsp.outcome = .ok ∧ v.rsp.fields = [lane] ∧ t'.rsp.fields[j]? = some lane

/-- Encoding values in range with a registered spec and decoding them gives lanes that denote the values,
and for f32, whose value is given by its bit pattern, the pattern (42_deserializer.md rule R163). -/
def Obligations.DecodeRoundTrip : Prop :=
  ∀ (s : State) (t : Byte) (spec : PacketSpec) (vals : List Int), Ready s →
    lookup s.cfg.registry t = some spec → widthSum spec.layout = spec.payloadLength.toNat →
    vals.length = spec.layout.length →
    (∀ (j : Nat) (k : Kind) (v : Int), spec.layout[j]? = some k → vals[j]? = some v →
      inRange k v = true) →
    ∃ t', exec (.decodeRecord t (encFields spec.layout vals)) s = .next t' ∧
      t'.rsp.outcome = .ok ∧ t'.rsp.fields.length = spec.layout.length ∧
      ∀ (j : Nat) (k : Kind) (v : Int), spec.layout[j]? = some k → vals[j]? = some v →
        ∃ lane, t'.rsp.fields[j]? = some lane ∧ lane.kind = k ∧
          (k ≠ .f32 → lane.val = .int v) ∧
          (k = .f32 → lane.word = BitVec.ofInt 32 v ∧ lane.val = .f32 (f32Datum (BitVec.ofInt 32 v)))

/-- After an OK attempt, DECODE of the tag and payload it answered gives OK, with one field for each of
the tag's layout (42_deserializer.md rule R166). -/
def Obligations.FrameOkThenDecodeOk : Prop :=
  ∀ s t u : State, registryLegal s.cfg.registry = true → Ready s → exec .tryReadFrame s = .next t →
    t.rspV = true → t.rsp.outcome = .ok → Ready u → u.cfg = s.cfg →
    ∃ spec v, lookup s.cfg.registry t.rsp.tag = some spec ∧
      exec (.decodeRecord t.rsp.tag t.rsp.payload) u = .next v ∧ v.rsp.outcome = .ok ∧
      v.rsp.nf.toNat = spec.layout.length

/-- What DECODE, CHECKSUM and CVT leave unchanged: the configuration, the source, the port, the turns to
come and every byte of `PBUF` outside the data they store at offset 0 on; the receive, length and index
registers are clear (10_state.md rules R33, R36; 40_checksum.md rule R111; 42_deserializer.md rules R152
to R158). -/
def Obligations.DataCommandsFrame : Prop :=
  ∀ (i : Instr) (s t : State), i.WellFormed → i ≠ .tryReadFrame → Ready s → exec i s = .next t →
    t.cfg = s.cfg ∧ t.src = s.src ∧ t.host = s.host ∧ t.agenda = s.agenda ∧
    t.rxA = 0 ∧ t.rxB = 0 ∧ t.specLen = 0 ∧ t.idx = 0 ∧ t.consumed = 0 ∧
    (∀ a, a < i.data.length → Memory.read t.pbuf a = i.data.getD a 0) ∧
    (∀ a, i.data.length ≤ a → Memory.read t.pbuf a = Memory.read s.pbuf a)

/-! ## TRY_READ_FRAME -/

/-- Step 1, not ready (41_frame_reader.md rule R121): a streamed source with fewer bytes ready than the
threshold ends the attempt with NO_DATA_AVAILABLE; the query is answered once, no byte is read and the
cursor does not move (20_memory.md rule R52). -/
def Obligations.AttemptNotReady : Prop :=
  ∀ (s : State) (n : Nat) (rs : List Nat), Ready s → s.cfg.sourceKind = .streamed →
    s.src.readies = n :: rs → n < s.cfg.readyThreshold →
    exec .tryReadFrame s = .next (afterAttempt 0 s.src.answers rs
      { Response.cleared with outcome := .noDataAvailable } s)

/-- Steps 2 and 3 (41_frame_reader.md rule R122): `EOS` at the sync position answers END_OF_STREAM with
nothing consumed; a byte that is not the sync byte is discarded and answers NO_DATA_AVAILABLE with one
byte consumed, for either source kind. -/
def Obligations.AttemptAtSync : Prop :=
  ∀ (s : State) (b : Byte) (rest : List ReadAnswer) (rs : List Nat), Ready s →
    readyLeft s = some rs → Answering s →
    (s.src.answers = .eos :: rest →
      exec .tryReadFrame s = .next (readEos rest (afterAttempt 0 rest rs
        { Response.cleared with outcome := .endOfStream } s))) ∧
    (s.src.answers = .byte b :: rest → b ≠ s.cfg.syncByte →
      exec .tryReadFrame s = .next (afterAttempt 1 rest rs
        { Response.cleared with outcome := .noDataAvailable, consumed := 1 } s))

/-- A FILE source that has answered `EOS` answers it again: every later attempt ends with END_OF_STREAM
and nothing consumed (20_memory.md rule R54, 60_exceptions.md rule R185). That it does so at once, with no
answer waiting, is the model's choice (log 26). -/
def Obligations.ExhaustedFileAttempt : Prop :=
  ∀ s : State, Ready s → s.cfg.sourceKind = .file → s.src.exhausted = true →
    exec .tryReadFrame s = .next (afterAttempt 0 s.src.answers s.src.readies
      { Response.cleared with outcome := .endOfStream } s)

/-- Step 4, no tag (41_frame_reader.md rule R123): `EOS` after the sync byte answers TRUNCATED_FRAME with
`TAG_V = 0` and one byte consumed. -/
def Obligations.AttemptWithoutTag : Prop :=
  ∀ (s : State) (rest : List ReadAnswer) (rs : List Nat), Ready s → readyLeft s = some rs →
    Answering s → s.src.answers = .byte s.cfg.syncByte :: .eos :: rest →
    exec .tryReadFrame s = .next (readEos rest (afterAttempt 1 rest rs
      { Response.cleared with outcome := .truncatedFrame, consumed := 1 } s))

/-- Step 4, unknown tag (41_frame_reader.md rule R124): an unregistered tag answers UNKNOWN_PACKET_TYPE
with the tag and two bytes consumed, and nothing after the tag is read. -/
def Obligations.AttemptUnknownTag : Prop :=
  ∀ (s : State) (t : Byte) (rest : List ReadAnswer) (rs : List Nat), Ready s →
    readyLeft s = some rs → Answering s →
    s.src.answers = .byte s.cfg.syncByte :: .byte t :: rest → lookup s.cfg.registry t = none →
    exec .tryReadFrame s = .next
      { afterAttempt 2 rest rs
          { Response.cleared with
            outcome := .unknownPacketType, tagV := true, tag := t, consumed := 2 } s with
        tag := t, tagV := true }

/-- Step 5 (41_frame_reader.md rule R125): `EOS` in place of `checksum_a` or `checksum_b` answers
TRUNCATED_FRAME with the tag and two or three bytes consumed. -/
def Obligations.AttemptTruncatedAtChecksum : Prop :=
  ∀ (s : State) (t a : Byte) (spec : PacketSpec) (rest : List ReadAnswer) (rs : List Nat), Ready s →
    readyLeft s = some rs → Answering s → lookup s.cfg.registry t = some spec →
    let r (n : Half) : Response :=
      { Response.cleared with outcome := .truncatedFrame, tagV := true, tag := t, consumed := n }
    (s.src.answers = .byte s.cfg.syncByte :: .byte t :: .eos :: rest →
      exec .tryReadFrame s = .next (readEos rest { afterAttempt 2 rest rs (r 2) s with
        tag := t, tagV := true, specLen := spec.payloadLength })) ∧
    (s.src.answers = .byte s.cfg.syncByte :: .byte t :: .byte a :: .eos :: rest →
      exec .tryReadFrame s = .next (readEos rest { afterAttempt 3 rest rs (r 3) s with
        tag := t, tagV := true, specLen := spec.payloadLength, rxA := a }))

/-- Step 6 (41_frame_reader.md rule R126): `EOS` after `k` payload bytes, fewer than the payload length,
answers TRUNCATED_FRAME with the tag, `4 + k` bytes consumed and the `k` bytes in `PBUF`. -/
def Obligations.AttemptTruncatedInPayload : Prop :=
  ∀ (s : State) (t a b : Byte) (spec : PacketSpec) (P : List Byte) (rest : List ReadAnswer)
    (rs : List Nat), Ready s → readyLeft s = some rs → Answering s →
    lookup s.cfg.registry t = some spec → P.length < spec.payloadLength.toNat →
    s.src.answers = (frameBytes s.cfg.syncByte t a b P).map .byte ++ .eos :: rest →
    exec .tryReadFrame s = .next (readEos rest
      { afterAttempt (4 + P.length) rest rs
          { Response.cleared with
            outcome := .truncatedFrame, tagV := true, tag := t,
            consumed := BitVec.ofNat 16 (4 + P.length) } s with
        tag := t, tagV := true, specLen := spec.payloadLength, rxA := a, rxB := b,
        idx := BitVec.ofNat 8 P.length, accA := (fletcher P).1, accB := (fletcher P).2,
        pbuf := Memory.writeAll 0 P s.pbuf })

/-- Step 7 (41_frame_reader.md rule R127, 40_checksum.md rule R115): a frame of a registered tag with a
payload of the registered length is read whole; it answers OK with the payload when the computed pair
equals the received one, and CHECKSUM_MISMATCH with no payload when it does not. -/
def Obligations.AttemptVerifiesFrame : Prop :=
  ∀ (s : State) (t a b : Byte) (spec : PacketSpec) (P : List Byte) (rest : List ReadAnswer)
    (rs : List Nat), Ready s → readyLeft s = some rs → Answering s →
    lookup s.cfg.registry t = some spec → P.length = spec.payloadLength.toNat →
    s.src.answers = (frameBytes s.cfg.syncByte t a b P).map .byte ++ rest →
    let r : Response :=
      { Response.cleared with
        tagV := true, tag := t, consumed := BitVec.ofNat 16 (4 + P.length), ckV := true, rxA := a,
        rxB := b, calcA := (fletcher P).1, calcB := (fletcher P).2 }
    exec .tryReadFrame s = .next
      { afterAttempt (4 + P.length) rest rs
          (if fletcher P = (a, b) then
            { r with outcome := .ok, plen := spec.payloadLength, payload := P }
          else { r with outcome := .checksumMismatch }) s with
        tag := t, tagV := true, specLen := spec.payloadLength, rxA := a, rxB := b,
        idx := spec.payloadLength, accA := (fletcher P).1, accB := (fletcher P).2,
        pbuf := Memory.writeAll 0 P s.pbuf }

/-- While a query or a read is unanswered the block holds in its phase, with what was answered before it
consumed and no response, and its move changes nothing (20_memory.md rule R55): at the query; at the sync
byte or the tag, whatever is registered; and at every byte of a frame of a registered tag. -/
def Obligations.AttemptHoldsUnanswered : Prop :=
  ∀ (s : State) (rs : List Nat) (j : Nat), Ready s →
    let holds := ∃ u, exec .tryReadFrame s = .next u ∧ u.phase = waitPhase j ∧ u.rspV = false ∧
      u.consumed.toNat = j ∧ u.src = { s.src with
        cursor := s.src.cursor + j, answers := [], readies := rs } ∧ blockMove u = .next u
    (s.cfg.sourceKind = .streamed → s.src.readies = [] →
      ∃ u, exec .tryReadFrame s = .next u ∧ u.phase = .checkReady ∧ u.rspV = false ∧
        u.consumed = 0 ∧ u.src = s.src ∧ blockMove u = .next u) ∧
    (readyLeft s = some rs → Answering s → j < 2 →
      s.src.answers = ([s.cfg.syncByte].take j).map .byte → holds) ∧
    (∀ (t a b : Byte) (spec : PacketSpec) (P : List Byte),
      readyLeft s = some rs → Answering s → lookup s.cfg.registry t = some spec →
      P.length = spec.payloadLength.toNat → j < 4 + P.length →
      s.src.answers = ((frameBytes s.cfg.syncByte t a b P).take j).map .byte → holds)

/-- Bytes consumed per outcome, and where the cursor is after an attempt (41_frame_reader.md rule
R128). -/
def Obligations.AttemptConsumption : Prop :=
  ∀ s t : State, Ready s → exec .tryReadFrame s = .next t →
    t.src.cursor = s.src.cursor + t.consumed.toNat ∧
    (t.rspV = true → t.rsp.consumed = t.consumed ∧
      match t.rsp.outcome with
      | .noDataAvailable =>
        (t.consumed.toNat = 0 ∧ readyLeft s = none) ∨ (t.consumed.toNat = 1 ∧ readyLeft s ≠ none)
      | .endOfStream => t.consumed.toNat = 0
      | .truncatedFrame => 1 ≤ t.consumed.toNat ∧ t.consumed.toNat ≤ 3 + t.specLen.toNat
      | .unknownPacketType => t.consumed.toNat = 2
      | .checksumMismatch => t.consumed.toNat = 4 + t.specLen.toNat
      | .ok => t.consumed.toNat = 4 + t.specLen.toNat
      | .layoutMismatch => False
      | .illegalCommand => False)

/-- An attempt whose readiness query and reads are all answered ends with a response
(70_reset_and_hazards.md rule R214): enough is that the source answers `EOS` somewhere, or has answered
it for good, or has 259 answers. That a FILE source that has answered it for good answers at once is the
model's choice (log 26). -/
def Obligations.AnsweredAttemptEnds : Prop :=
  ∀ s : State, Ready s → readyLeft s ≠ none →
    (¬Answering s ∨ .eos ∈ s.src.answers ∨ 259 ≤ s.src.answers.length) →
    ∃ t, exec .tryReadFrame s = .next t ∧ t.phase = .idle ∧ t.rspV = true

/-- What an attempt leaves unchanged: the configuration, the host port, the turns to come, and every
byte of `PBUF` from offset `IDX` on, `IDX` being the number of payload bytes it has stored from offset 0
on (41_frame_reader.md rules R120, R126). -/
def Obligations.FrameReaderFrame : Prop :=
  ∀ s t : State, Ready s → exec .tryReadFrame s = .next t →
    t.cfg = s.cfg ∧ t.host = s.host ∧ t.agenda = s.agenda ∧
    t.cmdOp = 1 ∧ t.cmdArg = 0 ∧ t.cmdLen = 0 ∧
    ∀ a, t.idx.toNat ≤ a → Memory.read t.pbuf a = Memory.read s.pbuf a

/-- The transitions of `PHASE` during TRY_READ_FRAME (41_frame_reader.md rule R132): from `IDLE` at
acceptance, and from each phase as the table has it; into `IDLE` a response is written, into another
phase none. In `READ_PAYLOAD` the bytes read are fewer than the payload length, unless that is 0 (log 25). An exhausted
FILE source answers at once (log 26). -/
def Obligations.PhaseTransitions : Prop :=
  (∀ (s : State) (rest : List Byte), Ready s → decode s.host.port = .ok (.tryReadFrame, rest) →
    ∃ t, blockTurn s = .next t ∧ t.phase = .checkReady ∧ t.rspV = false) ∧
  ∀ s : State, s.phase ≠ .idle → s.phase ≠ .exec →
    (s.phase = .readPayload → s.specLen ≠ 0 → s.idx.toNat < s.specLen.toNat) →
    (transitionTable s = none → blockTurn s = .next s) ∧
    ∀ p o, transitionTable s = some (p, o) → ∃ t, blockTurn s = .next t ∧ t.phase = p ∧
      (o = none → t.rspV = s.rspV ∧ t.rsp = s.rsp) ∧
      (∀ c, o = some c → t.rspV = true ∧ t.rsp.outcome = c)

/-- The block's move is the same as its transitions of `PHASE` (10_state.md rule R32, 41_frame_reader.md rule
R132) taken one at a time: at most one to accept a command and 262 to carry it out. That a step has these
two sizes is the model's choice (log 6). -/
def Obligations.BlockMoveIsPhaseTransitions : Prop :=
  ∀ s : State, blockMove s = blockTurns 263 s

/-- When the source's answers come does not matter: an attempt that ended is the same with more answers
waiting behind, and one that holds, carried on after they came, ends as if they had been there from the
start (20_memory.md rules R52, R55, R66). -/
def Obligations.LateAnswersChangeNothing : Prop :=
  ∀ (s : State) (ys : List ReadAnswer) (zs : List Nat), Ready s →
    ∃ t, exec .tryReadFrame s = .next t ∧
      (t.rspV = true → exec .tryReadFrame (deliver ys zs s) = .next (deliver ys zs t)) ∧
      (t.rspV = false → exec .tryReadFrame (deliver ys zs s) = blockMove (deliver ys zs t))

/-- `k` bytes of noise before a valid frame on a FILE source take `k` attempts, each answered
NO_DATA_AVAILABLE with one byte consumed; the next answers OK with the frame's payload
(70_reset_and_hazards.md rule R206). That `POLL` has a bound is the model's choice (log 23),
and that its calls go before what is on the port (log 28). -/
def Obligations.NoiseThenFrame : Prop :=
  ∀ (s : State) (noise : List Byte) (t : Byte) (spec : PacketSpec) (P : List Byte)
    (rest : List ReadAnswer), Ready s → s.cfg.sourceKind = .file → s.src.exhausted = false →
    (∀ b ∈ noise, b ≠ s.cfg.syncByte) → lookup s.cfg.registry t = some spec →
    P.length = spec.payloadLength.toNat →
    s.src.answers = noise.map .byte ++
      (frameBytes s.cfg.syncByte t (fletcher P).1 (fletcher P).2 P).map .byte ++ rest →
    ∃ r u, attempts (noise.length + 1) s = some (List.replicate noise.length
        { Response.cleared with outcome := .noDataAvailable, consumed := 1 } ++ [r], u) ∧
      poll (noise.length + 1) s = some (r, u) ∧
      r.outcome = .ok ∧ r.tag = t ∧ r.payload = P ∧ Ready u ∧ u.src.answers = rest ∧
      u.src.cursor = s.src.cursor + noise.length + 4 + P.length

/-- A host polling a FILE source of `n` bytes reaches END_OF_STREAM after at most `n + 1` attempts
(41_frame_reader.md rule R129). That a source that answered `EOS` inside a frame answers the next attempt
at once is the model's choice (log 26), and that the host's calls go before what is on the port (log 28). -/
def Obligations.FilePollingEnds : Prop :=
  ∀ (s : State) (bytes : List Byte), Ready s → s.cfg.sourceKind = .file → s.src.exhausted = false →
    s.src.answers = bytes.map .byte ++ [.eos] →
    ∃ n rs r u, n ≤ bytes.length ∧ attempts (n + 1) s = some (rs ++ [r], u) ∧
      r.outcome = .endOfStream ∧ u.src.cursor = s.src.cursor + bytes.length

/-! ## The whole machine -/

/-- A constructed block whose registry is legal meets the invariant, and so does the reset state. -/
def Obligations.ResetMeetsInvariant : Prop :=
  Inv State.reset ∧ ∀ cfg : Cfg, registryLegal cfg.registry = true → Inv (State.constructed cfg)

/-- Every step, of the block, the host or the source, keeps the invariant. -/
def Obligations.StepKeepsInvariant : Prop :=
  ∀ s t : State, Inv s → step s = .next t → Inv t

/-- From a state that meets the invariant, a step neither faults nor is refused: every abnormal condition
is a response (60_exceptions.md rule R180), and the block never stops by itself (70_reset_and_hazards.md
rule R215). -/
def Obligations.StepNeverStops : Prop :=
  ∀ s : State, Inv s → ∃ t, step s = .next t

/-- No step changes the configuration (10_state.md rules R21, R29; 60_exceptions.md rule R188). -/
def Obligations.ConfigurationIsConstant : Prop :=
  ∀ s t : State, step s = .next t → t.cfg = s.cfg

/-- The cursor moves past exactly the bytes read, in the order the source answers them, and no answer is
given twice (20_memory.md rules R51, R65, R66): a step of the block takes some answers from the front and
moves the cursor by the bytes among them; a step of the host leaves the source as it is; a step of the
source only adds answers. -/
def Obligations.CursorMovesByBytesRead : Prop :=
  ∀ s t : State, step s = .next t →
    (s.agenda = [] ∨ (∃ turns, s.agenda = .block :: turns) →
      ∃ used, s.src.answers = used ++ t.src.answers ∧
        t.src.cursor = s.src.cursor + byteCount used) ∧
    (∀ a turns, s.agenda = .host a :: turns → t.src = s.src) ∧
    (∀ a turns, s.agenda = .source a :: turns →
      t.src.cursor = s.src.cursor ∧ t.src.exhausted = s.src.exhausted ∧
      (∃ more, t.src.answers = s.src.answers ++ more) ∧
      (∃ more, t.src.readies = s.src.readies ++ more) ∧
      t.phase = s.phase ∧ t.rsp = s.rsp ∧ t.rspV = s.rspV)

/-- A FILE source that has answered `EOS` stays exhausted, and its cursor stays where it is
(20_memory.md rule R54). -/
def Obligations.FileExhaustionIsPermanent : Prop :=
  ∀ s t : State, s.cfg.sourceKind = .file → s.src.exhausted = true → step s = .next t →
    t.src.exhausted = true ∧ t.src.cursor = s.src.cursor

/-- No state of the block influences the result of a later command: two ready blocks with the same
configuration and the same source, whatever else their registers, `PBUF` and `RSP` hold, answer a
command alike and leave the source and the working registers alike (10_state.md rules R36, R37). -/
def Obligations.EarlierStateDoesNotMatter : Prop :=
  ∀ (i : Instr) (s1 s2 : State), i.WellFormed → registryLegal s1.cfg.registry = true →
    Ready s1 → Ready s2 → s1.cfg = s2.cfg → s1.src = s2.src →
    ∃ t1 t2, exec i s1 = .next t1 ∧ exec i s2 = .next t2 ∧
      t1.rsp = t2.rsp ∧ t1.rspV = t2.rspV ∧ t1.src = t2.src ∧ t1.phase = t2.phase ∧
      t1.cmdOp = t2.cmdOp ∧ t1.cmdArg = t2.cmdArg ∧ t1.cmdLen = t2.cmdLen ∧
      t1.tag = t2.tag ∧ t1.tagV = t2.tagV ∧ t1.rxA = t2.rxA ∧ t1.rxB = t2.rxB ∧
      t1.specLen = t2.specLen ∧ t1.idx = t2.idx ∧ t1.accA = t2.accA ∧ t1.accB = t2.accB ∧
      t1.consumed = t2.consumed

/-- The fields of the status word (10_state.md rule R35), with the outcome codes of 30_encoding.md rule
R90. -/
def Obligations.StatusWordFields : Prop :=
  ∀ r : Response,
    r.statusWord.extractLsb' 0 4 = (match r.outcome with
      | .ok => 0 | .noDataAvailable => 1 | .endOfStream => 2 | .unknownPacketType => 3
      | .checksumMismatch => 4 | .truncatedFrame => 5 | .layoutMismatch => 6
      | .illegalCommand => 7) ∧
    r.statusWord.getLsbD 4 = r.tagV ∧ r.statusWord.getLsbD 5 = r.ckV ∧
    r.statusWord.extractLsb' 6 2 = 0 ∧ r.statusWord.extractLsb' 8 8 = r.tag

/-! ## Turns, calls of the host, the end of a run -/

/-- What the other turns of the host and the turns of the source do: an offer appends its bytes to the
port (20_memory.md rule R56), taking a response that is not there does nothing (log 8), an answer of the
source is appended to those waiting (R50), to reads or to readiness queries. Nothing else changes. The port
as a queue of bytes and the lists of answers are the model's form of them (log 3, log 7). -/
def Obligations.HostAndSourceTurns : Prop :=
  ∀ (s : State) (turns : List Turn),
    (∀ bytes : List Byte, s.agenda = .host (.offer bytes) :: turns →
      step s = .next { s with
        host := { s.host with port := s.host.port ++ bytes }, agenda := turns }) ∧
    (s.agenda = .host .take :: turns → s.rspV = false → step s = .next { s with agenda := turns }) ∧
    (∀ r : ReadAnswer, s.agenda = .source (.answer r) :: turns →
      step s = .next { s with
        src := { s.src with answers := s.src.answers ++ [r] }, agenda := turns }) ∧
    (∀ n : Nat, s.agenda = .source (.ready n) :: turns →
      step s = .next { s with
        src := { s.src with readies := s.src.readies ++ [n] }, agenda := turns })

/-- A host that issues a command gets no answer from a block that is not ready, and so neither from `POLL`
nor from `READ_PACKET` (70_reset_and_hazards.md rule R212, 20_memory.md rule R59); from a ready block it
gets the response the command ended with, which is thereby taken (R58), and none while the command is held.
That waiting for ever is `none` is the model's form of it (log 23), and that the call's command goes before
what is on the port and before the turns to come is its choice (log 28). -/
def Obligations.HostCallNeedsReadyBlock : Prop :=
  ∀ (i : Instr) (s : State),
    (¬Ready s → hostCall i s = none ∧ ∀ n : Nat, poll n s = none ∧ readPacket n s = none) ∧
    (∀ t : State, Ready s → exec i s = .next t →
      (t.rspV = false → hostCall i s = none) ∧
      (t.rspV = true → hostCall i s = some (t.rsp,
        { t with rspV := false, host := { t.host with taken := t.host.taken ++ [t.rsp] } })))

/-- The end of a run stays the end of the run: the host offers nothing further, so no step takes a command,
produces a response or hands one over, and the block waits (70_reset_and_hazards.md rule R215). That bytes
of an incomplete command count as an offer is the model's choice (log 27). -/
def Obligations.RunEndedIsKept : Prop :=
  ∀ s t : State, RunEnded s → step s = .next t →
    RunEnded t ∧ t.host = s.host ∧ t.cfg = s.cfg ∧ t.src.cursor = s.src.cursor ∧
    ∀ n : Nat, blockTurns n t = .next t
end

