-- ==== Sys2Proof/Laws/Decode.lean ====
section
/-! SUPPORT. Lemmas about the decoder and the encoder. -/

namespace Sys2Proof

theorem splitCommand_cons (op arg len : Byte) (data rest : List Byte)
    (h : data.length = len.toNat) :
    splitCommand (op :: arg :: len :: (data ++ rest)) = some (⟨op, arg, len, data⟩, rest) := by
  simp [splitCommand, ← h]

/-- What a whole command is split from. -/
theorem splitCommand_eq_some {bytes rest : List Byte} {c : Command}
    (h : splitCommand bytes = some (c, rest)) :
    bytes = c.op :: c.arg :: c.len :: (c.data ++ rest) ∧ c.WellFormed := by
  match bytes with
  | [] => simp [splitCommand] at h
  | [_] => simp [splitCommand] at h
  | [_, _] => simp [splitCommand] at h
  | op :: arg :: len :: tl =>
    simp only [splitCommand] at h
    split at h
    · cases h
      have hle := ‹len.toNat ≤ tl.length›
      exact ⟨by simp, by simpa [Command.WellFormed] using hle⟩
    · cases h

theorem lenByte_toNat {data : List Byte} (h : data.length ≤ 255) :
    (lenByte data).toNat = data.length := by
  simp [lenByte]
  omega

theorem ofNat_length {data : List Byte} {len : Byte} (h : data.length = len.toNat) :
    lenByte data = len := by
  simp [lenByte, h]

theorem command_wellFormed {i : Instr} (h : i.WellFormed) : i.command.WellFormed := by
  cases i <;> first
    | rfl
    | exact (lenByte_toNat h).symm

@[simp] theorem command_data (i : Instr) : i.command.data = i.data := by
  cases i <;> rfl

theorem kindOfCode_eq_some {c : BitVec 3} {k : Kind} : kindOfCode c = some k ↔ c = k.code := by
  revert c
  cases k <;> decide

/-- A descriptor byte is legal with kind `k` exactly when it is the descriptor of `k`. -/
theorem descriptorKind_eq_some {b : Byte} {k : Kind} :
    descriptorKind b = some k ↔ b = k.descriptor := by
  revert b
  cases k <;> decide

/-- The six legal descriptor bytes. -/
theorem descriptorKind_codes :
    descriptorKind 0#8 = some .u8 ∧ descriptorKind 1#8 = some .u16 ∧ descriptorKind 2#8 = some .u32 ∧
      descriptorKind 3#8 = some .i16 ∧ descriptorKind 4#8 = some .i32 ∧ descriptorKind 5#8 = some .f32 := by
  decide

/-- The form an instruction's header is classified as. -/
def Instr.form : Instr → Form
  | .tryReadFrame => .tryReadFrame
  | .decodeRecord _ _ => .decodeRecord
  | .checksum _ => .checksum
  | .cvtU8 _ => .cvt .u8
  | .cvtU16 _ => .cvt .u16
  | .cvtU32 _ => .cvt .u32
  | .cvtI16 _ => .cvt .i16
  | .cvtI32 _ => .cvt .i32
  | .cvtF32 _ => .cvt .f32

@[simp] theorem classify_command (i : Instr) :
    classify i.command.op i.command.arg i.command.len = .ok i.form := by
  cases i <;> first
    | rfl
    | simp [Instr.command, Instr.form, classify, descriptorKind_codes]

@[simp] theorem form_instr (i : Instr) : i.form.instr i.command.arg i.data = i := by
  cases i <;> rfl

theorem decodeCommand_command (i : Instr) : decodeCommand i.command = .ok i := by
  simp [decodeCommand]

@[simp] theorem descriptorKind_descriptor (k : Kind) : descriptorKind k.descriptor = some k :=
  descriptorKind_eq_some.2 rfl

theorem classify_eq_ok {op arg len : Byte} {f : Form} (h : classify op arg len = .ok f) :
    match f with
    | .tryReadFrame => op = 1 ∧ arg = 0 ∧ len = 0
    | .decodeRecord => op = 2
    | .checksum => op = 3 ∧ arg = 0
    | .cvt k => op = 4 ∧ arg = k.descriptor := by
  unfold classify at h
  split at h <;> rename_i hop
  · have : op = 1 := BitVec.eq_of_toNat_eq hop
    split at h
    · cases h
    · split at h <;> cases h
      simp_all
  · cases h
    exact BitVec.eq_of_toNat_eq hop
  · split at h <;> cases h
    exact ⟨BitVec.eq_of_toNat_eq hop, not_not.1 ‹_›⟩
  · split at h <;> cases h
    exact ⟨BitVec.eq_of_toNat_eq hop, descriptorKind_eq_some.1 ‹_›⟩
  · cases h

/-- The command an instruction was decoded from is its own. -/
theorem decodeCommand_eq_ok {c : Command} {i : Instr} (hw : c.WellFormed)
    (h : decodeCommand c = .ok i) : i.command = c ∧ i.WellFormed := by
  obtain ⟨op, arg, len, data⟩ := c
  simp only [Command.WellFormed] at hw
  have hlen : lenByte data = len := ofNat_length hw
  have hle : data.length ≤ 255 := by
    have := len.isLt
    omega
  unfold decodeCommand at h
  split at h
  · rename_i f hf
    cases h
    have := classify_eq_ok hf
    cases f <;> simp only at this
    · obtain ⟨rfl, rfl, rfl⟩ := this
      obtain rfl : data = [] := List.eq_nil_of_length_eq_zero (by simpa using hw)
      exact ⟨rfl, by simp [Instr.WellFormed, Form.instr, Instr.data]⟩
    · subst this
      exact ⟨by simp [Form.instr, Instr.command, hlen], hle⟩
    · obtain ⟨rfl, rfl⟩ := this
      exact ⟨by simp [Form.instr, Instr.command, hlen], hle⟩
    · rename_i k
      obtain ⟨rfl, rfl⟩ := this
      cases k <;> exact ⟨by simp [Form.instr, Instr.command, hlen]; rfl, hle⟩
  · cases h

/-- What the decoder answers an instruction for. -/
theorem decode_eq_ok {bytes rest : List Byte} {i : Instr} (h : decode bytes = .ok (i, rest)) :
    ∃ c, splitCommand bytes = some (c, rest) ∧ decodeCommand c = .ok i := by
  unfold decode at h
  split at h
  · cases h
  · split at h <;> cases h
    exact ⟨_, ‹_›, ‹_›⟩

end Sys2Proof
end

