-- ==== Sys2Proof/Laws/Source.lean ====
section
/-! SUPPORT. What a read of the byte source can answer (20_memory.md rules R50 to R54). -/

namespace Sys2Proof.Machine

theorem srcRead_of_exhausted {s : State} (h : ¬Answering s) : srcRead s = .eos s := by
  rw [srcRead, if_pos (not_not.1 h)]

theorem srcRead_of_nil {s : State} (h : Answering s) (ha : s.src.answers = []) :
    srcRead s = .unanswered := by
  rw [srcRead, if_neg h, ha]

theorem srcRead_of_eos {s : State} {rest : List ReadAnswer} (h : Answering s)
    (ha : s.src.answers = .eos :: rest) : srcRead s = .eos (readEos rest s) := by
  rw [srcRead, if_neg h, ha]

theorem srcRead_of_byte {s : State} {b : Byte} {rest : List ReadAnswer} (h : Answering s)
    (ha : s.src.answers = .byte b :: rest) : srcRead s = .byte b (readOne rest s) := by
  rw [srcRead, if_neg h, ha]

/-- Every read answers nothing, `EOS` or a byte, and this is all it does. -/
theorem srcRead_cases (s : State) :
    (Answering s ∧ s.src.answers = [] ∧ srcRead s = .unanswered) ∨
    (¬Answering s ∧ srcRead s = .eos s) ∨
    (∃ rest, Answering s ∧ s.src.answers = .eos :: rest ∧ srcRead s = .eos (readEos rest s)) ∨
    (∃ b rest, Answering s ∧ s.src.answers = .byte b :: rest ∧
      srcRead s = .byte b (readOne rest s)) := by
  by_cases h : Answering s
  · match ha : s.src.answers with
    | [] => exact .inl ⟨h, rfl, srcRead_of_nil h ha⟩
    | .eos :: rest => exact .inr (.inr (.inl ⟨rest, h, rfl, srcRead_of_eos h ha⟩))
    | .byte b :: rest => exact .inr (.inr (.inr ⟨b, rest, h, rfl, srcRead_of_byte h ha⟩))
  · exact .inr (.inl ⟨h, srcRead_of_exhausted h⟩)

theorem srcRead_eq_byte {s t : State} {b : Byte} (h : srcRead s = .byte b t) :
    ∃ rest, Answering s ∧ s.src.answers = .byte b :: rest ∧ t = readOne rest s := by
  obtain ⟨_, _, e⟩ | ⟨_, e⟩ | ⟨_, _, _, e⟩ | ⟨b', rest, ha, hl, e⟩ := srcRead_cases s <;>
    rw [e] at h <;> cases h
  exact ⟨rest, ha, hl, rfl⟩

theorem srcRead_eq_eos {s t : State} (h : srcRead s = .eos t) :
    (¬Answering s ∧ t = s) ∨
      ∃ rest, Answering s ∧ s.src.answers = .eos :: rest ∧ t = readEos rest s := by
  obtain ⟨_, _, e⟩ | ⟨hn, e⟩ | ⟨rest, ha, hl, e⟩ | ⟨_, _, _, _, e⟩ := srcRead_cases s <;>
    rw [e] at h <;> cases h
  · exact .inl ⟨hn, rfl⟩
  · exact .inr ⟨rest, ha, hl, rfl⟩

theorem srcRead_eq_unanswered {s : State} (h : srcRead s = .unanswered) :
    Answering s ∧ s.src.answers = [] := by
  obtain ⟨ha, hl, _⟩ | ⟨_, e⟩ | ⟨_, _, _, e⟩ | ⟨_, _, _, _, e⟩ := srcRead_cases s
  · exact ⟨ha, hl⟩
  all_goals rw [e] at h; cases h

end Sys2Proof.Machine
end

