-- ==== Sys2Proof/Laws/State.lean ====
section
/-! SUPPORT. One lemma per field per update of the state. -/

namespace Sys2Proof.Machine

/-! `goto`: 00_scope.md rule R11. -/

section
variable (p : Phase) (s : State)

@[simp] theorem goto_phase : (goto p s).phase = p := rfl
@[simp] theorem goto_cmdOp : (goto p s).cmdOp = s.cmdOp := rfl
@[simp] theorem goto_cmdArg : (goto p s).cmdArg = s.cmdArg := rfl
@[simp] theorem goto_cmdLen : (goto p s).cmdLen = s.cmdLen := rfl
@[simp] theorem goto_tag : (goto p s).tag = s.tag := rfl
@[simp] theorem goto_tagV : (goto p s).tagV = s.tagV := rfl
@[simp] theorem goto_rxA : (goto p s).rxA = s.rxA := rfl
@[simp] theorem goto_rxB : (goto p s).rxB = s.rxB := rfl
@[simp] theorem goto_specLen : (goto p s).specLen = s.specLen := rfl
@[simp] theorem goto_idx : (goto p s).idx = s.idx := rfl
@[simp] theorem goto_pbuf : (goto p s).pbuf = s.pbuf := rfl
@[simp] theorem goto_accA : (goto p s).accA = s.accA := rfl
@[simp] theorem goto_accB : (goto p s).accB = s.accB := rfl
@[simp] theorem goto_consumed : (goto p s).consumed = s.consumed := rfl
@[simp] theorem goto_rsp : (goto p s).rsp = s.rsp := rfl
@[simp] theorem goto_rspV : (goto p s).rspV = s.rspV := rfl
@[simp] theorem goto_cfg : (goto p s).cfg = s.cfg := rfl
@[simp] theorem goto_src : (goto p s).src = s.src := rfl
@[simp] theorem goto_host : (goto p s).host = s.host := rfl
@[simp] theorem goto_agenda : (goto p s).agenda = s.agenda := rfl

end

/-! `latchTag`: 41_frame_reader.md rule R123. -/

section
variable (t : Byte) (s : State)

@[simp] theorem latchTag_phase : (latchTag t s).phase = s.phase := rfl
@[simp] theorem latchTag_cmdOp : (latchTag t s).cmdOp = s.cmdOp := rfl
@[simp] theorem latchTag_cmdArg : (latchTag t s).cmdArg = s.cmdArg := rfl
@[simp] theorem latchTag_cmdLen : (latchTag t s).cmdLen = s.cmdLen := rfl
@[simp] theorem latchTag_tag : (latchTag t s).tag = t := rfl
@[simp] theorem latchTag_tagV : (latchTag t s).tagV = true := rfl
@[simp] theorem latchTag_rxA : (latchTag t s).rxA = s.rxA := rfl
@[simp] theorem latchTag_rxB : (latchTag t s).rxB = s.rxB := rfl
@[simp] theorem latchTag_specLen : (latchTag t s).specLen = s.specLen := rfl
@[simp] theorem latchTag_idx : (latchTag t s).idx = s.idx := rfl
@[simp] theorem latchTag_pbuf : (latchTag t s).pbuf = s.pbuf := rfl
@[simp] theorem latchTag_accA : (latchTag t s).accA = s.accA := rfl
@[simp] theorem latchTag_accB : (latchTag t s).accB = s.accB := rfl
@[simp] theorem latchTag_consumed : (latchTag t s).consumed = s.consumed := rfl
@[simp] theorem latchTag_rsp : (latchTag t s).rsp = s.rsp := rfl
@[simp] theorem latchTag_rspV : (latchTag t s).rspV = s.rspV := rfl
@[simp] theorem latchTag_cfg : (latchTag t s).cfg = s.cfg := rfl
@[simp] theorem latchTag_src : (latchTag t s).src = s.src := rfl
@[simp] theorem latchTag_host : (latchTag t s).host = s.host := rfl
@[simp] theorem latchTag_agenda : (latchTag t s).agenda = s.agenda := rfl

end

/-! `latchSpecLen`: 41_frame_reader.md rule R120. -/

section
variable (spec : PacketSpec) (s : State)

@[simp] theorem latchSpecLen_phase : (latchSpecLen spec s).phase = s.phase := rfl
@[simp] theorem latchSpecLen_cmdOp : (latchSpecLen spec s).cmdOp = s.cmdOp := rfl
@[simp] theorem latchSpecLen_cmdArg : (latchSpecLen spec s).cmdArg = s.cmdArg := rfl
@[simp] theorem latchSpecLen_cmdLen : (latchSpecLen spec s).cmdLen = s.cmdLen := rfl
@[simp] theorem latchSpecLen_tag : (latchSpecLen spec s).tag = s.tag := rfl
@[simp] theorem latchSpecLen_tagV : (latchSpecLen spec s).tagV = s.tagV := rfl
@[simp] theorem latchSpecLen_rxA : (latchSpecLen spec s).rxA = s.rxA := rfl
@[simp] theorem latchSpecLen_rxB : (latchSpecLen spec s).rxB = s.rxB := rfl
@[simp] theorem latchSpecLen_specLen : (latchSpecLen spec s).specLen = spec.payloadLength := rfl
@[simp] theorem latchSpecLen_idx : (latchSpecLen spec s).idx = s.idx := rfl
@[simp] theorem latchSpecLen_pbuf : (latchSpecLen spec s).pbuf = s.pbuf := rfl
@[simp] theorem latchSpecLen_accA : (latchSpecLen spec s).accA = s.accA := rfl
@[simp] theorem latchSpecLen_accB : (latchSpecLen spec s).accB = s.accB := rfl
@[simp] theorem latchSpecLen_consumed : (latchSpecLen spec s).consumed = s.consumed := rfl
@[simp] theorem latchSpecLen_rsp : (latchSpecLen spec s).rsp = s.rsp := rfl
@[simp] theorem latchSpecLen_rspV : (latchSpecLen spec s).rspV = s.rspV := rfl
@[simp] theorem latchSpecLen_cfg : (latchSpecLen spec s).cfg = s.cfg := rfl
@[simp] theorem latchSpecLen_src : (latchSpecLen spec s).src = s.src := rfl
@[simp] theorem latchSpecLen_host : (latchSpecLen spec s).host = s.host := rfl
@[simp] theorem latchSpecLen_agenda : (latchSpecLen spec s).agenda = s.agenda := rfl

end

/-! `latchRxA`: 41_frame_reader.md rule R125. -/

section
variable (x : Byte) (s : State)

@[simp] theorem latchRxA_phase : (latchRxA x s).phase = s.phase := rfl
@[simp] theorem latchRxA_cmdOp : (latchRxA x s).cmdOp = s.cmdOp := rfl
@[simp] theorem latchRxA_cmdArg : (latchRxA x s).cmdArg = s.cmdArg := rfl
@[simp] theorem latchRxA_cmdLen : (latchRxA x s).cmdLen = s.cmdLen := rfl
@[simp] theorem latchRxA_tag : (latchRxA x s).tag = s.tag := rfl
@[simp] theorem latchRxA_tagV : (latchRxA x s).tagV = s.tagV := rfl
@[simp] theorem latchRxA_rxA : (latchRxA x s).rxA = x := rfl
@[simp] theorem latchRxA_rxB : (latchRxA x s).rxB = s.rxB := rfl
@[simp] theorem latchRxA_specLen : (latchRxA x s).specLen = s.specLen := rfl
@[simp] theorem latchRxA_idx : (latchRxA x s).idx = s.idx := rfl
@[simp] theorem latchRxA_pbuf : (latchRxA x s).pbuf = s.pbuf := rfl
@[simp] theorem latchRxA_accA : (latchRxA x s).accA = s.accA := rfl
@[simp] theorem latchRxA_accB : (latchRxA x s).accB = s.accB := rfl
@[simp] theorem latchRxA_consumed : (latchRxA x s).consumed = s.consumed := rfl
@[simp] theorem latchRxA_rsp : (latchRxA x s).rsp = s.rsp := rfl
@[simp] theorem latchRxA_rspV : (latchRxA x s).rspV = s.rspV := rfl
@[simp] theorem latchRxA_cfg : (latchRxA x s).cfg = s.cfg := rfl
@[simp] theorem latchRxA_src : (latchRxA x s).src = s.src := rfl
@[simp] theorem latchRxA_host : (latchRxA x s).host = s.host := rfl
@[simp] theorem latchRxA_agenda : (latchRxA x s).agenda = s.agenda := rfl

end

/-! `latchRxB`: 41_frame_reader.md rule R125. -/

section
variable (x : Byte) (s : State)

@[simp] theorem latchRxB_phase : (latchRxB x s).phase = s.phase := rfl
@[simp] theorem latchRxB_cmdOp : (latchRxB x s).cmdOp = s.cmdOp := rfl
@[simp] theorem latchRxB_cmdArg : (latchRxB x s).cmdArg = s.cmdArg := rfl
@[simp] theorem latchRxB_cmdLen : (latchRxB x s).cmdLen = s.cmdLen := rfl
@[simp] theorem latchRxB_tag : (latchRxB x s).tag = s.tag := rfl
@[simp] theorem latchRxB_tagV : (latchRxB x s).tagV = s.tagV := rfl
@[simp] theorem latchRxB_rxA : (latchRxB x s).rxA = s.rxA := rfl
@[simp] theorem latchRxB_rxB : (latchRxB x s).rxB = x := rfl
@[simp] theorem latchRxB_specLen : (latchRxB x s).specLen = s.specLen := rfl
@[simp] theorem latchRxB_idx : (latchRxB x s).idx = s.idx := rfl
@[simp] theorem latchRxB_pbuf : (latchRxB x s).pbuf = s.pbuf := rfl
@[simp] theorem latchRxB_accA : (latchRxB x s).accA = s.accA := rfl
@[simp] theorem latchRxB_accB : (latchRxB x s).accB = s.accB := rfl
@[simp] theorem latchRxB_consumed : (latchRxB x s).consumed = s.consumed := rfl
@[simp] theorem latchRxB_rsp : (latchRxB x s).rsp = s.rsp := rfl
@[simp] theorem latchRxB_rspV : (latchRxB x s).rspV = s.rspV := rfl
@[simp] theorem latchRxB_cfg : (latchRxB x s).cfg = s.cfg := rfl
@[simp] theorem latchRxB_src : (latchRxB x s).src = s.src := rfl
@[simp] theorem latchRxB_host : (latchRxB x s).host = s.host := rfl
@[simp] theorem latchRxB_agenda : (latchRxB x s).agenda = s.agenda := rfl

end

/-! `latchAcc`: 40_checksum.md rule R111. -/

section
variable (acc : Byte × Byte) (s : State)

@[simp] theorem latchAcc_phase : (latchAcc acc s).phase = s.phase := rfl
@[simp] theorem latchAcc_cmdOp : (latchAcc acc s).cmdOp = s.cmdOp := rfl
@[simp] theorem latchAcc_cmdArg : (latchAcc acc s).cmdArg = s.cmdArg := rfl
@[simp] theorem latchAcc_cmdLen : (latchAcc acc s).cmdLen = s.cmdLen := rfl
@[simp] theorem latchAcc_tag : (latchAcc acc s).tag = s.tag := rfl
@[simp] theorem latchAcc_tagV : (latchAcc acc s).tagV = s.tagV := rfl
@[simp] theorem latchAcc_rxA : (latchAcc acc s).rxA = s.rxA := rfl
@[simp] theorem latchAcc_rxB : (latchAcc acc s).rxB = s.rxB := rfl
@[simp] theorem latchAcc_specLen : (latchAcc acc s).specLen = s.specLen := rfl
@[simp] theorem latchAcc_idx : (latchAcc acc s).idx = s.idx := rfl
@[simp] theorem latchAcc_pbuf : (latchAcc acc s).pbuf = s.pbuf := rfl
@[simp] theorem latchAcc_accA : (latchAcc acc s).accA = acc.1 := rfl
@[simp] theorem latchAcc_accB : (latchAcc acc s).accB = acc.2 := rfl
@[simp] theorem latchAcc_consumed : (latchAcc acc s).consumed = s.consumed := rfl
@[simp] theorem latchAcc_rsp : (latchAcc acc s).rsp = s.rsp := rfl
@[simp] theorem latchAcc_rspV : (latchAcc acc s).rspV = s.rspV := rfl
@[simp] theorem latchAcc_cfg : (latchAcc acc s).cfg = s.cfg := rfl
@[simp] theorem latchAcc_src : (latchAcc acc s).src = s.src := rfl
@[simp] theorem latchAcc_host : (latchAcc acc s).host = s.host := rfl
@[simp] theorem latchAcc_agenda : (latchAcc acc s).agenda = s.agenda := rfl

end

/-! `readOne`: 20_memory.md rule R51. -/

section
variable (rest : List ReadAnswer) (s : State)

@[simp] theorem readOne_phase : (readOne rest s).phase = s.phase := rfl
@[simp] theorem readOne_cmdOp : (readOne rest s).cmdOp = s.cmdOp := rfl
@[simp] theorem readOne_cmdArg : (readOne rest s).cmdArg = s.cmdArg := rfl
@[simp] theorem readOne_cmdLen : (readOne rest s).cmdLen = s.cmdLen := rfl
@[simp] theorem readOne_tag : (readOne rest s).tag = s.tag := rfl
@[simp] theorem readOne_tagV : (readOne rest s).tagV = s.tagV := rfl
@[simp] theorem readOne_rxA : (readOne rest s).rxA = s.rxA := rfl
@[simp] theorem readOne_rxB : (readOne rest s).rxB = s.rxB := rfl
@[simp] theorem readOne_specLen : (readOne rest s).specLen = s.specLen := rfl
@[simp] theorem readOne_idx : (readOne rest s).idx = s.idx := rfl
@[simp] theorem readOne_pbuf : (readOne rest s).pbuf = s.pbuf := rfl
@[simp] theorem readOne_accA : (readOne rest s).accA = s.accA := rfl
@[simp] theorem readOne_accB : (readOne rest s).accB = s.accB := rfl
@[simp] theorem readOne_consumed : (readOne rest s).consumed = s.consumed + 1 := rfl
@[simp] theorem readOne_rsp : (readOne rest s).rsp = s.rsp := rfl
@[simp] theorem readOne_rspV : (readOne rest s).rspV = s.rspV := rfl
@[simp] theorem readOne_cfg : (readOne rest s).cfg = s.cfg := rfl
@[simp] theorem readOne_src :
    (readOne rest s).src = { s.src with cursor := s.src.cursor + 1, answers := rest } := rfl
@[simp] theorem readOne_host : (readOne rest s).host = s.host := rfl
@[simp] theorem readOne_agenda : (readOne rest s).agenda = s.agenda := rfl

end

/-! `readEos`: 20_memory.md rule R51. -/

section
variable (rest : List ReadAnswer) (s : State)

@[simp] theorem readEos_phase : (readEos rest s).phase = s.phase := rfl
@[simp] theorem readEos_cmdOp : (readEos rest s).cmdOp = s.cmdOp := rfl
@[simp] theorem readEos_cmdArg : (readEos rest s).cmdArg = s.cmdArg := rfl
@[simp] theorem readEos_cmdLen : (readEos rest s).cmdLen = s.cmdLen := rfl
@[simp] theorem readEos_tag : (readEos rest s).tag = s.tag := rfl
@[simp] theorem readEos_tagV : (readEos rest s).tagV = s.tagV := rfl
@[simp] theorem readEos_rxA : (readEos rest s).rxA = s.rxA := rfl
@[simp] theorem readEos_rxB : (readEos rest s).rxB = s.rxB := rfl
@[simp] theorem readEos_specLen : (readEos rest s).specLen = s.specLen := rfl
@[simp] theorem readEos_idx : (readEos rest s).idx = s.idx := rfl
@[simp] theorem readEos_pbuf : (readEos rest s).pbuf = s.pbuf := rfl
@[simp] theorem readEos_accA : (readEos rest s).accA = s.accA := rfl
@[simp] theorem readEos_accB : (readEos rest s).accB = s.accB := rfl
@[simp] theorem readEos_consumed : (readEos rest s).consumed = s.consumed := rfl
@[simp] theorem readEos_rsp : (readEos rest s).rsp = s.rsp := rfl
@[simp] theorem readEos_rspV : (readEos rest s).rspV = s.rspV := rfl
@[simp] theorem readEos_cfg : (readEos rest s).cfg = s.cfg := rfl
@[simp] theorem readEos_src :
    (readEos rest s).src = { s.src with exhausted := true, answers := rest } := rfl
@[simp] theorem readEos_host : (readEos rest s).host = s.host := rfl
@[simp] theorem readEos_agenda : (readEos rest s).agenda = s.agenda := rfl

end

/-! `readReady`: 20_memory.md rule R52. -/

section
variable (rest : List Nat) (s : State)

@[simp] theorem readReady_phase : (readReady rest s).phase = s.phase := rfl
@[simp] theorem readReady_cmdOp : (readReady rest s).cmdOp = s.cmdOp := rfl
@[simp] theorem readReady_cmdArg : (readReady rest s).cmdArg = s.cmdArg := rfl
@[simp] theorem readReady_cmdLen : (readReady rest s).cmdLen = s.cmdLen := rfl
@[simp] theorem readReady_tag : (readReady rest s).tag = s.tag := rfl
@[simp] theorem readReady_tagV : (readReady rest s).tagV = s.tagV := rfl
@[simp] theorem readReady_rxA : (readReady rest s).rxA = s.rxA := rfl
@[simp] theorem readReady_rxB : (readReady rest s).rxB = s.rxB := rfl
@[simp] theorem readReady_specLen : (readReady rest s).specLen = s.specLen := rfl
@[simp] theorem readReady_idx : (readReady rest s).idx = s.idx := rfl
@[simp] theorem readReady_pbuf : (readReady rest s).pbuf = s.pbuf := rfl
@[simp] theorem readReady_accA : (readReady rest s).accA = s.accA := rfl
@[simp] theorem readReady_accB : (readReady rest s).accB = s.accB := rfl
@[simp] theorem readReady_consumed : (readReady rest s).consumed = s.consumed := rfl
@[simp] theorem readReady_rsp : (readReady rest s).rsp = s.rsp := rfl
@[simp] theorem readReady_rspV : (readReady rest s).rspV = s.rspV := rfl
@[simp] theorem readReady_cfg : (readReady rest s).cfg = s.cfg := rfl
@[simp] theorem readReady_src : (readReady rest s).src = { s.src with readies := rest } := rfl
@[simp] theorem readReady_host : (readReady rest s).host = s.host := rfl
@[simp] theorem readReady_agenda : (readReady rest s).agenda = s.agenda := rfl

end

/-! `setPort` (log 7). -/

section
variable (bytes : List Byte) (s : State)

@[simp] theorem setPort_phase : (setPort bytes s).phase = s.phase := rfl
@[simp] theorem setPort_cmdOp : (setPort bytes s).cmdOp = s.cmdOp := rfl
@[simp] theorem setPort_cmdArg : (setPort bytes s).cmdArg = s.cmdArg := rfl
@[simp] theorem setPort_cmdLen : (setPort bytes s).cmdLen = s.cmdLen := rfl
@[simp] theorem setPort_tag : (setPort bytes s).tag = s.tag := rfl
@[simp] theorem setPort_tagV : (setPort bytes s).tagV = s.tagV := rfl
@[simp] theorem setPort_rxA : (setPort bytes s).rxA = s.rxA := rfl
@[simp] theorem setPort_rxB : (setPort bytes s).rxB = s.rxB := rfl
@[simp] theorem setPort_specLen : (setPort bytes s).specLen = s.specLen := rfl
@[simp] theorem setPort_idx : (setPort bytes s).idx = s.idx := rfl
@[simp] theorem setPort_pbuf : (setPort bytes s).pbuf = s.pbuf := rfl
@[simp] theorem setPort_accA : (setPort bytes s).accA = s.accA := rfl
@[simp] theorem setPort_accB : (setPort bytes s).accB = s.accB := rfl
@[simp] theorem setPort_consumed : (setPort bytes s).consumed = s.consumed := rfl
@[simp] theorem setPort_rsp : (setPort bytes s).rsp = s.rsp := rfl
@[simp] theorem setPort_rspV : (setPort bytes s).rspV = s.rspV := rfl
@[simp] theorem setPort_cfg : (setPort bytes s).cfg = s.cfg := rfl
@[simp] theorem setPort_src : (setPort bytes s).src = s.src := rfl
@[simp] theorem setPort_host : (setPort bytes s).host = { s.host with port := bytes } := rfl
@[simp] theorem setPort_agenda : (setPort bytes s).agenda = s.agenda := rfl

end

/-! `setAgenda` (log 5). -/

section
variable (turns : List Turn) (s : State)

@[simp] theorem setAgenda_phase : (setAgenda turns s).phase = s.phase := rfl
@[simp] theorem setAgenda_cmdOp : (setAgenda turns s).cmdOp = s.cmdOp := rfl
@[simp] theorem setAgenda_cmdArg : (setAgenda turns s).cmdArg = s.cmdArg := rfl
@[simp] theorem setAgenda_cmdLen : (setAgenda turns s).cmdLen = s.cmdLen := rfl
@[simp] theorem setAgenda_tag : (setAgenda turns s).tag = s.tag := rfl
@[simp] theorem setAgenda_tagV : (setAgenda turns s).tagV = s.tagV := rfl
@[simp] theorem setAgenda_rxA : (setAgenda turns s).rxA = s.rxA := rfl
@[simp] theorem setAgenda_rxB : (setAgenda turns s).rxB = s.rxB := rfl
@[simp] theorem setAgenda_specLen : (setAgenda turns s).specLen = s.specLen := rfl
@[simp] theorem setAgenda_idx : (setAgenda turns s).idx = s.idx := rfl
@[simp] theorem setAgenda_pbuf : (setAgenda turns s).pbuf = s.pbuf := rfl
@[simp] theorem setAgenda_accA : (setAgenda turns s).accA = s.accA := rfl
@[simp] theorem setAgenda_accB : (setAgenda turns s).accB = s.accB := rfl
@[simp] theorem setAgenda_consumed : (setAgenda turns s).consumed = s.consumed := rfl
@[simp] theorem setAgenda_rsp : (setAgenda turns s).rsp = s.rsp := rfl
@[simp] theorem setAgenda_rspV : (setAgenda turns s).rspV = s.rspV := rfl
@[simp] theorem setAgenda_cfg : (setAgenda turns s).cfg = s.cfg := rfl
@[simp] theorem setAgenda_src : (setAgenda turns s).src = s.src := rfl
@[simp] theorem setAgenda_host : (setAgenda turns s).host = s.host := rfl
@[simp] theorem setAgenda_agenda : (setAgenda turns s).agenda = turns := rfl

end

/-! `deliver`: 20_memory.md rule R50. -/

section
variable (ys : List ReadAnswer) (zs : List Nat) (s : State)

@[simp] theorem deliver_phase : (deliver ys zs s).phase = s.phase := rfl
@[simp] theorem deliver_cmdOp : (deliver ys zs s).cmdOp = s.cmdOp := rfl
@[simp] theorem deliver_cmdArg : (deliver ys zs s).cmdArg = s.cmdArg := rfl
@[simp] theorem deliver_cmdLen : (deliver ys zs s).cmdLen = s.cmdLen := rfl
@[simp] theorem deliver_tag : (deliver ys zs s).tag = s.tag := rfl
@[simp] theorem deliver_tagV : (deliver ys zs s).tagV = s.tagV := rfl
@[simp] theorem deliver_rxA : (deliver ys zs s).rxA = s.rxA := rfl
@[simp] theorem deliver_rxB : (deliver ys zs s).rxB = s.rxB := rfl
@[simp] theorem deliver_specLen : (deliver ys zs s).specLen = s.specLen := rfl
@[simp] theorem deliver_idx : (deliver ys zs s).idx = s.idx := rfl
@[simp] theorem deliver_pbuf : (deliver ys zs s).pbuf = s.pbuf := rfl
@[simp] theorem deliver_accA : (deliver ys zs s).accA = s.accA := rfl
@[simp] theorem deliver_accB : (deliver ys zs s).accB = s.accB := rfl
@[simp] theorem deliver_consumed : (deliver ys zs s).consumed = s.consumed := rfl
@[simp] theorem deliver_rsp : (deliver ys zs s).rsp = s.rsp := rfl
@[simp] theorem deliver_rspV : (deliver ys zs s).rspV = s.rspV := rfl
@[simp] theorem deliver_cfg : (deliver ys zs s).cfg = s.cfg := rfl
@[simp] theorem deliver_src :
    (deliver ys zs s).src = { s.src with answers := s.src.answers ++ ys, readies := s.src.readies ++ zs } := rfl
@[simp] theorem deliver_host : (deliver ys zs s).host = s.host := rfl
@[simp] theorem deliver_agenda : (deliver ys zs s).agenda = s.agenda := rfl

end

/-! `raise`: 60_exceptions.md rule R180. -/

section
variable (o : OutcomeCode) (r : Response) (s : State)

@[simp] theorem raise_phase : (raise o r s).phase = .idle := rfl
@[simp] theorem raise_cmdOp : (raise o r s).cmdOp = s.cmdOp := rfl
@[simp] theorem raise_cmdArg : (raise o r s).cmdArg = s.cmdArg := rfl
@[simp] theorem raise_cmdLen : (raise o r s).cmdLen = s.cmdLen := rfl
@[simp] theorem raise_tag : (raise o r s).tag = s.tag := rfl
@[simp] theorem raise_tagV : (raise o r s).tagV = s.tagV := rfl
@[simp] theorem raise_rxA : (raise o r s).rxA = s.rxA := rfl
@[simp] theorem raise_rxB : (raise o r s).rxB = s.rxB := rfl
@[simp] theorem raise_specLen : (raise o r s).specLen = s.specLen := rfl
@[simp] theorem raise_idx : (raise o r s).idx = s.idx := rfl
@[simp] theorem raise_pbuf : (raise o r s).pbuf = s.pbuf := rfl
@[simp] theorem raise_accA : (raise o r s).accA = s.accA := rfl
@[simp] theorem raise_accB : (raise o r s).accB = s.accB := rfl
@[simp] theorem raise_consumed : (raise o r s).consumed = s.consumed := rfl
@[simp] theorem raise_rsp :
    (raise o r s).rsp = { r with outcome := o, consumed := s.consumed } := rfl
@[simp] theorem raise_rspV : (raise o r s).rspV = true := rfl
@[simp] theorem raise_cfg : (raise o r s).cfg = s.cfg := rfl
@[simp] theorem raise_src : (raise o r s).src = s.src := rfl
@[simp] theorem raise_host : (raise o r s).host = s.host := rfl
@[simp] theorem raise_agenda : (raise o r s).agenda = s.agenda := rfl

end

/-! `accept`: 20_memory.md rule R59, 10_state.md rule R36. -/

section
variable (c : Command) (s : State)

@[simp] theorem accept_phase : (accept c s).phase = firstPhase c := rfl
@[simp] theorem accept_cmdOp : (accept c s).cmdOp = c.op := rfl
@[simp] theorem accept_cmdArg : (accept c s).cmdArg = c.arg := rfl
@[simp] theorem accept_cmdLen : (accept c s).cmdLen = c.len := rfl
@[simp] theorem accept_tag : (accept c s).tag = 0 := rfl
@[simp] theorem accept_tagV : (accept c s).tagV = false := rfl
@[simp] theorem accept_rxA : (accept c s).rxA = 0 := rfl
@[simp] theorem accept_rxB : (accept c s).rxB = 0 := rfl
@[simp] theorem accept_specLen : (accept c s).specLen = 0 := rfl
@[simp] theorem accept_idx : (accept c s).idx = 0 := rfl
@[simp] theorem accept_pbuf :
    (accept c s).pbuf = Memory.writeAll 0 (c.data.take c.len.toNat) s.pbuf := rfl
@[simp] theorem accept_accA : (accept c s).accA = 0 := rfl
@[simp] theorem accept_accB : (accept c s).accB = 0 := rfl
@[simp] theorem accept_consumed : (accept c s).consumed = 0 := rfl
@[simp] theorem accept_rsp : (accept c s).rsp = .cleared := rfl
@[simp] theorem accept_rspV : (accept c s).rspV = s.rspV := rfl
@[simp] theorem accept_cfg : (accept c s).cfg = s.cfg := rfl
@[simp] theorem accept_src : (accept c s).src = s.src := rfl
@[simp] theorem accept_host : (accept c s).host = s.host := rfl
@[simp] theorem accept_agenda : (accept c s).agenda = s.agenda := rfl

end

/-! `resetBlock`: 70_reset_and_hazards.md rules R200 to R202. -/

section
variable (s : State)

@[simp] theorem resetBlock_phase : (resetBlock s).phase = .idle := rfl
@[simp] theorem resetBlock_cmdOp : (resetBlock s).cmdOp = 0 := rfl
@[simp] theorem resetBlock_cmdArg : (resetBlock s).cmdArg = 0 := rfl
@[simp] theorem resetBlock_cmdLen : (resetBlock s).cmdLen = 0 := rfl
@[simp] theorem resetBlock_tag : (resetBlock s).tag = 0 := rfl
@[simp] theorem resetBlock_tagV : (resetBlock s).tagV = false := rfl
@[simp] theorem resetBlock_rxA : (resetBlock s).rxA = 0 := rfl
@[simp] theorem resetBlock_rxB : (resetBlock s).rxB = 0 := rfl
@[simp] theorem resetBlock_specLen : (resetBlock s).specLen = 0 := rfl
@[simp] theorem resetBlock_idx : (resetBlock s).idx = 0 := rfl
@[simp] theorem resetBlock_pbuf : (resetBlock s).pbuf = [] := rfl
@[simp] theorem resetBlock_accA : (resetBlock s).accA = 0 := rfl
@[simp] theorem resetBlock_accB : (resetBlock s).accB = 0 := rfl
@[simp] theorem resetBlock_consumed : (resetBlock s).consumed = 0 := rfl
@[simp] theorem resetBlock_rsp : (resetBlock s).rsp = .cleared := rfl
@[simp] theorem resetBlock_rspV : (resetBlock s).rspV = false := rfl
@[simp] theorem resetBlock_cfg : (resetBlock s).cfg = s.cfg := rfl
@[simp] theorem resetBlock_src : (resetBlock s).src = s.src := rfl
@[simp] theorem resetBlock_host : (resetBlock s).host = s.host := rfl
@[simp] theorem resetBlock_agenda : (resetBlock s).agenda = s.agenda := rfl

end

/-! `State.constructed`: 10_state.md rule R31, 70_reset_and_hazards.md rule R200. -/

section
variable (cfg : Cfg)

@[simp] theorem constructed_phase : (State.constructed cfg).phase = .idle := rfl
@[simp] theorem constructed_cmdOp : (State.constructed cfg).cmdOp = 0 := rfl
@[simp] theorem constructed_cmdArg : (State.constructed cfg).cmdArg = 0 := rfl
@[simp] theorem constructed_cmdLen : (State.constructed cfg).cmdLen = 0 := rfl
@[simp] theorem constructed_tag : (State.constructed cfg).tag = 0 := rfl
@[simp] theorem constructed_tagV : (State.constructed cfg).tagV = false := rfl
@[simp] theorem constructed_rxA : (State.constructed cfg).rxA = 0 := rfl
@[simp] theorem constructed_rxB : (State.constructed cfg).rxB = 0 := rfl
@[simp] theorem constructed_specLen : (State.constructed cfg).specLen = 0 := rfl
@[simp] theorem constructed_idx : (State.constructed cfg).idx = 0 := rfl
@[simp] theorem constructed_pbuf : (State.constructed cfg).pbuf = [] := rfl
@[simp] theorem constructed_accA : (State.constructed cfg).accA = 0 := rfl
@[simp] theorem constructed_accB : (State.constructed cfg).accB = 0 := rfl
@[simp] theorem constructed_consumed : (State.constructed cfg).consumed = 0 := rfl
@[simp] theorem constructed_rsp : (State.constructed cfg).rsp = .cleared := rfl
@[simp] theorem constructed_rspV : (State.constructed cfg).rspV = false := rfl
@[simp] theorem constructed_cfg : (State.constructed cfg).cfg = cfg := rfl
@[simp] theorem constructed_src : (State.constructed cfg).src = ⟨0, false, [], []⟩ := rfl
@[simp] theorem constructed_host : (State.constructed cfg).host = ⟨[], []⟩ := rfl
@[simp] theorem constructed_agenda : (State.constructed cfg).agenda = [] := rfl

end

/-! `takePayloadByte`: 41_frame_reader.md rule R126. -/

section
variable (x : Byte) (s : State)

@[simp] theorem takePayloadByte_phase : (takePayloadByte x s).phase = s.phase := rfl
@[simp] theorem takePayloadByte_cmdOp : (takePayloadByte x s).cmdOp = s.cmdOp := rfl
@[simp] theorem takePayloadByte_cmdArg : (takePayloadByte x s).cmdArg = s.cmdArg := rfl
@[simp] theorem takePayloadByte_cmdLen : (takePayloadByte x s).cmdLen = s.cmdLen := rfl
@[simp] theorem takePayloadByte_tag : (takePayloadByte x s).tag = s.tag := rfl
@[simp] theorem takePayloadByte_tagV : (takePayloadByte x s).tagV = s.tagV := rfl
@[simp] theorem takePayloadByte_rxA : (takePayloadByte x s).rxA = s.rxA := rfl
@[simp] theorem takePayloadByte_rxB : (takePayloadByte x s).rxB = s.rxB := rfl
@[simp] theorem takePayloadByte_specLen : (takePayloadByte x s).specLen = s.specLen := rfl
@[simp] theorem takePayloadByte_idx : (takePayloadByte x s).idx = s.idx + 1 := rfl
@[simp] theorem takePayloadByte_pbuf :
    (takePayloadByte x s).pbuf = Memory.write s.idx.toNat x s.pbuf := rfl
@[simp] theorem takePayloadByte_accA :
    (takePayloadByte x s).accA = (fletcherStep (s.accA, s.accB) x).1 := rfl
@[simp] theorem takePayloadByte_accB :
    (takePayloadByte x s).accB = (fletcherStep (s.accA, s.accB) x).2 := rfl
@[simp] theorem takePayloadByte_consumed : (takePayloadByte x s).consumed = s.consumed := rfl
@[simp] theorem takePayloadByte_rsp : (takePayloadByte x s).rsp = s.rsp := rfl
@[simp] theorem takePayloadByte_rspV : (takePayloadByte x s).rspV = s.rspV := rfl
@[simp] theorem takePayloadByte_cfg : (takePayloadByte x s).cfg = s.cfg := rfl
@[simp] theorem takePayloadByte_src : (takePayloadByte x s).src = s.src := rfl
@[simp] theorem takePayloadByte_host : (takePayloadByte x s).host = s.host := rfl
@[simp] theorem takePayloadByte_agenda : (takePayloadByte x s).agenda = s.agenda := rfl

end

/-! `truncated`: 41_frame_reader.md rules R125 and R126. -/

section
variable (s : State)

@[simp] theorem truncated_phase : (truncated s).phase = .idle := rfl
@[simp] theorem truncated_cmdOp : (truncated s).cmdOp = s.cmdOp := rfl
@[simp] theorem truncated_cmdArg : (truncated s).cmdArg = s.cmdArg := rfl
@[simp] theorem truncated_cmdLen : (truncated s).cmdLen = s.cmdLen := rfl
@[simp] theorem truncated_tag : (truncated s).tag = s.tag := rfl
@[simp] theorem truncated_tagV : (truncated s).tagV = s.tagV := rfl
@[simp] theorem truncated_rxA : (truncated s).rxA = s.rxA := rfl
@[simp] theorem truncated_rxB : (truncated s).rxB = s.rxB := rfl
@[simp] theorem truncated_specLen : (truncated s).specLen = s.specLen := rfl
@[simp] theorem truncated_idx : (truncated s).idx = s.idx := rfl
@[simp] theorem truncated_pbuf : (truncated s).pbuf = s.pbuf := rfl
@[simp] theorem truncated_accA : (truncated s).accA = s.accA := rfl
@[simp] theorem truncated_accB : (truncated s).accB = s.accB := rfl
@[simp] theorem truncated_consumed : (truncated s).consumed = s.consumed := rfl
@[simp] theorem truncated_rsp :
    (truncated s).rsp = { Response.cleared with
      outcome := .truncatedFrame, tagV := true, tag := s.tag, consumed := s.consumed } := rfl
@[simp] theorem truncated_rspV : (truncated s).rspV = true := rfl
@[simp] theorem truncated_cfg : (truncated s).cfg = s.cfg := rfl
@[simp] theorem truncated_src : (truncated s).src = s.src := rfl
@[simp] theorem truncated_host : (truncated s).host = s.host := rfl
@[simp] theorem truncated_agenda : (truncated s).agenda = s.agenda := rfl

end

/-! `withFetchWord` (log 15). -/

section
variable (s : State) (n w : Nat)

@[simp] theorem withFetchWord_phase : (s.withFetchWord n w).phase = .idle := rfl
@[simp] theorem withFetchWord_cmdOp : (s.withFetchWord n w).cmdOp = s.cmdOp := rfl
@[simp] theorem withFetchWord_cmdArg : (s.withFetchWord n w).cmdArg = s.cmdArg := rfl
@[simp] theorem withFetchWord_cmdLen : (s.withFetchWord n w).cmdLen = s.cmdLen := rfl
@[simp] theorem withFetchWord_tag : (s.withFetchWord n w).tag = s.tag := rfl
@[simp] theorem withFetchWord_tagV : (s.withFetchWord n w).tagV = s.tagV := rfl
@[simp] theorem withFetchWord_rxA : (s.withFetchWord n w).rxA = s.rxA := rfl
@[simp] theorem withFetchWord_rxB : (s.withFetchWord n w).rxB = s.rxB := rfl
@[simp] theorem withFetchWord_specLen : (s.withFetchWord n w).specLen = s.specLen := rfl
@[simp] theorem withFetchWord_idx : (s.withFetchWord n w).idx = s.idx := rfl
@[simp] theorem withFetchWord_pbuf : (s.withFetchWord n w).pbuf = s.pbuf := rfl
@[simp] theorem withFetchWord_accA : (s.withFetchWord n w).accA = s.accA := rfl
@[simp] theorem withFetchWord_accB : (s.withFetchWord n w).accB = s.accB := rfl
@[simp] theorem withFetchWord_consumed : (s.withFetchWord n w).consumed = s.consumed := rfl
@[simp] theorem withFetchWord_rsp : (s.withFetchWord n w).rsp = s.rsp := rfl
@[simp] theorem withFetchWord_rspV : (s.withFetchWord n w).rspV = false := rfl
@[simp] theorem withFetchWord_cfg : (s.withFetchWord n w).cfg = s.cfg := rfl
@[simp] theorem withFetchWord_src : (s.withFetchWord n w).src = s.src := rfl
@[simp] theorem withFetchWord_host :
    (s.withFetchWord n w).host = { s.host with port := tableCommand n w ++ s.host.port } := rfl
@[simp] theorem withFetchWord_agenda : (s.withFetchWord n w).agenda = [] := rfl

end

/-! `takeResponse`: 20_memory.md rule R58. -/

theorem takeResponse_pending (s : State) (h : s.rspV = true) :
    takeResponse s =
      { s with rspV := false, host := { s.host with taken := s.host.taken ++ [s.rsp] } } := by
  simp [takeResponse, h]

@[simp] theorem takeResponse_none (s : State) (h : s.rspV = false) : takeResponse s = s := by
  simp [takeResponse, h]

theorem canAccept_iff (s : State) : s.canAccept = true ↔ s.phase = .idle ∧ s.rspV = false := by
  simp [State.canAccept]

end Sys2Proof.Machine
end

