-- ==== Sys2Proof/Laws/Frame.lean ====
section
/-! SUPPORT. The frame reader: its transitions one by one, that every attempt ends or waits within
`frameFuel` transitions, and the payload loop (41_frame_reader.md rules R120 to R132). -/

namespace Sys2Proof.Machine

/-- How many transitions the frame reader can still make. -/
def rank (s : State) : Nat :=
  match s.phase with
  | .idle => 0
  | .exec => 0
  | .verify => 1
  | .readPayload => 2 + (s.specLen.toNat - s.idx.toNat)
  | .readCkB => 258
  | .readCkA => 259
  | .readTag => 260
  | .readSync => 261
  | .checkReady => 262

theorem rank_le (s : State) : rank s ≤ frameFuel := by
  have := s.specLen.isLt
  unfold rank frameFuel
  split <;> omega

/-- A transition out of a phase that waits for a byte. -/
theorem framePhase_of_waits {s : State} (h : framePhase s = .waits) :
    s.phase = .idle ∨ s.phase = .exec ∨
    (s.phase = .checkReady ∧ s.cfg.sourceKind = .streamed ∧ s.src.readies = []) ∨
    ((s.phase = .readSync ∨ s.phase = .readTag ∨ s.phase = .readCkA ∨ s.phase = .readCkB ∨
      (s.phase = .readPayload ∧ s.idx.toNat < s.specLen.toNat)) ∧
      Answering s ∧ s.src.answers = []) := by
  unfold framePhase at h
  split at h <;> rename_i hp
  · exact .inl hp
  · exact .inr (.inl hp)
  · unfold phaseCheckReady at h
    split at h
    · cases h
    · rename_i hk
      split at h
      · rename_i hr
        refine .inr (.inr (.inl ⟨hp, hk, ?_⟩))
        unfold srcReady at hr
        split at hr
        · assumption
        · cases hr
      · split at h <;> cases h
  · unfold phaseReadSync at h
    split at h
    · rename_i hr
      exact .inr (.inr (.inr ⟨.inl hp, srcRead_eq_unanswered hr⟩))
    · cases h
    · split at h <;> cases h
  · unfold phaseReadTag at h
    split at h
    · rename_i hr
      exact .inr (.inr (.inr ⟨.inr (.inl hp), srcRead_eq_unanswered hr⟩))
    · cases h
    · split at h <;> cases h
  · unfold phaseReadCkA at h
    split at h
    · rename_i hr
      exact .inr (.inr (.inr ⟨.inr (.inr (.inl hp)), srcRead_eq_unanswered hr⟩))
    all_goals cases h
  · unfold phaseReadCkB at h
    split at h
    · rename_i hr
      exact .inr (.inr (.inr ⟨.inr (.inr (.inr (.inl hp))), srcRead_eq_unanswered hr⟩))
    all_goals cases h
  · unfold phaseReadPayload at h
    split at h
    · split at h
      · rename_i hlt _ hr
        exact .inr (.inr (.inr ⟨.inr (.inr (.inr (.inr ⟨hp, hlt⟩))), srcRead_eq_unanswered hr⟩))
      all_goals cases h
    · cases h
  · cases h

/-- Everything one transition of the frame reader can do. -/
theorem framePhase_cases {s t : State} (h : framePhase s = .moved t) :
    (s.phase = .checkReady ∧
      ((s.cfg.sourceKind = .file ∧ t = goto .readSync s) ∨
       ∃ n rest, s.cfg.sourceKind = .streamed ∧ s.src.readies = n :: rest ∧
        ((n < s.cfg.readyThreshold ∧
            t = raise .noDataAvailable .cleared (readReady rest s)) ∨
         (¬n < s.cfg.readyThreshold ∧
            t = goto .readSync (readReady rest s))))) ∨
    (s.phase = .readSync ∧
      ((∃ s', srcRead s = .eos s' ∧ t = raise .endOfStream .cleared s') ∨
       ∃ b s', srcRead s = .byte b s' ∧
        ((b = s.cfg.syncByte ∧ t = goto .readTag s') ∨
         (b ≠ s.cfg.syncByte ∧ t = raise .noDataAvailable .cleared s')))) ∨
    (s.phase = .readTag ∧
      ((∃ s', srcRead s = .eos s' ∧ t = raise .truncatedFrame .cleared s') ∨
       ∃ b s', srcRead s = .byte b s' ∧
        ((lookup s.cfg.registry b = none ∧
            t = raise .unknownPacketType { Response.cleared with tagV := true, tag := b }
              (latchTag b s')) ∨
         ∃ spec, lookup s.cfg.registry b = some spec ∧
            t = goto .readCkA (latchSpecLen spec (latchTag b s'))))) ∨
    (s.phase = .readCkA ∧
      ((∃ s', srcRead s = .eos s' ∧ t = truncated s') ∨
       ∃ b s', srcRead s = .byte b s' ∧ t = goto .readCkB (latchRxA b s'))) ∨
    (s.phase = .readCkB ∧
      ((∃ s', srcRead s = .eos s' ∧ t = truncated s') ∨
       ∃ b s', srcRead s = .byte b s' ∧ t = goto .readPayload (latchRxB b s'))) ∨
    (s.phase = .readPayload ∧
      ((s.idx.toNat < s.specLen.toNat ∧
        ((∃ s', srcRead s = .eos s' ∧ t = truncated s') ∨
         ∃ b s', srcRead s = .byte b s' ∧
          t = goto (if s.idx.toNat + 1 < s.specLen.toNat then .readPayload else .verify)
            (takePayloadByte b s'))) ∨
       (¬s.idx.toNat < s.specLen.toNat ∧ t = goto .verify s))) ∨
    (s.phase = .verify ∧ t = phaseVerify s) := by
  unfold framePhase at h
  split at h <;> rename_i hp
  · cases h
  · cases h
  · refine .inl ⟨hp, ?_⟩
    unfold phaseCheckReady at h
    split at h
    · cases h
      exact .inl ⟨‹_›, rfl⟩
    · rename_i hk
      match hr : s.src.readies with
      | [] => simp [srcReady, hr] at h
      | n :: rest =>
        simp only [srcReady, hr] at h
        refine .inr ⟨n, rest, hk, rfl, ?_⟩
        split at h <;> cases h
        · exact .inl ⟨‹_›, rfl⟩
        · exact .inr ⟨‹_›, rfl⟩
  · refine .inr (.inl ⟨hp, ?_⟩)
    unfold phaseReadSync at h
    split at h
    · cases h
    · cases h
      exact .inl ⟨_, ‹_›, rfl⟩
    · rename_i b s' hr
      obtain ⟨rest, -, -, rfl⟩ := srcRead_eq_byte hr
      refine .inr ⟨b, _, hr, ?_⟩
      split at h <;> cases h
      · exact .inl ⟨‹_›, rfl⟩
      · exact .inr ⟨‹_›, rfl⟩
  · refine .inr (.inr (.inl ⟨hp, ?_⟩))
    unfold phaseReadTag at h
    split at h
    · cases h
    · cases h
      exact .inl ⟨_, ‹_›, rfl⟩
    · rename_i b s' hr
      obtain ⟨rest, -, -, rfl⟩ := srcRead_eq_byte hr
      refine .inr ⟨b, _, hr, ?_⟩
      split at h <;> cases h
      · exact .inl ⟨‹_›, rfl⟩
      · exact .inr ⟨_, ‹_›, rfl⟩
  · refine .inr (.inr (.inr (.inl ⟨hp, ?_⟩)))
    unfold phaseReadCkA at h
    split at h <;> cases h
    · exact .inl ⟨_, ‹_›, rfl⟩
    · exact .inr ⟨_, _, ‹_›, rfl⟩
  · refine .inr (.inr (.inr (.inr (.inl ⟨hp, ?_⟩))))
    unfold phaseReadCkB at h
    split at h <;> cases h
    · exact .inl ⟨_, ‹_›, rfl⟩
    · exact .inr ⟨_, _, ‹_›, rfl⟩
  · refine .inr (.inr (.inr (.inr (.inr (.inl ⟨hp, ?_⟩)))))
    unfold phaseReadPayload at h
    split at h
    · refine .inl ⟨‹_›, ?_⟩
      split at h <;> cases h
      · exact .inl ⟨_, ‹_›, rfl⟩
      · exact .inr ⟨_, _, ‹_›, rfl⟩
    · cases h
      exact .inr ⟨‹_›, rfl⟩
  · cases h
    exact .inr (.inr (.inr (.inr (.inr (.inr ⟨hp, rfl⟩)))))

theorem phaseVerify_phase (s : State) : (phaseVerify s).phase = .idle := by
  unfold phaseVerify
  split <;> rfl

theorem succ_mod_of_lt {a b : Byte} (h : a.toNat < b.toNat) :
    (a.toNat + 1) % 256 = a.toNat + 1 := by
  have := b.isLt
  omega

/-- Every transition lowers the rank. -/
theorem rank_lt {s t : State} (h : framePhase s = .moved t) : rank t < rank s := by
  have hs := s.specLen.isLt
  obtain ⟨hp, ⟨_, rfl⟩ | ⟨_, _, _, _, ⟨_, rfl⟩ | ⟨_, rfl⟩⟩⟩ |
    ⟨hp, ⟨_, _, rfl⟩ | ⟨_, _, _, ⟨_, rfl⟩ | ⟨_, rfl⟩⟩⟩ |
    ⟨hp, ⟨_, _, rfl⟩ | ⟨_, _, _, ⟨_, rfl⟩ | ⟨_, _, rfl⟩⟩⟩ |
    ⟨hp, ⟨_, _, rfl⟩ | ⟨_, _, _, rfl⟩⟩ | ⟨hp, ⟨_, _, rfl⟩ | ⟨_, s', _, rfl⟩⟩ |
    ⟨hp, ⟨hlt, ⟨_, _, rfl⟩ | ⟨_, s', hr, rfl⟩⟩ | ⟨_, rfl⟩⟩ | ⟨hp, rfl⟩ := framePhase_cases h
  all_goals first
    | (simp [rank, hp]; done)
    | skip
  · have := s'.specLen.isLt
    simp only [rank, hp, goto_phase, goto_specLen, latchRxB_specLen]
    omega
  · obtain ⟨rest, -, -, rfl⟩ := srcRead_eq_byte hr
    have := succ_mod_of_lt hlt
    by_cases hm : s.idx.toNat + 1 < s.specLen.toNat
    · simp [rank, hp, hm, this]
      omega
    · simp [rank, hp, hm]
      omega
  · simp only [rank, hp, goto_phase]
    omega
  · simp only [rank, hp, phaseVerify_phase]
    omega

theorem runFrame_succ_of_moved {s t : State} (h : framePhase s = .moved t) (n : Nat) :
    runFrame (n + 1) s = runFrame n t := by
  rw [runFrame, h]

theorem runFrame_of_waits {s : State} (h : framePhase s = .waits) (n : Nat) :
    runFrame n s = s := by
  cases n with
  | zero => rfl
  | succ n => rw [runFrame, h]

/-- Fuel beyond the rank changes nothing. -/
theorem runFrame_fuel {s : State} {n m : Nat} (hn : rank s ≤ n) (hm : rank s ≤ m) :
    runFrame n s = runFrame m s := by
  induction n generalizing s m with
  | zero =>
    match h : framePhase s with
    | .moved t => exact absurd (rank_lt h) (by omega)
    | .waits => rw [runFrame_of_waits h, runFrame_of_waits h]
  | succ n ih =>
    match h : framePhase s with
    | .waits => rw [runFrame_of_waits h, runFrame_of_waits h]
    | .moved t =>
      have := rank_lt h
      obtain ⟨m, rfl⟩ : ∃ k, m = k + 1 := ⟨m - 1, by omega⟩
      rw [runFrame_succ_of_moved h, runFrame_succ_of_moved h]
      exact ih (by omega) (by omega)

/-- An attempt goes on from the state after its next transition. -/
theorem runFrame_moved {s t : State} (h : framePhase s = .moved t) :
    runFrame frameFuel s = runFrame frameFuel t := by
  have := rank_lt h
  have := rank_le s
  rw [← runFrame_succ_of_moved h frameFuel]
  exact runFrame_fuel (rank_le s) (by omega)

/-- An attempt stops only where the frame reader makes no transition. -/
theorem runFrame_stops (s : State) : framePhase (runFrame frameFuel s) = .waits := by
  suffices ∀ n s, rank s ≤ n → framePhase (runFrame n s) = .waits from this _ _ (rank_le s)
  intro n
  induction n with
  | zero =>
    intro s hs
    match h : framePhase s with
    | .moved t => exact absurd (rank_lt h) (by omega)
    | .waits => rfl
  | succ n ih =>
    intro s hs
    match h : framePhase s with
    | .waits => rw [runFrame_of_waits h]; exact h
    | .moved t =>
      have := rank_lt h
      rw [runFrame_succ_of_moved h]
      exact ih t (by omega)

/-- What every transition keeps, an attempt keeps. -/
theorem runFrame_induct {P : State → Prop} (hP : ∀ s t, P s → framePhase s = .moved t → P t)
    (n : Nat) (s : State) (h : P s) : P (runFrame n s) := by
  induction n generalizing s with
  | zero => exact h
  | succ n ih =>
    rw [runFrame]
    split
    · exact ih _ (hP _ _ h ‹_›)
    · exact h

/-- The state after the payload bytes `P` have been read (41_frame_reader.md rule R126). -/
def afterPayload (P : List Byte) (rest : List ReadAnswer) (s : State) : State :=
  { s with
    phase := if s.idx.toNat + P.length < s.specLen.toNat then .readPayload else .verify
    idx := s.idx + BitVec.ofNat 8 P.length
    pbuf := Memory.writeAll s.idx.toNat P s.pbuf
    accA := (fletcherFrom (s.accA, s.accB) P).1
    accB := (fletcherFrom (s.accA, s.accB) P).2
    consumed := s.consumed + BitVec.ofNat 16 P.length
    src := { s.src with cursor := s.src.cursor + P.length, answers := rest } }

/-- No payload byte read. -/
theorem afterPayload_nil (s : State) (hlt : s.idx.toNat < s.specLen.toNat)
    (hp : s.phase = .readPayload) : afterPayload [] s.src.answers s = s := by
  unfold afterPayload
  simp [hlt, ← hp, Memory.writeAll, fletcherFrom]

/-- One payload byte, then the others. -/
theorem afterPayload_cons (x : Byte) (P : List Byte) (rest rest' : List ReadAnswer) (s : State)
    (p : Phase) (hlt : s.idx.toNat < s.specLen.toNat) :
    afterPayload P rest (goto p (takePayloadByte x (readOne rest' s))) =
      afterPayload (x :: P) rest s := by
  have hi := succ_mod_of_lt hlt
  unfold afterPayload
  congr 1
  · simp [hi, Nat.add_assoc, Nat.add_comm 1]
  · simp [BitVec.ofNat_add, BitVec.add_assoc, BitVec.add_comm]
  · simp [hi, Memory.writeAll]
  · simp only [goto_consumed, takePayloadByte_consumed, readOne_consumed, List.length_cons,
      BitVec.ofNat_add]
    rw [BitVec.add_assoc, BitVec.add_comm (BitVec.ofNat 16 P.length)]
    rfl
  · simp [Nat.add_assoc, Nat.add_comm 1]

/-- The transition that takes one payload byte. -/
theorem framePhase_payload {s : State} {x : Byte} {rest : List ReadAnswer}
    (hp : s.phase = .readPayload) (ha : Answering s) (hlt : s.idx.toNat < s.specLen.toNat)
    (hs : s.src.answers = .byte x :: rest) :
    framePhase s = .moved (goto
      (if s.idx.toNat + 1 < s.specLen.toNat then .readPayload else .verify)
      (takePayloadByte x (readOne rest s))) := by
  rw [framePhase, hp]
  simp [phaseReadPayload, hlt, srcRead_of_byte ha hs]

/-- With nothing left to read, verification comes next. -/
theorem framePhase_payload_done {s : State} (hp : s.phase = .readPayload)
    (hle : ¬s.idx.toNat < s.specLen.toNat) : framePhase s = .moved (goto .verify s) := by
  rw [framePhase, hp]
  simp [phaseReadPayload, hle]

/-- The payload loop: it takes the bytes the source answers, up to the payload length. -/
theorem runFrame_payload (P : List Byte) (rest : List ReadAnswer) (s : State)
    (hp : s.phase = .readPayload) (ha : Answering s)
    (hs : s.src.answers = P.map .byte ++ rest)
    (hl : s.idx.toNat + P.length ≤ s.specLen.toNat) :
    runFrame frameFuel s = runFrame frameFuel (afterPayload P rest s) := by
  induction P generalizing s with
  | nil =>
    obtain rfl : s.src.answers = rest := by simpa using hs
    by_cases hlt : s.idx.toNat < s.specLen.toNat
    · rw [afterPayload_nil s hlt hp]
    · rw [runFrame_moved (framePhase_payload_done hp hlt)]
      congr 1
      simp [afterPayload, goto, hlt, Memory.writeAll, fletcherFrom]
  | cons x P ih =>
    simp only [List.length_cons] at hl
    have hlt : s.idx.toNat < s.specLen.toNat := by omega
    have hi := succ_mod_of_lt hlt
    rw [runFrame_moved (framePhase_payload hp ha hlt (by simpa using hs))]
    by_cases hmore : s.idx.toNat + 1 < s.specLen.toNat
    · rw [if_pos hmore, ← afterPayload_cons _ _ rest (P.map .byte ++ rest) _ .readPayload hlt]
      exact ih _ rfl ha rfl (by simp [hi]; omega)
    · obtain rfl : P = [] := List.eq_nil_of_length_eq_zero (by omega)
      rw [if_neg hmore, ← afterPayload_cons _ _ rest rest _ .verify hlt]
      congr 1
      simp [afterPayload, goto, hmore, hi, Memory.writeAll, fletcherFrom]

end Sys2Proof.Machine
end

