-- ==== Sys2Proof/Laws/Memory.lean ====
section
/-! SUPPORT. The laws of `PBUF`: read after write, and that a write keeps the canonical form. -/

namespace Sys2Proof.Machine.Memory

@[simp] theorem read_nil (a : Nat) : read [] a = 0 := rfl

theorem erase_cons (k : Nat) (v : Byte) (m : List Host.Cell) (a : Nat) :
    erase a ((k, v) :: m) = if k = a then erase a m else (k, v) :: erase a m := by
  by_cases hk : k = a <;> simp [erase, hk]

theorem read_cons (k : Nat) (v : Byte) (m : List Host.Cell) (a : Nat) :
    read ((k, v) :: m) a = if k = a then v else read m a := rfl

theorem read_erase (m : List Host.Cell) (a a' : Nat) :
    read (erase a m) a' = if a' = a then 0 else read m a' := by
  induction m with
  | nil => simp [erase]
  | cons c m ih =>
    obtain ⟨k, v⟩ := c
    rw [erase_cons, read_cons]
    by_cases hk : k = a
    · by_cases ha : a' = a
      · subst ha
        simpa [hk] using ih
      · simp [hk, ha, ih, Ne.symm ha]
    · by_cases ha : a' = a
      · subst ha
        simpa [hk, read_cons] using ih
      · simp [hk, ha, ih, read_cons]

theorem read_insert (m : List Host.Cell) (a a' : Nat) (b : Byte) (h : ∀ c ∈ m, c.1 ≠ a) :
    read (insert a b m) a' = if a' = a then b else read m a' := by
  induction m with
  | nil => simp only [insert, read_cons, read_nil, eq_comm]
  | cons c m ih =>
    obtain ⟨k, v⟩ := c
    have hk : k ≠ a := h (k, v) (by simp)
    have ih := ih fun c hc => h c (by simp [hc])
    unfold insert
    split
    · rw [read_cons]
      simp only [eq_comm]
    · rw [read_cons, read_cons, ih]
      by_cases ha : a' = a
      · simp [ha, hk]
      · simp [ha]

theorem erase_ne (m : List Host.Cell) (a : Nat) : ∀ c ∈ erase a m, c.1 ≠ a := by
  intro c hc
  simpa using (List.mem_filter.1 hc).2

/-- A read after a write gives the byte written at its offset, and what was there elsewhere. -/
theorem read_write (m : List Host.Cell) (a a' : Nat) (b : Byte) :
    read (write a b m) a' = if a' = a then b else read m a' := by
  unfold write
  by_cases hb : b = blank
  · simp [hb, read_erase, blank]
  · rw [if_neg hb, read_insert _ _ _ _ (erase_ne m a), read_erase]
    by_cases ha : a' = a <;> simp [ha]

@[simp] theorem read_write_same (m : List Host.Cell) (a : Nat) (b : Byte) :
    read (write a b m) a = b := by simp [read_write]

theorem read_write_ne (m : List Host.Cell) (a a' : Nat) (b : Byte) (h : a' ≠ a) :
    read (write a b m) a' = read m a' := by simp [read_write, h]

/-- The bytes written by `writeAll` read back, and every other offset reads as before. -/
theorem read_writeAll (bs : List Byte) (m : List Host.Cell) (a a' : Nat) :
    read (writeAll a bs m) a' =
      if a ≤ a' ∧ a' < a + bs.length then bs.getD (a' - a) 0 else read m a' := by
  induction bs generalizing a m with
  | nil => simp [writeAll, show ¬(a ≤ a' ∧ a' < a) by omega]
  | cons b bs ih =>
    rw [writeAll, ih, read_write]
    by_cases h1 : a + 1 ≤ a' ∧ a' < a + 1 + bs.length
    · obtain ⟨j, rfl⟩ : ∃ j, a' = a + 1 + j := ⟨a' - (a + 1), by omega⟩
      have hlt : j < bs.length := by omega
      rw [if_pos h1, if_pos (by simp; omega), show a + 1 + j - (a + 1) = j by omega,
        show a + 1 + j - a = j + 1 by omega]
      simp
    · rw [if_neg h1]
      by_cases h2 : a' = a
      · simp [h2]
      · rw [if_neg h2, if_neg]
        simp only [List.length_cons]
        omega

@[simp] theorem bytes_length (m : List Host.Cell) (off n : Nat) : (bytes m off n).length = n := by
  simp [bytes]

theorem bytes_zero (m : List Host.Cell) (off : Nat) : bytes m off 0 = [] := rfl

theorem bytes_succ (m : List Host.Cell) (off n : Nat) :
    bytes m off (n + 1) = bytes m off n ++ [read m (off + n)] := by
  simp [bytes, List.range_succ]

theorem bytes_congr {m m' : List Host.Cell} {off n : Nat}
    (h : ∀ a, off ≤ a → a < off + n → read m a = read m' a) : bytes m off n = bytes m' off n := by
  refine List.map_congr_left fun i hi => h _ (by omega) ?_
  have := List.mem_range.1 hi
  omega

/-- What was written at `off` on reads back as it was written. -/
theorem bytes_writeAll (bs : List Byte) (m : List Host.Cell) :
    bytes (writeAll 0 bs m) 0 bs.length = bs := by
  refine List.ext_getElem (by simp) fun i h _ => ?_
  have hi : i < bs.length := by simpa using h
  simp [bytes, read_writeAll, hi]

/-- A run of bytes inside what was written reads back as the same run of it. -/
theorem bytes_writeAll_slice (bs : List Byte) (m : List Host.Cell) (off n : Nat)
    (h : off + n ≤ bs.length) : bytes (writeAll 0 bs m) off n = (bs.drop off).take n := by
  refine List.ext_getElem (by simp; omega) fun i h1 _ => ?_
  have hi : i < n := by simpa using h1
  have : off + i < bs.length := by omega
  simp [bytes, read_writeAll, this]

theorem writeAll_append (bs cs : List Byte) (a : Nat) (m : List Host.Cell) :
    writeAll a (bs ++ cs) m = writeAll (a + bs.length) cs (writeAll a bs m) := by
  induction bs generalizing a m with
  | nil => rfl
  | cons b bs ih => simp [writeAll, ih, Nat.add_assoc, Nat.add_comm 1]

theorem wf_iff (m : List Host.Cell) : wf m = true ↔
    (m.map (·.1)).Pairwise (· < ·) ∧ ∀ c ∈ m, c.1 < maxPayloadLen ∧ c.2 ≠ 0 := by
  rw [wf, Bool.and_eq_true, decide_eq_true_iff, List.all_eq_true]
  simp only [Bool.and_eq_true, decide_eq_true_iff]
  rfl

theorem wf_nil : wf [] = true := by decide

theorem wf_erase {m : List Host.Cell} (a : Nat) (h : wf m = true) : wf (erase a m) = true := by
  rw [wf_iff] at h ⊢
  exact ⟨h.1.sublist (List.filter_sublist.map _), fun c hc => h.2 c (List.mem_filter.1 hc).1⟩

theorem mem_insert {m : List Host.Cell} {a : Nat} {b : Byte} {c : Host.Cell} :
    c ∈ insert a b m ↔ c = (a, b) ∨ c ∈ m := by
  induction m with
  | nil => simp [insert]
  | cons d m ih =>
    obtain ⟨k, v⟩ := d
    unfold insert
    split
    · simp
    · simp [ih, or_left_comm]

theorem wf_insert {m : List Host.Cell} {a : Nat} {b : Byte} (h : wf m = true)
    (ha : a < maxPayloadLen) (hb : b ≠ 0) (hne : ∀ c ∈ m, c.1 ≠ a) :
    wf (insert a b m) = true := by
  rw [wf_iff] at h ⊢
  refine ⟨?_, fun c hc => ?_⟩
  · induction m with
    | nil => simp [insert]
    | cons d m ih =>
      obtain ⟨k, v⟩ := d
      have hp := List.pairwise_cons.1 h.1
      have hk : k ≠ a := hne (k, v) (by simp)
      unfold insert
      split
      · rename_i hlt
        refine List.pairwise_cons.2 ⟨fun x hx => ?_, h.1⟩
        rw [List.map_cons] at hx
        obtain rfl | hx := List.mem_cons.1 hx
        · exact hlt
        · exact hlt.trans (hp.1 x hx)
      · rename_i hlt
        have ih := ih ⟨hp.2, fun c hc => h.2 c (by simp [hc])⟩ fun c hc => hne c (by simp [hc])
        refine List.pairwise_cons.2 ⟨fun x hx => ?_, ih⟩
        obtain ⟨c, hc, rfl⟩ := List.mem_map.1 hx
        obtain rfl | hc := mem_insert.1 hc
        · simp only; omega
        · exact hp.1 _ (List.mem_map.2 ⟨c, hc, rfl⟩)
  · obtain rfl | hc := mem_insert.1 hc
    · exact ⟨ha, hb⟩
    · exact h.2 c hc

/-- A write at an offset that exists keeps the canonical form. -/
theorem wf_write {m : List Host.Cell} {a : Nat} (b : Byte) (h : wf m = true)
    (ha : a < maxPayloadLen) : wf (write a b m) = true := by
  unfold write
  split
  · exact wf_erase a h
  · exact wf_insert (wf_erase a h) ha (by simpa [blank] using ‹¬b = blank›) (erase_ne m a)

/-- So do writes at consecutive offsets that all exist. -/
theorem wf_writeAll {bs : List Byte} {m : List Host.Cell} {a : Nat} (h : wf m = true)
    (ha : a + bs.length ≤ maxPayloadLen) : wf (writeAll a bs m) = true := by
  induction bs generalizing a m with
  | nil => exact h
  | cons b bs ih =>
    simp only [List.length_cons] at ha
    exact ih (wf_write b h (by omega)) (by omega)

end Sys2Proof.Machine.Memory
end

