-- ==== Sys2Proof/Laws/Operands.lean ====
section
/-! SUPPORT. Lemmas about assembly, field reads, layouts and the checksum accumulators. -/

namespace Sys2Proof.Machine

theorem width_pos (k : Kind) : 1 ≤ width k := by cases k <;> decide

theorem width_le (k : Kind) : width k ≤ 4 := by cases k <;> decide

theorem length_le_widthSum (layout : List Kind) : layout.length ≤ widthSum layout := by
  induction layout with
  | nil => simp [widthSum]
  | cons k ks ih =>
    have := width_pos k
    simp only [List.length_cons, widthSum]
    omega

theorem leNat_append (P Q : List Byte) : leNat (P ++ Q) = leNat P + 256 ^ P.length * leNat Q := by
  induction P with
  | nil => simp [leNat]
  | cons b P ih =>
    simp only [List.cons_append, leNat, ih, List.length_cons, pow_succ]
    ring

theorem leNat_lt (P : List Byte) : leNat P < 256 ^ P.length := by
  induction P with
  | nil => simp [leNat]
  | cons b P ih =>
    have := b.isLt
    simp only [leNat, List.length_cons, pow_succ]
    omega

theorem toNat_append_byte {n : Nat} (x : BitVec n) (b : Byte) :
    (x ++ b).toNat = x.toNat * 256 + b.toNat := by
  rw [BitVec.toNat_append, ← Nat.shiftLeft_add_eq_or_of_lt b.isLt, Nat.shiftLeft_eq]

/-- Two bytes assembled (42_deserializer.md rule R151). -/
theorem ofNat_leNat_two (n : Nat) (b0 b1 : Byte) :
    BitVec.ofNat n (leNat [b0, b1]) = (b1 ++ b0).setWidth n := by
  refine BitVec.eq_of_toNat_eq ?_
  simp only [leNat, BitVec.toNat_ofNat, BitVec.toNat_setWidth, toNat_append_byte]
  congr 1
  omega

/-- Four bytes assembled (42_deserializer.md rule R151). -/
theorem ofNat_leNat_four (b0 b1 b2 b3 : Byte) :
    BitVec.ofNat 32 (leNat [b0, b1, b2, b3]) = b3 ++ b2 ++ b1 ++ b0 := by
  have h0 := b0.isLt
  have h1 := b1.isLt
  have h2 := b2.isLt
  have h3 := b3.isLt
  refine BitVec.eq_of_toNat_eq ?_
  simp only [leNat, BitVec.toNat_ofNat, toNat_append_byte]
  omega

@[simp] theorem leBytes_length (n v : Nat) : (leBytes n v).length = n := by
  induction n generalizing v with
  | zero => rfl
  | succ n ih => simp [leBytes, ih]

theorem leNat_leBytes (n v : Nat) : leNat (leBytes n v) = v % 256 ^ n := by
  induction n generalizing v with
  | zero => simp [leBytes, leNat, Nat.mod_one]
  | succ n ih =>
    rw [leBytes, leNat, ih, BitVec.toNat_ofNat, pow_succ 256, Nat.mul_comm (256 ^ n), Nat.mod_mul]

@[simp] theorem encField_length (k : Kind) (v : Int) : (encField k v).length = width k := by
  simp [encField]

/-- A field read within what was written: the lane of its own bytes. -/
theorem conv_writeAll {s : State} {bs : List Byte} {m : List Host.Cell} (k : Kind) (off : Nat)
    (hs : s.pbuf = Memory.writeAll 0 bs m) (h : off + width k ≤ bs.length)
    (hle : bs.length ≤ maxPayloadLen) :
    conv s k off = some (laneOfBytes k ((bs.drop off).take (width k))) := by
  unfold conv memRead
  rw [if_pos (h.trans hle), hs, Memory.bytes_writeAll_slice bs m off (width k) h]
  rfl

/-- The lanes of a layout over the bytes it lies on. -/
def lanesOf : List Kind → List Byte → List Lane
  | [], _ => []
  | k :: ks, bs => laneOfBytes k (bs.take (width k)) :: lanesOf ks (bs.drop (width k))

@[simp] theorem lanesOf_length (ks : List Kind) (bs : List Byte) :
    (lanesOf ks bs).length = ks.length := by
  induction ks generalizing bs with
  | nil => rfl
  | cons k ks ih => simp [lanesOf, ih]

/-- A layout walked within what was written. -/
theorem walkLayout_writeAll {s : State} {bs : List Byte} {m : List Host.Cell} (ks : List Kind)
    (off : Nat) (hs : s.pbuf = Memory.writeAll 0 bs m) (h : off + widthSum ks ≤ bs.length)
    (hle : bs.length ≤ maxPayloadLen) :
    walkLayout s ks off = some (lanesOf ks (bs.drop off)) := by
  induction ks generalizing off with
  | nil => rfl
  | cons k ks ih =>
    simp only [widthSum] at h
    simp only [walkLayout, conv_writeAll k off hs (by omega) hle, ih (off + width k) (by omega),
      lanesOf, List.drop_drop]

/-- A layout that lies within `PBUF` is walked to the end, one lane a field. -/
theorem walkLayout_inBounds (s : State) (ks : List Kind) (off : Nat)
    (h : off + widthSum ks ≤ maxPayloadLen) :
    ∃ lanes, walkLayout s ks off = some lanes ∧ lanes.length = ks.length := by
  induction ks generalizing off with
  | nil => exact ⟨[], rfl, rfl⟩
  | cons k ks ih =>
    simp only [widthSum] at h
    obtain ⟨lanes, hl, hn⟩ := ih (off + width k) (by omega)
    simp only [walkLayout, conv, memRead, if_pos (show off + width k ≤ maxPayloadLen by omega),
      Option.map_some, hl]
    exact ⟨_, rfl, by simp [hn]⟩

theorem fieldOffset_succ (k : Kind) (ks : List Kind) (j : Nat) :
    fieldOffset (k :: ks) (j + 1) = width k + fieldOffset ks j := by
  simp [fieldOffset, widthSum]

/-- Lane `j` is the lane of its own bytes at its own offset. -/
theorem lanesOf_getElem? (ks : List Kind) (bs : List Byte) (j : Nat) (k : Kind)
    (h : ks[j]? = some k) :
    (lanesOf ks bs)[j]? = some (laneOfBytes k ((bs.drop (fieldOffset ks j)).take (width k))) := by
  induction ks generalizing bs j with
  | nil => simp at h
  | cons k' ks ih =>
    match j with
    | 0 =>
      obtain rfl : k' = k := by simpa using h
      simp [lanesOf, fieldOffset, widthSum]
    | j + 1 =>
      simp only [lanesOf, List.getElem?_cons_succ] at h ⊢
      rw [ih _ _ h, fieldOffset_succ, List.drop_drop]

/-- A field ends within its layout. -/
theorem fieldOffset_le (ks : List Kind) (j : Nat) (k : Kind) (h : ks[j]? = some k) :
    fieldOffset ks j + width k ≤ widthSum ks := by
  induction ks generalizing j with
  | nil => simp at h
  | cons k' ks ih =>
    match j with
    | 0 =>
      obtain rfl : k' = k := by simpa using h
      simp [fieldOffset, widthSum]
    | j + 1 =>
      have := ih j (by simpa using h)
      rw [fieldOffset_succ, widthSum]
      omega

theorem fletcherFrom_append (acc : Byte × Byte) (P Q : List Byte) :
    fletcherFrom acc (P ++ Q) = fletcherFrom (fletcherFrom acc P) Q := by
  induction P generalizing acc with
  | nil => rfl
  | cons x P ih => exact ih _

/-- Folding bytes in as they arrive and after the last gives the same pair (40_checksum.md rule R116). -/
theorem fletcher_snoc (P : List Byte) (x : Byte) :
    fletcher (P ++ [x]) = fletcherStep (fletcher P) x := fletcherFrom_append _ P [x]

end Sys2Proof.Machine
end

