-- ==== Sys2Proof/Laws/Exec.lean ====
section
/-! SUPPORT. `exec` by the form of its command: acceptance, then the body of the form; and what each body
does. -/

namespace Sys2Proof.Machine

theorem ready_iff (s : State) : Ready s ↔ s.canAccept = true := by
  simp [Ready, State.canAccept]

theorem issue_of_ready {s : State} (h : Ready s) (c : Command)
    (body : State → Host.Outcome State Fault Refusal) : issue c body s = body (accept c s) := by
  rw [issue, if_pos ((ready_iff s).1 h)]

theorem issue_of_not_ready {s : State} (h : ¬Ready s) (c : Command)
    (body : State → Host.Outcome State Fault Refusal) : issue c body s = .next s := by
  rw [issue, if_neg fun h' => h ((ready_iff s).2 h')]

/-- What carries a command of a form out after acceptance. -/
def formBody : Form → State → Host.Outcome State Fault Refusal
  | .tryReadFrame => fun s => .next (runFrame frameFuel s)
  | .decodeRecord => decodeBody
  | .checksum => checksumBody
  | .cvt k => cvtBody k

theorem exec_eq_issue (i : Instr) (s : State) :
    exec i s = issue i.command (formBody i.form) s := by
  cases i <;> rfl

/-- An accepted command is carried out by the body of its form. -/
theorem exec_of_ready {s : State} (h : Ready s) (i : Instr) :
    exec i s = formBody i.form (accept i.command s) := by
  rw [exec_eq_issue, issue_of_ready h]

/-- A command that is not accepted changes nothing (20_memory.md rule R59). -/
theorem exec_of_not_ready {s : State} (h : ¬Ready s) (i : Instr) : exec i s = .next s := by
  rw [exec_eq_issue, issue_of_not_ready h]

theorem exec_tryReadFrame {s : State} (h : Ready s) :
    exec .tryReadFrame s = .next (runFrame frameFuel (accept Instr.tryReadFrame.command s)) :=
  exec_of_ready h _

/-- The EXEC phase carries out the body of the form latched, which is not TRY_READ_FRAME. -/
theorem execPhase_of_form {s : State} {f : Form} (h : classify s.cmdOp s.cmdArg s.cmdLen = .ok f)
    (hf : f ≠ .tryReadFrame) : execPhase s = formBody f s := by
  rw [execPhase, h]
  cases f
  · exact absurd rfl hf
  all_goals rfl

theorem execPhase_of_illegal {s : State} {r : IllegalReason}
    (h : classify s.cmdOp s.cmdArg s.cmdLen = .error r) : execPhase s = illegalBody s := by
  rw [execPhase, h]

theorem firstPhase_command (i : Instr) :
    firstPhase i.command = if i = .tryReadFrame then .checkReady else .exec := by
  rw [firstPhase, classify_command]
  cases i <;> rfl

theorem take_data {c : Command} (h : c.WellFormed) : c.data.take c.len.toNat = c.data := by
  rw [← h, List.take_length]

/-- A command that ends right after acceptance. -/
theorem raise_accept {c : Command} (h : c.WellFormed) (o : OutcomeCode) (r : Response) (s : State) :
    raise o r (accept c s) = afterCommand c { r with outcome := o, consumed := 0 } s := by
  simp [raise, accept, afterCommand, take_data h]

theorem raise_latchTag_accept {c : Command} (h : c.WellFormed) (o : OutcomeCode) (r : Response)
    (t : Byte) (s : State) : raise o r (latchTag t (accept c s)) =
      { afterCommand c { r with outcome := o, consumed := 0 } s with tag := t, tagV := true } := by
  simp [raise, latchTag, accept, afterCommand, take_data h]

theorem raise_latchAcc_accept {c : Command} (h : c.WellFormed) (o : OutcomeCode) (r : Response)
    (acc : Byte × Byte) (s : State) : raise o r (latchAcc acc (accept c s)) =
      { afterCommand c { r with outcome := o, consumed := 0 } s with
        accA := acc.1, accB := acc.2 } := by
  simp [raise, latchAcc, accept, afterCommand, take_data h]

/-- The bytes a command has put in `PBUF`. -/
theorem accept_pbuf_eq {c : Command} (h : c.WellFormed) (s : State) :
    (accept c s).pbuf = Memory.writeAll 0 c.data s.pbuf := by
  rw [accept_pbuf, take_data h]

theorem data_le {c : Command} (h : c.WellFormed) : c.data.length ≤ maxPayloadLen := by
  have := c.len.isLt
  simp only [Command.WellFormed] at h
  simp only [maxPayloadLen]
  omega

/-- CVT on a field of its kind's width. -/
theorem cvtBody_accept {c : Command} (hc : c.WellFormed) (k : Kind) (s : State)
    (h : c.data.length = width k) : cvtBody k (accept c s) =
      .next (afterCommand c { Response.cleared with
        outcome := .ok, nf := 1, fields := [laneOfBytes k c.data] } s) := by
  have hw : c.len.toNat = width k := by rw [← hc, h]
  rw [cvtBody, accept_cmdLen, if_neg (by simp [hw]),
    conv_writeAll k 0 (accept_pbuf_eq hc s) (by omega) (data_le hc)]
  simp only [List.drop_zero, ← h, List.take_length]
  rw [raise_accept hc]
  rfl

/-- CVT on data of another length. -/
theorem cvtBody_accept_mismatch {c : Command} (hc : c.WellFormed) (k : Kind) (s : State)
    (h : c.data.length ≠ width k) : cvtBody k (accept c s) =
      .next (afterCommand c { Response.cleared with outcome := .layoutMismatch } s) := by
  have hw : c.len.toNat ≠ width k := by rwa [← hc]
  rw [cvtBody, accept_cmdLen, if_pos hw, raise_accept hc]
  rfl

/-- CVT of a field of its kind's width (42_deserializer.md rules R152 to R157). -/
theorem exec_cvt {s : State} (hr : Ready s) {i : Instr} {k : Kind} (hf : i.form = .cvt k)
    (hl : i.data.length = width k) :
    exec i s = .next (afterCommand i.command { Response.cleared with
      outcome := .ok, nf := 1, fields := [laneOfBytes k i.data] } s) := by
  have hw : i.WellFormed := by
    have := width_le k
    simp only [Instr.WellFormed, hl]
    omega
  rw [exec_of_ready hr, hf, ← command_data i]
  exact cvtBody_accept (command_wellFormed hw) k s (by simpa using hl)

/-- CVT of data of another length (42_deserializer.md rules R152 to R157). -/
theorem exec_cvt_mismatch {s : State} (hr : Ready s) {i : Instr} {k : Kind} (hf : i.form = .cvt k)
    (hw : i.WellFormed) (hl : i.data.length ≠ width k) :
    exec i s = .next (afterCommand i.command
      { Response.cleared with outcome := .layoutMismatch } s) := by
  rw [exec_of_ready hr, hf]
  exact cvtBody_accept_mismatch (command_wellFormed hw) k s (by simpa using hl)

/-- CHECKSUM. -/
theorem checksumBody_accept {c : Command} (hc : c.WellFormed) (s : State) :
    checksumBody (accept c s) = .next
      { afterCommand c { Response.cleared with
          outcome := .ok, ckV := true, calcA := (fletcher c.data).1, calcB := (fletcher c.data).2 } s with
        accA := (fletcher c.data).1, accB := (fletcher c.data).2 } := by
  have hb : Memory.bytes (accept c s).pbuf 0 (accept c s).cmdLen.toNat = c.data := by
    rw [accept_pbuf_eq hc, accept_cmdLen, ← hc]
    exact Memory.bytes_writeAll _ _
  simp only [checksumBody, hb, raise_latchAcc_accept hc]
  rfl

/-- DECODE of an unregistered tag. -/
theorem decodeBody_accept_unknown {c : Command} (hc : c.WellFormed) (s : State)
    (h : lookup s.cfg.registry c.arg = none) : decodeBody (accept c s) = .next
      { afterCommand c { Response.cleared with
          outcome := .unknownPacketType, tagV := true, tag := c.arg } s with
        tag := c.arg, tagV := true } := by
  simp only [decodeBody, latchTag_cfg, accept_cfg, accept_cmdArg, h, raise_latchTag_accept hc]
  rfl

/-- DECODE of data of another length than the spec's. -/
theorem decodeBody_accept_mismatch {c : Command} (hc : c.WellFormed) (s : State) {spec : PacketSpec}
    (h : lookup s.cfg.registry c.arg = some spec) (hl : c.len ≠ spec.payloadLength) :
    decodeBody (accept c s) = .next
      { afterCommand c { Response.cleared with
          outcome := .layoutMismatch, tagV := true, tag := c.arg } s with
        tag := c.arg, tagV := true } := by
  simp only [decodeBody, latchTag_cfg, accept_cfg, accept_cmdArg, h, latchTag_cmdLen, accept_cmdLen,
    ne_eq, hl, not_false_eq_true, if_true, raise_latchTag_accept hc]
  rfl

/-- DECODE of data of the spec's length. -/
theorem decodeBody_accept_ok {c : Command} (hc : c.WellFormed) (s : State) {spec : PacketSpec}
    (h : lookup s.cfg.registry c.arg = some spec) (hl : c.len = spec.payloadLength)
    (hw : widthSum spec.layout ≤ spec.payloadLength.toNat) :
    decodeBody (accept c s) = .next
      { afterCommand c { Response.cleared with
          outcome := .ok, tagV := true, tag := c.arg, nf := BitVec.ofNat 8 spec.layout.length,
          fields := lanesOf spec.layout c.data } s with
        tag := c.arg, tagV := true } := by
  have hwalk : walkLayout (latchTag c.arg (accept c s)) spec.layout 0 =
      some (lanesOf spec.layout c.data) := by
    have := walkLayout_writeAll (s := latchTag c.arg (accept c s)) spec.layout 0
      (accept_pbuf_eq hc s) (by rw [hc, hl]; omega) (data_le hc)
    simpa using this
  simp only [decodeBody, latchTag_cfg, accept_cfg, accept_cmdArg, h, latchTag_cmdLen, accept_cmdLen,
    ne_eq, hl, not_true_eq_false, if_false, hwalk, lanesOf_length, raise_latchTag_accept hc]
  rfl

end Sys2Proof.Machine
end

