-- ==== Sys2Proof/Laws/Attempt.lean ====
section
/-! SUPPORT. The attempt of TRY_READ_FRAME along one stream: each transition on each answer of the source,
and where an attempt stands after the readiness check and after the four bytes before the payload
(41_frame_reader.md rules R121 to R127). -/

namespace Sys2Proof.Machine

/-- Step 1 passed. -/
theorem framePhase_ready {s : State} {rs : List Nat} (hp : s.phase = .checkReady)
    (h : readyLeft s = some rs) : framePhase s = .moved (goto .readSync (readReady rs s)) := by
  rw [framePhase, hp]
  unfold readyLeft at h
  unfold phaseCheckReady
  split at h
  · rename_i hk
    cases h
    simp [hk, readReady]
  · rename_i hk hr
    split at h <;> cases h
    simp [hk, srcReady, hr, Nat.not_lt.2 ‹_›]
  · cases h

/-- Step 1 not passed. -/
theorem framePhase_not_ready {s : State} {n : Nat} {rs : List Nat} (hp : s.phase = .checkReady)
    (hk : s.cfg.sourceKind = .streamed) (hr : s.src.readies = n :: rs)
    (hn : n < s.cfg.readyThreshold) :
    framePhase s = .moved (raise .noDataAvailable .cleared (readReady rs s)) := by
  rw [framePhase, hp]
  simp [phaseCheckReady, hk, srcReady, hr, hn]

theorem framePhase_sync_eos {s t : State} (hp : s.phase = .readSync) (h : srcRead s = .eos t) :
    framePhase s = .moved (raise .endOfStream .cleared t) := by
  rw [framePhase, hp]
  simp [phaseReadSync, h]

theorem framePhase_sync {s t : State} {b : Byte} (hp : s.phase = .readSync)
    (h : srcRead s = .byte b t) (hb : b = t.cfg.syncByte) :
    framePhase s = .moved (goto .readTag t) := by
  rw [framePhase, hp]
  simp [phaseReadSync, h, hb]

theorem framePhase_noise {s t : State} {b : Byte} (hp : s.phase = .readSync)
    (h : srcRead s = .byte b t) (hb : b ≠ t.cfg.syncByte) :
    framePhase s = .moved (raise .noDataAvailable .cleared t) := by
  rw [framePhase, hp]
  simp [phaseReadSync, h, hb]

theorem framePhase_tag_eos {s t : State} (hp : s.phase = .readTag) (h : srcRead s = .eos t) :
    framePhase s = .moved (raise .truncatedFrame .cleared t) := by
  rw [framePhase, hp]
  simp [phaseReadTag, h]

theorem framePhase_tag_unknown {s t : State} {b : Byte} (hp : s.phase = .readTag)
    (h : srcRead s = .byte b t) (hl : lookup t.cfg.registry b = none) :
    framePhase s = .moved
      (raise .unknownPacketType { Response.cleared with tagV := true, tag := b } (latchTag b t)) := by
  rw [framePhase, hp]
  simp [phaseReadTag, h, hl]

theorem framePhase_tag {s t : State} {b : Byte} {spec : PacketSpec} (hp : s.phase = .readTag)
    (h : srcRead s = .byte b t) (hl : lookup t.cfg.registry b = some spec) :
    framePhase s = .moved (goto .readCkA (latchSpecLen spec (latchTag b t))) := by
  rw [framePhase, hp]
  simp [phaseReadTag, h, hl]

theorem framePhase_ckA_eos {s t : State} (hp : s.phase = .readCkA) (h : srcRead s = .eos t) :
    framePhase s = .moved (truncated t) := by
  rw [framePhase, hp]
  simp [phaseReadCkA, h]

theorem framePhase_ckA {s t : State} {b : Byte} (hp : s.phase = .readCkA)
    (h : srcRead s = .byte b t) : framePhase s = .moved (goto .readCkB (latchRxA b t)) := by
  rw [framePhase, hp]
  simp [phaseReadCkA, h]

theorem framePhase_ckB_eos {s t : State} (hp : s.phase = .readCkB) (h : srcRead s = .eos t) :
    framePhase s = .moved (truncated t) := by
  rw [framePhase, hp]
  simp [phaseReadCkB, h]

theorem framePhase_ckB {s t : State} {b : Byte} (hp : s.phase = .readCkB)
    (h : srcRead s = .byte b t) : framePhase s = .moved (goto .readPayload (latchRxB b t)) := by
  rw [framePhase, hp]
  simp [phaseReadCkB, h]

theorem framePhase_payload_eos {s t : State} (hp : s.phase = .readPayload)
    (hlt : s.idx.toNat < s.specLen.toNat) (h : srcRead s = .eos t) :
    framePhase s = .moved (truncated t) := by
  rw [framePhase, hp]
  simp [phaseReadPayload, hlt, h]

theorem framePhase_verify {s : State} (hp : s.phase = .verify) :
    framePhase s = .moved (phaseVerify s) := by
  rw [framePhase, hp]

/-- A command that is over stays so. -/
theorem framePhase_idle {s : State} (hp : s.phase = .idle) : framePhase s = .waits := by
  rw [framePhase, hp]

/-- The last transition of an attempt. -/
theorem runFrame_last {s t : State} (h : framePhase s = .moved t) (ht : t.phase = .idle) :
    runFrame frameFuel s = t := by
  rw [runFrame_moved h, runFrame_of_waits (framePhase_idle ht)]

/-- An attempt that has read `n` bytes and is in phase `p`, what comes next being `rest`. -/
def inAttempt (p : Phase) (n : Nat) (rest : List ReadAnswer) (rs : List Nat) (s : State) : State :=
  { afterAttempt n rest rs .cleared s with phase := p, rspV := s.rspV }

theorem accept_attempt (s : State) : accept Instr.tryReadFrame.command s =
    inAttempt .checkReady 0 s.src.answers s.src.readies s := rfl

/-- After the readiness check (R121). -/
theorem runFrame_atSync {s : State} {rs : List Nat} (hr : readyLeft s = some rs) :
    runFrame frameFuel (accept Instr.tryReadFrame.command s) =
      runFrame frameFuel (inAttempt .readSync 0 s.src.answers rs s) :=
  runFrame_moved (framePhase_ready rfl hr)

/-- After the sync byte (R122). -/
theorem runFrame_atTag {s : State} {rest : List ReadAnswer} {rs : List Nat}
    (hr : readyLeft s = some rs) (ha : Answering s)
    (hs : s.src.answers = .byte s.cfg.syncByte :: rest) :
    runFrame frameFuel (accept Instr.tryReadFrame.command s) =
      runFrame frameFuel (inAttempt .readTag 1 rest rs s) := by
  have h := framePhase_sync (s := inAttempt .readSync 0 s.src.answers rs s) rfl
    (srcRead_of_byte ha hs) rfl
  rw [runFrame_atSync hr, runFrame_moved h]
  rfl

/-- An attempt in which the tag `t` of `spec` and the checksum bytes `a` and `b` have been read, 0 for
those that have not. -/
def inFrame (p : Phase) (n : Nat) (t a b : Byte) (spec : PacketSpec) (rest : List ReadAnswer)
    (rs : List Nat) (s : State) : State :=
  { inAttempt p n rest rs s with
    tag := t, tagV := true, specLen := spec.payloadLength, rxA := a, rxB := b }

/-- After the tag of a registered packet (R123). -/
theorem runFrame_atCkA {s : State} {t : Byte} {spec : PacketSpec} {rest : List ReadAnswer}
    {rs : List Nat} (hr : readyLeft s = some rs) (ha : Answering s)
    (hl : lookup s.cfg.registry t = some spec)
    (hs : s.src.answers = .byte s.cfg.syncByte :: .byte t :: rest) :
    runFrame frameFuel (accept Instr.tryReadFrame.command s) =
      runFrame frameFuel (inFrame .readCkA 2 t 0 0 spec rest rs s) := by
  have h := framePhase_tag (s := inAttempt .readTag 1 (.byte t :: rest) rs s) rfl
    (srcRead_of_byte ha rfl) hl
  rw [runFrame_atTag hr ha hs, runFrame_moved h]
  rfl

/-- After the first checksum byte (R125). -/
theorem runFrame_atCkB {s : State} {t a : Byte} {spec : PacketSpec} {rest : List ReadAnswer}
    {rs : List Nat} (hr : readyLeft s = some rs) (ha : Answering s)
    (hl : lookup s.cfg.registry t = some spec)
    (hs : s.src.answers = .byte s.cfg.syncByte :: .byte t :: .byte a :: rest) :
    runFrame frameFuel (accept Instr.tryReadFrame.command s) =
      runFrame frameFuel (inFrame .readCkB 3 t a 0 spec rest rs s) := by
  have h := framePhase_ckA (s := inFrame .readCkA 2 t 0 0 spec (.byte a :: rest) rs s) rfl
    (srcRead_of_byte ha rfl)
  rw [runFrame_atCkA hr ha hl hs, runFrame_moved h]
  rfl

/-- At the payload (R125). -/
theorem runFrame_atPayload {s : State} {t a b : Byte} {spec : PacketSpec} {rest : List ReadAnswer}
    {rs : List Nat} (hr : readyLeft s = some rs) (ha : Answering s)
    (hl : lookup s.cfg.registry t = some spec)
    (hs : s.src.answers = .byte s.cfg.syncByte :: .byte t :: .byte a :: .byte b :: rest) :
    runFrame frameFuel (accept Instr.tryReadFrame.command s) =
      runFrame frameFuel (inFrame .readPayload 4 t a b spec rest rs s) := by
  have h := framePhase_ckB (s := inFrame .readCkB 3 t a 0 spec (.byte b :: rest) rs s) rfl
    (srcRead_of_byte ha rfl)
  rw [runFrame_atCkB hr ha hl hs, runFrame_moved h]
  rfl

/-- An attempt that has read the four bytes before the payload and the bytes `P` of it. -/
def inPayload (p : Phase) (t a b : Byte) (spec : PacketSpec) (P : List Byte)
    (rest : List ReadAnswer) (rs : List Nat) (s : State) : State :=
  { inFrame p (4 + P.length) t a b spec rest rs s with
    idx := BitVec.ofNat 8 P.length, accA := (fletcher P).1, accB := (fletcher P).2,
    pbuf := Memory.writeAll 0 P s.pbuf }

/-- After the bytes `P` of the payload (R126). -/
theorem runFrame_inPayload {s : State} {t a b : Byte} {spec : PacketSpec} {P : List Byte}
    {rest : List ReadAnswer} {rs : List Nat} (hr : readyLeft s = some rs) (ha : Answering s)
    (hl : lookup s.cfg.registry t = some spec) (hP : P.length ≤ spec.payloadLength.toNat)
    (hs : s.src.answers = (frameBytes s.cfg.syncByte t a b P).map .byte ++ rest) :
    runFrame frameFuel (accept Instr.tryReadFrame.command s) =
      runFrame frameFuel (inPayload
        (if P.length < spec.payloadLength.toNat then .readPayload else .verify)
        t a b spec P rest rs s) := by
  have hs' : s.src.answers = .byte s.cfg.syncByte :: .byte t :: .byte a :: .byte b ::
      (P.map .byte ++ rest) := by simpa [frameBytes] using hs
  have h := runFrame_payload P rest (inFrame .readPayload 4 t a b spec (P.map .byte ++ rest) rs s)
    rfl ha rfl (by simpa [inFrame, inAttempt, afterAttempt, afterCommand] using hP)
  rw [runFrame_atPayload hr ha hl hs', h]
  congr 1
  simp [afterPayload, inPayload, inFrame, inAttempt, afterAttempt, afterCommand, fletcher,
    Memory.writeAll, BitVec.ofNat_add, Nat.add_assoc]

end Sys2Proof.Machine
end

