-- ==== Sys2Proof/Laws/Moves.lean ====
section
/-! SUPPORT. What one transition of the frame reader does to each part of the state: the latched header and
everything outside the block stay, answers are taken from the front, and a response is written exactly on
the way into `IDLE` (41_frame_reader.md rules R128 and R132). -/

namespace Sys2Proof.Machine

/-- What a read that is answered leaves unchanged. -/
theorem srcRead_frame {s t : State} (h : srcRead s = .eos t ∨ ∃ b, srcRead s = .byte b t) :
    t = { s with src := t.src, consumed := t.consumed } ∧ t.src.readies = s.src.readies := by
  obtain h | ⟨b, h⟩ := h
  · obtain ⟨-, rfl⟩ | ⟨_, -, -, rfl⟩ := srcRead_eq_eos h <;> exact ⟨rfl, rfl⟩
  · obtain ⟨_, -, -, rfl⟩ := srcRead_eq_byte h
    exact ⟨rfl, rfl⟩

/-- A read takes at most one answer, and moves the cursor and `CONSUMED` by the bytes in it (20_memory.md
rule R51). -/
theorem srcRead_takes {s t : State} (h : srcRead s = .eos t ∨ ∃ b, srcRead s = .byte b t) :
    ∃ used, s.src.answers = used ++ t.src.answers ∧
      t.src.cursor = s.src.cursor + byteCount used ∧
      t.consumed = s.consumed + BitVec.ofNat 16 (byteCount used) := by
  obtain h | ⟨b, h⟩ := h
  · obtain ⟨-, rfl⟩ | ⟨_, -, ha, rfl⟩ := srcRead_eq_eos h
    · exact ⟨[], by simp [byteCount]⟩
    · exact ⟨[.eos], by simp [byteCount, ha]⟩
  · obtain ⟨_, -, ha, rfl⟩ := srcRead_eq_byte h
    exact ⟨[.byte b], by simp [byteCount, ha]⟩

/-- A transition is a readiness answer, a read, or neither, followed by updates of the block's own
registers. -/
theorem framePhase_source {s t : State} (h : framePhase s = .moved t) :
    ∃ s', t.src = s'.src ∧ t.consumed = s'.consumed ∧
      (s' = s ∨ (∃ n rest, s.src.readies = n :: rest ∧ s' = readReady rest s) ∨
        srcRead s = .eos s' ∨ ∃ b, srcRead s = .byte b s') := by
  obtain ⟨hp, ⟨_, rfl⟩ | ⟨n, rest, _, hr, ⟨_, rfl⟩ | ⟨_, rfl⟩⟩⟩ |
    ⟨hp, ⟨w, hw, rfl⟩ | ⟨b, w, hw, ⟨_, rfl⟩ | ⟨_, rfl⟩⟩⟩ |
    ⟨hp, ⟨w, hw, rfl⟩ | ⟨b, w, hw, ⟨_, rfl⟩ | ⟨_, _, rfl⟩⟩⟩ |
    ⟨hp, ⟨w, hw, rfl⟩ | ⟨b, w, hw, rfl⟩⟩ | ⟨hp, ⟨w, hw, rfl⟩ | ⟨b, w, hw, rfl⟩⟩ |
    ⟨hp, ⟨hlt, ⟨w, hw, rfl⟩ | ⟨b, w, hw, rfl⟩⟩ | ⟨_, rfl⟩⟩ | ⟨hp, rfl⟩ := framePhase_cases h
  all_goals first
    | exact ⟨w, rfl, rfl, .inr (.inr (.inl hw))⟩
    | exact ⟨w, rfl, rfl, .inr (.inr (.inr ⟨b, hw⟩))⟩
    | exact ⟨s, rfl, rfl, .inl rfl⟩
    | exact ⟨readReady rest s, rfl, rfl, .inr (.inl ⟨n, rest, hr, rfl⟩)⟩
    | (unfold phaseVerify; split <;> exact ⟨s, rfl, rfl, .inl rfl⟩)

/-- A transition takes some answers from the front, and moves the cursor and `CONSUMED` by the bytes among
them (20_memory.md rules R51 and R66). -/
theorem framePhase_takes {s t : State} (h : framePhase s = .moved t) :
    ∃ used, s.src.answers = used ++ t.src.answers ∧
      t.src.cursor = s.src.cursor + byteCount used ∧
      t.consumed = s.consumed + BitVec.ofNat 16 (byteCount used) := by
  obtain ⟨s', h1, h2, rfl | ⟨_, _, _, rfl⟩ | h3 | h3⟩ := framePhase_source h <;> rw [h1, h2]
  · exact ⟨[], by simp [byteCount]⟩
  · exact ⟨[], by simp [byteCount]⟩
  · exact srcRead_takes (.inl h3)
  · exact srcRead_takes (.inr h3)

/-- What every transition leaves unchanged. -/
theorem framePhase_frame {s t : State} (h : framePhase s = .moved t) :
    t.cfg = s.cfg ∧ t.host = s.host ∧ t.agenda = s.agenda ∧
      t.cmdOp = s.cmdOp ∧ t.cmdArg = s.cmdArg ∧ t.cmdLen = s.cmdLen := by
  obtain ⟨hp, ⟨_, rfl⟩ | ⟨n, rest, _, hr, ⟨_, rfl⟩ | ⟨_, rfl⟩⟩⟩ |
    ⟨hp, ⟨w, hw, rfl⟩ | ⟨b, w, hw, ⟨_, rfl⟩ | ⟨_, rfl⟩⟩⟩ |
    ⟨hp, ⟨w, hw, rfl⟩ | ⟨b, w, hw, ⟨_, rfl⟩ | ⟨_, _, rfl⟩⟩⟩ |
    ⟨hp, ⟨w, hw, rfl⟩ | ⟨b, w, hw, rfl⟩⟩ | ⟨hp, ⟨w, hw, rfl⟩ | ⟨b, w, hw, rfl⟩⟩ |
    ⟨hp, ⟨hlt, ⟨w, hw, rfl⟩ | ⟨b, w, hw, rfl⟩⟩ | ⟨_, rfl⟩⟩ | ⟨hp, rfl⟩ := framePhase_cases h
  all_goals first
    | (rw [(srcRead_frame (.inl hw)).1]; simp [truncated])
    | (rw [(srcRead_frame (.inr ⟨b, hw⟩)).1]; simp)
    | (unfold phaseVerify; split <;> simp)
    | simp

/-- The response is written exactly on the way into `IDLE`, with `CONSUMED` of the register (20_memory.md
rule R58). -/
theorem framePhase_response {s t : State} (h : framePhase s = .moved t) :
    (t.phase = .idle ∧ t.rspV = true ∧ t.rsp.consumed = t.consumed) ∨
      (t.phase ≠ .idle ∧ t.phase ≠ .exec ∧ t.phase ≠ .checkReady ∧ t.rspV = s.rspV ∧
        t.rsp = s.rsp) := by
  obtain ⟨hp, ⟨_, rfl⟩ | ⟨n, rest, _, hr, ⟨_, rfl⟩ | ⟨_, rfl⟩⟩⟩ |
    ⟨hp, ⟨w, hw, rfl⟩ | ⟨b, w, hw, ⟨_, rfl⟩ | ⟨_, rfl⟩⟩⟩ |
    ⟨hp, ⟨w, hw, rfl⟩ | ⟨b, w, hw, ⟨_, rfl⟩ | ⟨_, _, rfl⟩⟩⟩ |
    ⟨hp, ⟨w, hw, rfl⟩ | ⟨b, w, hw, rfl⟩⟩ | ⟨hp, ⟨w, hw, rfl⟩ | ⟨b, w, hw, rfl⟩⟩ |
    ⟨hp, ⟨hlt, ⟨w, hw, rfl⟩ | ⟨b, w, hw, rfl⟩⟩ | ⟨_, rfl⟩⟩ | ⟨hp, rfl⟩ := framePhase_cases h
  all_goals first
    | exact .inl ⟨rfl, rfl, rfl⟩
    | (unfold phaseVerify; split <;> exact .inl ⟨rfl, rfl, rfl⟩)
    | (rw [(srcRead_frame (.inr ⟨b, hw⟩)).1]; split <;> simp)
    | (rw [(srcRead_frame (.inr ⟨b, hw⟩)).1]; simp)
    | simp

end Sys2Proof.Machine
end

