-- ==== Sys2Proof/Laws/Block.lean ====
section
/-! SUPPORT. What the block does when it is its move: which of the four cases of `fetch` holds, everything
the EXEC phase can do, and how the transitions of `PHASE` taken one at a time follow an attempt
(10_state.md rule R32; 20_memory.md rules R57 to R59). -/

namespace Sys2Proof.Machine

theorem decode_eq_illegal {bytes rest : List Byte} {r : IllegalReason} {c : Command}
    (h : decode bytes = .error (.illegal r c rest)) :
    splitCommand bytes = some (c, rest) ∧ classify c.op c.arg c.len = .error r := by
  unfold decode at h
  split at h
  · cases h
  · split at h <;> cases h
    have hd := ‹decodeCommand c = .error r›
    unfold decodeCommand at hd
    split at hd <;> cases hd
    exact ⟨‹_›, ‹_›⟩

/-- A command is taken only by a ready block, and it is the one its bytes decode to. -/
theorem fetch_eq_run {s t : State} {i : Instr} (h : fetch s = .run i t) :
    Ready s ∧ ∃ rest, decode s.host.port = .ok (i, rest) ∧ t = setPort rest s := by
  unfold fetch at h
  split at h
  · cases h
  · split at h
    · cases h
    · split at h <;> cases h
      exact ⟨⟨not_not.1 ‹_›, by simpa using ‹¬s.rspV = true›⟩, _, ‹_›, rfl⟩

/-- So is an illegal one. -/
theorem fetch_eq_reject {s t : State} {c : Command} (h : fetch s = .reject c t) :
    Ready s ∧ ∃ r rest, decode s.host.port = .error (.illegal r c rest) ∧ t = setPort rest s := by
  unfold fetch at h
  split at h
  · cases h
  · split at h
    · cases h
    · split at h <;> cases h
      exact ⟨⟨not_not.1 ‹_›, by simpa using ‹¬s.rspV = true›⟩, _, _, ‹_›, rfl⟩

theorem fetch_eq_busy {s : State} : fetch s = .busy ↔ s.phase ≠ .idle := by
  unfold fetch
  split
  · simp_all
  · split
    · simp_all
    · split <;> simp_all

theorem fetch_of_pending {s : State} (hp : s.phase = .idle) (hv : s.rspV = true) :
    fetch s = .waits := by
  simp [fetch, hp, hv]

theorem fetch_of_ready {s : State} (hr : Ready s) {i : Instr} {rest : List Byte}
    (h : decode s.host.port = .ok (i, rest)) : fetch s = .run i (setPort rest s) := by
  simp [fetch, hr.1, hr.2, h]

theorem fetch_of_illegal {s : State} (hr : Ready s) {r : IllegalReason} {c : Command}
    {rest : List Byte} (h : decode s.host.port = .error (.illegal r c rest)) :
    fetch s = .reject c (setPort rest s) := by
  simp [fetch, hr.1, hr.2, h]

/-- The EXEC phase faults, or ends the command after updates of `TAG` and the accumulators only. -/
theorem execPhase_cases (s : State) :
    (∃ f, execPhase s = .fault f) ∨ ∃ o r t v x y,
      execPhase s = .next (raise o r { s with tag := t, tagV := v, accA := x, accB := y }) := by
  unfold execPhase
  split
  · exact .inl ⟨_, rfl⟩
  · simp only [decodeBody]
    split
    · exact .inr ⟨_, _, s.cmdArg, true, s.accA, s.accB, rfl⟩
    · split
      · exact .inr ⟨_, _, s.cmdArg, true, s.accA, s.accB, rfl⟩
      · split
        · exact .inl ⟨_, rfl⟩
        · exact .inr ⟨_, _, s.cmdArg, true, s.accA, s.accB, rfl⟩
  · exact .inr ⟨_, _, s.tag, s.tagV, _, _, rfl⟩
  · unfold cvtBody
    split
    · exact .inr ⟨_, _, s.tag, s.tagV, s.accA, s.accB, rfl⟩
    · split
      · exact .inl ⟨_, rfl⟩
      · exact .inr ⟨_, _, s.tag, s.tagV, s.accA, s.accB, rfl⟩
  · exact .inr ⟨_, _, s.tag, s.tagV, s.accA, s.accB, rfl⟩

/-- An accepted command is carried out by the frame reader or by the EXEC phase. -/
theorem exec_eq_phases {s : State} (hr : Ready s) (i : Instr) :
    exec i s = if i = .tryReadFrame then .next (runFrame frameFuel (accept i.command s))
      else execPhase (accept i.command s) := by
  rw [exec_of_ready hr]
  split
  · subst i
    rfl
  · rw [execPhase_of_form (f := i.form) (by simp)]
    cases i <;> simp_all [Instr.form]

/-- The frame reader is at work, or has just ended its attempt. -/
def InFrame (s : State) : Prop :=
  (s.phase ≠ .idle ∧ s.phase ≠ .exec) ∨ (s.phase = .idle ∧ s.rspV = true)

theorem inFrame_of_moved {s t : State} (h : framePhase s = .moved t) : InFrame t := by
  obtain ⟨h1, h2, -⟩ | ⟨h1, h2, -⟩ := framePhase_response h
  · exact .inr ⟨h1, h2⟩
  · exact .inl ⟨h1, h2⟩

theorem blockTurn_of_moved {s t : State} (h : framePhase s = .moved t) : blockTurn s = .next t := by
  have hp : s.phase ≠ .idle ∧ s.phase ≠ .exec := by
    constructor <;> intro hp <;> rw [framePhase, hp] at h <;> cases h
  simp only [blockTurn, fetch_eq_busy.2 hp.1, hp.2, if_false, h]

theorem blockTurn_of_waits {s : State} (hi : InFrame s) (h : framePhase s = .waits) :
    blockTurn s = .next s := by
  obtain ⟨h1, h2⟩ | ⟨h1, h2⟩ := hi
  · simp only [blockTurn, fetch_eq_busy.2 h1, h2, if_false, h]
  · simp only [blockTurn, fetch_of_pending h1 h2]

/-- A block that makes no transition makes none however often it is asked. -/
theorem blockTurns_of_stay {s : State} (h : blockTurn s = .next s) (n : Nat) :
    blockTurns n s = .next s := by
  induction n with
  | zero => rfl
  | succ n ih => simp only [blockTurns, h, ih]

/-- The transitions of an attempt one at a time. -/
theorem blockTurns_eq_runFrame (n : Nat) (s : State) (hi : InFrame s) :
    blockTurns n s = .next (runFrame n s) := by
  induction n generalizing s with
  | zero => rfl
  | succ n ih =>
    match h : framePhase s with
    | .waits => rw [runFrame_of_waits h, blockTurns_of_stay (blockTurn_of_waits hi h)]
    | .moved t =>
      rw [runFrame_succ_of_moved h, ← ih t (inFrame_of_moved h), blockTurns, blockTurn_of_moved h]

/-- The EXEC phase is one transition. -/
theorem blockTurns_exec {s : State} (hp : s.phase = .exec) (n : Nat) :
    blockTurns (n + 1) s = execPhase s := by
  have h : blockTurn s = execPhase s := by
    simp only [blockTurn, fetch_eq_busy.2 (by simp [hp] : s.phase ≠ .idle), hp, if_true]
  obtain ⟨f, hf⟩ | ⟨o, r, t, v, x, y, hn⟩ := execPhase_cases s
  · rw [blockTurns, h, hf]
  · rw [blockTurns, h, hn]
    exact blockTurns_of_stay (blockTurn_of_waits (.inr ⟨rfl, rfl⟩) rfl) n

end Sys2Proof.Machine
end

