-- ==== Sys2Proof/Laws/Deliver.lean ====
section
/-! SUPPORT. Answers of the source that come later change no transition already possible (20_memory.md rules
R52, R55 and R66). -/

namespace Sys2Proof.Machine

theorem srcRead_deliver_byte {s t : State} {b : Byte} (ys : List ReadAnswer) (zs : List Nat)
    (h : srcRead s = .byte b t) : srcRead (deliver ys zs s) = .byte b (deliver ys zs t) := by
  obtain ⟨rest, ha, hl, rfl⟩ := srcRead_eq_byte h
  have ha' : Answering (deliver ys zs s) := ha
  rw [srcRead_of_byte (b := b) (rest := rest ++ ys) ha' (by simp [deliver, hl])]
  rfl

theorem srcRead_deliver_eos {s t : State} (ys : List ReadAnswer) (zs : List Nat)
    (h : srcRead s = .eos t) : srcRead (deliver ys zs s) = .eos (deliver ys zs t) := by
  obtain ⟨hn, rfl⟩ | ⟨rest, ha, hl, rfl⟩ := srcRead_eq_eos h
  · exact srcRead_of_exhausted (s := deliver ys zs t) hn
  · have ha' : Answering (deliver ys zs s) := ha
    rw [srcRead_of_eos (rest := rest ++ ys) ha' (by simp [deliver, hl])]
    rfl

theorem srcReady_deliver {s : State} {n : Nat} {rest : List Nat} (ys : List ReadAnswer)
    (zs : List Nat) (h : s.src.readies = n :: rest) :
    srcReady (deliver ys zs s) = some (n, deliver ys zs (readReady rest s)) := by
  simp only [srcReady, deliver, h]
  rfl

/-- The same transition, with more answers waiting behind it. -/
theorem framePhase_deliver {s t : State} (ys : List ReadAnswer) (zs : List Nat)
    (h : framePhase s = .moved t) : framePhase (deliver ys zs s) = .moved (deliver ys zs t) := by
  obtain ⟨hp, ⟨hk, rfl⟩ | ⟨n, rest, hk, hr, ⟨hn, rfl⟩ | ⟨hn, rfl⟩⟩⟩ |
    ⟨hp, ⟨w, hw, rfl⟩ | ⟨b, w, hw, ⟨hb, rfl⟩ | ⟨hb, rfl⟩⟩⟩ |
    ⟨hp, ⟨w, hw, rfl⟩ | ⟨b, w, hw, ⟨hb, rfl⟩ | ⟨_, hb, rfl⟩⟩⟩ |
    ⟨hp, ⟨w, hw, rfl⟩ | ⟨b, w, hw, rfl⟩⟩ | ⟨hp, ⟨w, hw, rfl⟩ | ⟨b, w, hw, rfl⟩⟩ |
    ⟨hp, ⟨hlt, ⟨w, hw, rfl⟩ | ⟨b, w, hw, rfl⟩⟩ | ⟨hnl, rfl⟩⟩ | ⟨hp, rfl⟩ := framePhase_cases h
  all_goals
    have hp' : (deliver ys zs s).phase = s.phase := rfl
    rw [framePhase, hp', hp]
  · simp [phaseCheckReady, hk]
    rfl
  · simp [phaseCheckReady, hk, srcReady_deliver ys zs hr, hn]
    rfl
  · simp [phaseCheckReady, hk, srcReady_deliver ys zs hr, hn]
    rfl
  · simp [phaseReadSync, srcRead_deliver_eos ys zs hw]
    rfl
  · have hc : w.cfg = s.cfg := by rw [(srcRead_frame (.inr ⟨b, hw⟩)).1]
    simp [phaseReadSync, srcRead_deliver_byte ys zs hw, hc, hb]
    rfl
  · have hc : w.cfg = s.cfg := by rw [(srcRead_frame (.inr ⟨b, hw⟩)).1]
    simp [phaseReadSync, srcRead_deliver_byte ys zs hw, hc, hb]
    rfl
  · simp [phaseReadTag, srcRead_deliver_eos ys zs hw]
    rfl
  · have hc : w.cfg = s.cfg := by rw [(srcRead_frame (.inr ⟨b, hw⟩)).1]
    simp [phaseReadTag, srcRead_deliver_byte ys zs hw, hc, hb]
    rfl
  · have hc : w.cfg = s.cfg := by rw [(srcRead_frame (.inr ⟨b, hw⟩)).1]
    simp [phaseReadTag, srcRead_deliver_byte ys zs hw, hc, hb]
    rfl
  · simp [phaseReadCkA, srcRead_deliver_eos ys zs hw]
    rfl
  · simp [phaseReadCkA, srcRead_deliver_byte ys zs hw]
    rfl
  · simp [phaseReadCkB, srcRead_deliver_eos ys zs hw]
    rfl
  · simp [phaseReadCkB, srcRead_deliver_byte ys zs hw]
    rfl
  · simp [phaseReadPayload, srcRead_deliver_eos ys zs hw, hlt]
    rfl
  · simp [phaseReadPayload, srcRead_deliver_byte ys zs hw, hlt]
    rfl
  · simp [phaseReadPayload, hnl]
    rfl
  · have hm : checksumMatches (deliver ys zs s) = checksumMatches s := rfl
    simp only [phaseVerify, hm]
    cases checksumMatches s <;> rfl

/-- An attempt with the answers from the start, or from any of its transitions on. -/
theorem runFrame_deliver (n : Nat) (s : State) (ys : List ReadAnswer) (zs : List Nat) :
    runFrame frameFuel (deliver ys zs s) =
      runFrame frameFuel (deliver ys zs (runFrame n s)) := by
  induction n generalizing s with
  | zero => rfl
  | succ n ih =>
    match h : framePhase s with
    | .waits => rw [runFrame_of_waits h]
    | .moved t =>
      rw [runFrame_succ_of_moved h, ← ih t, runFrame_moved (framePhase_deliver ys zs h)]

end Sys2Proof.Machine
end

