-- ==== Sys2Proof/Laws/HostPrograms.lean ====
section
/-! SUPPORT. What a call of the host can answer (70_reset_and_hazards.md rule R212), and POLL, READ_PACKET
and runs of attempts one call at a time. -/

namespace Sys2Proof.Machine

/-- Everything a call that is answered says: the block was ready, the command ended with that response,
and it is taken. -/
theorem hostCall_eq_some {i : Instr} {s : State} {p : Response × State} (h : hostCall i s = some p) :
    Ready s ∧ ∃ t, exec i s = .next t ∧ t.rspV = true ∧ p = (t.rsp, takeResponse t) := by
  unfold hostCall at h
  split at h
  · next hc =>
    refine ⟨(ready_iff s).2 hc, ?_⟩
    split at h
    · next t he =>
      split at h
      · next hv => exact ⟨t, he, hv, (Option.some.inj h).symm⟩
      · cases h
    · cases h
    · cases h
  · cases h

/-- A call on a ready block whose command ends. -/
theorem hostCall_of_exec {i : Instr} {s t : State} (hr : Ready s) (he : exec i s = .next t)
    (hv : t.rspV = true) : hostCall i s = some (t.rsp, takeResponse t) := by
  simp [hostCall, (ready_iff s).1 hr, he, hv]

@[simp] theorem poll_zero (s : State) : poll 0 s = none := rfl

theorem poll_succ (n : Nat) (s : State) :
    poll (n + 1) s = (hostCall .tryReadFrame s).bind fun p =>
      if p.1.outcome = .noDataAvailable then poll n p.2 else some p := by
  rw [poll]
  cases hostCall .tryReadFrame s <;> rfl

@[simp] theorem attempts_zero (s : State) : attempts 0 s = some ([], s) := rfl

theorem attempts_succ (n : Nat) (s : State) :
    attempts (n + 1) s = (hostCall .tryReadFrame s).bind fun p =>
      (attempts n p.2).map fun q => (p.1 :: q.1, q.2) := by
  rw [attempts]
  cases hostCall .tryReadFrame s <;> rfl

theorem readPacket_eq (n : Nat) (s : State) :
    readPacket n s = (poll n s).bind fun p =>
      if p.1.outcome = .ok then hostCall (.decodeRecord p.1.tag p.1.payload) p.2 else some p := by
  rw [readPacket]
  cases poll n s <;> rfl

end Sys2Proof.Machine
end

