-- ==== Sys2Proof/Laws/PerInstr.lean ====
section
/-! SUPPORT. What is said of every instruction, one lemma per constructor. The family `TableRow` says that
the header word of an instruction's encoding is in its row of spec/opcode_table.json (30_encoding.md rules
R84 and R85). -/

namespace Sys2Proof.Laws.TableRow

/-- `match` and `mask` of an instruction's row of spec/opcode_table.json. -/
def row : Instr → Half × Half
  | .tryReadFrame => (0x0001, 0xFFFF)
  | .decodeRecord _ _ => (0x0002, 0x00FF)
  | .checksum _ => (0x0003, 0xFFFF)
  | .cvtU8 _ => (0x0004, 0xFFFF)
  | .cvtU16 _ => (0x0104, 0xFFFF)
  | .cvtU32 _ => (0x0204, 0xFFFF)
  | .cvtI16 _ => (0x0304, 0xFFFF)
  | .cvtI32 _ => (0x0404, 0xFFFF)
  | .cvtF32 _ => (0x0504, 0xFFFF)

/-- The header word is in the row, and the encoding is its two bytes, the data length and the data. -/
def Statement (i : Instr) : Prop :=
  i.command.header &&& (row i).2 = (row i).1 ∧
    encode i = i.command.op :: i.command.arg :: lenByte i.data :: i.data

theorem tryReadFrame : Statement .tryReadFrame := ⟨rfl, rfl⟩

theorem decodeRecord (t : Byte) (data : List Byte) : Statement (.decodeRecord t data) := by
  refine ⟨?_, rfl⟩
  simp only [Instr.command, Command.header, row]
  revert t
  decide

theorem checksum (data : List Byte) : Statement (.checksum data) :=
  ⟨by simp [Instr.command, Command.header, row], rfl⟩

theorem cvtU8 (data : List Byte) : Statement (.cvtU8 data) :=
  ⟨by simp [Instr.command, Command.header, row], rfl⟩

theorem cvtU16 (data : List Byte) : Statement (.cvtU16 data) :=
  ⟨by simp [Instr.command, Command.header, row], rfl⟩

theorem cvtU32 (data : List Byte) : Statement (.cvtU32 data) :=
  ⟨by simp [Instr.command, Command.header, row], rfl⟩

theorem cvtI16 (data : List Byte) : Statement (.cvtI16 data) :=
  ⟨by simp [Instr.command, Command.header, row], rfl⟩

theorem cvtI32 (data : List Byte) : Statement (.cvtI32 data) :=
  ⟨by simp [Instr.command, Command.header, row], rfl⟩

theorem cvtF32 (data : List Byte) : Statement (.cvtF32 data) :=
  ⟨by simp [Instr.command, Command.header, row], rfl⟩

end Sys2Proof.Laws.TableRow
end

