-- ==== Sys2Proof/Laws/Registry.lean ====
section
/-! SUPPORT. Lookup, the checks of construction, and the registry they build (10_state.md rules R25 to R30;
70_reset_and_hazards.md rule R203). -/

namespace Sys2Proof.Machine

/-- What is looked up is in the list. -/
theorem lookup_mem {r : Registry} {t : Byte} {spec : PacketSpec} (h : lookup r t = some spec) :
    (t, spec) ∈ r := by
  induction r with
  | nil => cases h
  | cons e r ih =>
    obtain ⟨t', spec'⟩ := e
    simp only [lookup] at h
    split at h
    · cases h
      simp [‹t' = t›]
    · exact List.mem_cons_of_mem _ (ih h)

/-- A tag that is not listed is not registered. -/
theorem lookup_eq_none {r : Registry} {t : Byte} (h : ∀ e ∈ r, e.1 ≠ t) : lookup r t = none := by
  induction r with
  | nil => rfl
  | cons e r ih =>
    obtain ⟨t', spec'⟩ := e
    rw [lookup, if_neg (h (t', spec') (by simp))]
    exact ih fun e he => h e (by simp [he])

/-- A registered spec of a legal registry meets the registry invariant (10_state.md rule R27). -/
theorem lookup_legal {r : Registry} (hr : registryLegal r = true) {t : Byte} {spec : PacketSpec}
    (h : lookup r t = some spec) : widthSum spec.layout = spec.payloadLength.toNat := by
  have := (List.all_eq_true.1 (Bool.and_eq_true_iff.1 hr).2) _ (lookup_mem h)
  simpa [specLegal] using this

/-- The kinds read from descriptor bytes are those the bytes are the descriptors of. -/
theorem layoutKinds_eq_some {bs : List Byte} {ks : List Kind} :
    layoutKinds bs = some ks ↔ bs = ks.map Kind.descriptor := by
  induction bs generalizing ks with
  | nil => cases ks <;> simp [layoutKinds]
  | cons b bs ih =>
    cases ks with
    | nil =>
      simp only [layoutKinds]
      split <;> simp
    | cons k ks =>
      simp only [layoutKinds, List.map_cons, List.cons.injEq, ← descriptorKind_eq_some, ← ih]
      split <;> simp_all

/-- A spec passes the checks exactly when it is legal, and is then kept as it is. -/
theorem checkSpec_eq_some {r : RawSpec} {spec : PacketSpec} : checkSpec r = some spec ↔
    r.payloadLength ≤ 255 ∧ r.descriptors = spec.layout.map Kind.descriptor ∧
      widthSum spec.layout = r.payloadLength ∧ spec.payloadLength.toNat = r.payloadLength := by
  unfold checkSpec
  split
  · rename_i ks hk
    have hk' := layoutKinds_eq_some.1 hk
    split
    · rename_i hl
      simp only [maxPayloadLen] at hl
      constructor
      · intro h
        cases h
        exact ⟨hl.1, hk', hl.2, by simp; omega⟩
      · rintro ⟨-, hd, -, hp⟩
        have hks : ks = spec.layout := Option.some.inj (hk.symm.trans (layoutKinds_eq_some.2 hd))
        obtain ⟨p, layout⟩ := spec
        simp only at hks hp
        rw [hks, ← hp]
        simp
    · rename_i hl
      simp only [maxPayloadLen] at hl
      simp only [reduceCtorEq, false_iff, not_and]
      intro h1 hd h2
      have hks : ks = spec.layout := Option.some.inj (hk.symm.trans (layoutKinds_eq_some.2 hd))
      exact absurd ⟨h1, hks ▸ h2⟩ hl
  · rename_i hk
    simp only [reduceCtorEq, false_iff, not_and]
    intro _ hd
    rw [layoutKinds_eq_some.2 hd] at hk
    cases hk

/-- A spec fails the checks exactly when it is not legal. -/
theorem checkSpec_isNone {r : RawSpec} : (checkSpec r).isNone = true ↔ ¬RawLegal r := by
  rw [Option.isNone_iff_eq_none, Option.eq_none_iff_forall_ne_some]
  constructor
  · rintro h ⟨hp, ks, hd, hw⟩
    exact h ⟨BitVec.ofNat 8 r.payloadLength, ks⟩
      (checkSpec_eq_some.2 ⟨hp, hd, hw, by simp; omega⟩)
  · intro h spec hs
    obtain ⟨hp, hd, hw, -⟩ := checkSpec_eq_some.1 hs
    exact h ⟨hp, spec.layout, hd, hw⟩

theorem failingTag_iff {raw : RawCfg} {t : Byte} : failingTag raw t = true ↔ FailsAt raw t := by
  unfold failingTag FailsAt
  split
  · rename_i r hr
    rw [checkSpec_isNone]
    simp [hr]
  · rename_i hr
    simp [hr]

theorem mem_allTags (t : Byte) : t ∈ allTags := by
  have := t.isLt
  exact List.mem_map.2 ⟨t.toNat, List.mem_range.2 (by omega), by simp⟩

/-- The tags come lowest first. -/
theorem allTags_sorted : allTags.Pairwise (·.toNat < ·.toNat) := by
  refine List.pairwise_map.2 (List.pairwise_lt_range.imp_of_mem fun {a b} ha hb h => ?_)
  have := List.mem_range.1 ha
  have := List.mem_range.1 hb
  simp only [BitVec.toNat_ofNat]
  omega

/-- Lookup in a registry built tag by tag. -/
theorem lookup_filterMap (f : Byte → Option PacketSpec) (ts : List Byte) (t : Byte) :
    lookup (ts.filterMap fun u => (f u).map fun spec => (u, spec)) t =
      if t ∈ ts then f t else none := by
  induction ts with
  | nil => rfl
  | cons u ts ih =>
    by_cases hu : u = t
    · subst hu
      cases hf : f u with
      | none =>
        rw [List.filterMap_cons_none (by simp [hf]), ih]
        simp [hf]
      | some spec =>
        rw [List.filterMap_cons_some (b := (u, spec)) (by simp [hf])]
        simp [lookup]
    · cases hf : f u with
      | none =>
        rw [List.filterMap_cons_none (by simp [hf]), ih]
        simp [Ne.symm hu]
      | some spec =>
        rw [List.filterMap_cons_some (b := (u, spec)) (by simp [hf]), lookup, if_neg hu, ih]
        simp [Ne.symm hu]

/-- The registry of a checked configuration maps every tag to its checked spec. -/
theorem lookup_checkedCfg (raw : RawCfg) (t : Byte) :
    lookup (checkedCfg raw).registry t = checkedSpec raw t := by
  rw [checkedCfg, lookup_filterMap, if_pos (mem_allTags t)]

/-- The registry of a checked configuration is legal. -/
theorem checkedCfg_legal (raw : RawCfg) : registryLegal (checkedCfg raw).registry = true := by
  rw [registryLegal, Bool.and_eq_true, decide_eq_true_iff, List.all_eq_true]
  constructor
  · rw [List.pairwise_map]
    refine List.Pairwise.filterMap _ ?_ allTags_sorted
    intro a b hab x hx y hy
    obtain ⟨_, _, rfl⟩ := Option.map_eq_some_iff.1 hx
    obtain ⟨_, _, rfl⟩ := Option.map_eq_some_iff.1 hy
    exact hab
  · intro e he
    obtain ⟨t, -, ht⟩ := List.mem_filterMap.1 he
    obtain ⟨spec, hs, rfl⟩ := Option.map_eq_some_iff.1 ht
    obtain ⟨r, -, hr⟩ := Option.bind_eq_some_iff.1 hs
    obtain ⟨-, -, hw, hp⟩ := checkSpec_eq_some.1 hr
    simp [specLegal, hw, hp]

end Sys2Proof.Machine
end

