-- ==== Sys2Proof/Laws/RunEnd.lean ====
section
/-! SUPPORT. What the host still offers (70_reset_and_hazards.md rule R215). -/

namespace Sys2Proof.Machine

@[simp] theorem bytesOffered_offer (bytes : List Byte) :
    (Turn.host (.offer bytes)).bytesOffered = bytes := rfl
@[simp] theorem bytesOffered_take : (Turn.host .take).bytesOffered = [] := rfl
@[simp] theorem bytesOffered_reset : (Turn.host .reset).bytesOffered = [] := rfl
@[simp] theorem bytesOffered_source (a : SourceAction) : (Turn.source a).bytesOffered = [] := rfl
@[simp] theorem bytesOffered_block : Turn.block.bytesOffered = [] := rfl

theorem stillOffered_eq_nil (s : State) :
    stillOffered s = [] ↔ s.host.port = [] ∧ ∀ a ∈ s.agenda, a.bytesOffered = [] := by
  simp [stillOffered]

end Sys2Proof.Machine
end

