-- ==== Sys2Proof/Tests/Slice0.lean ====
section
/-! SUPPORT. The model's own tests, and a witness for the hypotheses of every obligation that has some.
Expected results are those of the spec: 30_encoding.md rules R84 to R91 for words, 95_test_vectors.md for
results (the vector is named at each test). -/

namespace Sys2Proof.Tests

open Sys2Proof.Machine

/-! ## WellFormed refuses what does not fit `LEN` (R84, R85) -/

/-- 256 bytes, one too many. -/
def tooLong : List Byte := List.replicate 256 0

theorem test_wellFormed_refuses_long_data :
    ¬(Instr.decodeRecord 3 tooLong).WellFormed ∧ ¬(Instr.checksum tooLong).WellFormed ∧
      ¬(Instr.cvtU8 tooLong).WellFormed ∧ ¬(Instr.cvtU16 tooLong).WellFormed ∧
      ¬(Instr.cvtU32 tooLong).WellFormed ∧ ¬(Instr.cvtI16 tooLong).WellFormed ∧
      ¬(Instr.cvtI32 tooLong).WellFormed ∧ ¬(Instr.cvtF32 tooLong).WellFormed := by decide +kernel

theorem test_wellFormed_refuses_wrong_len : ¬(Command.mk 0x03 0x00 0x02 [0x01]).WellFormed := by
  decide

theorem test_wellFormed_accepts_255 : (Instr.checksum (List.replicate 255 0)).WellFormed := by
  decide +kernel

/-! ## Decoding: bytes written out bit by bit (R85, R88, R89) -/

theorem test_decode_tryReadFrame :
    decode [0b00000001, 0b00000000, 0b00000000] = .ok (.tryReadFrame, []) := by decide

theorem test_decode_decode :
    decode [0b00000010, 0b10101010, 0b00000001, 0b00010000] =
      .ok (.decodeRecord 0xAA [0x10], []) := by decide

theorem test_decode_checksum :
    decode [0b00000011, 0b00000000, 0b00000011, 0x01, 0x02, 0x03, 0x99] =
      .ok (.checksum [0x01, 0x02, 0x03], [0x99]) := by decide

theorem test_decode_cvtU8 :
    decode [0b00000100, 0b00000000, 0b00000001, 0xFF] = .ok (.cvtU8 [0xFF], []) := by decide

theorem test_decode_cvtU16 :
    decode [0b00000100, 0b00000001, 0b00000010, 0x34, 0x12] = .ok (.cvtU16 [0x34, 0x12], []) := by
  decide

theorem test_decode_cvtU32 :
    decode [0b00000100, 0b00000010, 0b00000100, 0x2A, 0, 0, 0] =
      .ok (.cvtU32 [0x2A, 0, 0, 0], []) := by decide

theorem test_decode_cvtI16 :
    decode [0b00000100, 0b00000011, 0b00000010, 0xFE, 0xFF] = .ok (.cvtI16 [0xFE, 0xFF], []) := by
  decide

theorem test_decode_cvtI32 :
    decode [0b00000100, 0b00000100, 0b00000100, 0x60, 0x79, 0xFE, 0xFF] =
      .ok (.cvtI32 [0x60, 0x79, 0xFE, 0xFF], []) := by decide

theorem test_decode_cvtF32 :
    decode [0b00000100, 0b00000101, 0b00000100, 0, 0, 0x80, 0x3F] =
      .ok (.cvtF32 [0, 0, 0x80, 0x3F], []) := by decide

/-- Rejection by name, one header for each part of R87. -/
theorem test_classify_rejects :
    classify 0x00 0 0 = .error .opcode ∧ classify 0x05 0 0 = .error .opcode ∧
      classify 0xFF 0 0 = .error .opcode ∧ classify 0x01 1 0 = .error .tryReadFrameArg ∧
      classify 0x01 0 1 = .error .tryReadFrameLen ∧ classify 0x03 0x80 0 = .error .checksumArg ∧
      classify 0x04 0x06 1 = .error .descriptor ∧ classify 0x04 0x07 4 = .error .descriptor ∧
      classify 0x04 0x08 1 = .error .descriptor ∧ classify 0x04 0x10 1 = .error .descriptor := by
  decide

theorem test_decode_waits_for_the_whole_command :
    decode [0x03, 0x00] = .error .incomplete ∧ decode [0x03, 0x00, 0x02, 0x01] = .error .incomplete := by
  decide

/-- A row of spec/opcode_table.json. -/
structure Row where
  pattern : Half
  mask : Half
  deriving DecidableEq, Repr

/-- spec/opcode_table.json, `match` and `mask`, in its order. -/
def opcodeTable : List Row :=
  [⟨0x0001, 0xFFFF⟩, ⟨0x0002, 0x00FF⟩, ⟨0x0003, 0xFFFF⟩, ⟨0x0004, 0xFFFF⟩, ⟨0x0104, 0xFFFF⟩,
    ⟨0x0204, 0xFFFF⟩, ⟨0x0304, 0xFFFF⟩, ⟨0x0404, 0xFFFF⟩, ⟨0x0504, 0xFFFF⟩]

/-- No two rows of the table overlap. -/
theorem test_table_rows_disjoint :
    opcodeTable.Pairwise fun r q => r.pattern &&& q.mask ≠ q.pattern &&& r.mask := by decide

/-- Each row's word, its operand bits 0, decodes. -/
theorem test_table_words_decode :
    (opcodeTable.map fun r => decodeTableWord 16 r.pattern.toNat) =
      [some .tryReadFrame, some (.decodeRecord 0 []), some (.checksum []), some (.cvtU8 []),
        some (.cvtU16 []), some (.cvtU32 []), some (.cvtI16 []), some (.cvtI32 []),
        some (.cvtF32 [])] := by decide +kernel

/-! ## The test configuration CFG_T (95_test_vectors.md) -/

/-- CFG_T as a deployment supplies it. -/
def rawT (kind : SourceKind) : RawCfg :=
  { syncByte := 0xAA
    sourceKind := kind
    readyThreshold := 4
    registry := fun t =>
      if t = 0x01 then some gpsRaw
      else if t = 0x03 then some ⟨3, [0, 0, 0]⟩
      else if t = 0x04 then some ⟨0, []⟩
      else if t = 0x05 then some ⟨13, [1, 3, 4, 5, 0]⟩
      else if t = 0xAA then some ⟨1, [0]⟩
      else none }

/-- CFG_T, checked. -/
def cfgT (kind : SourceKind) : Cfg :=
  { syncByte := 0xAA
    sourceKind := kind
    readyThreshold := 4
    registry :=
      [(0x01, gpsSpec), (0x03, ⟨3, [.u8, .u8, .u8]⟩), (0x04, ⟨0, []⟩),
        (0x05, ⟨13, [.u16, .i16, .i32, .f32, .u8]⟩), (0xAA, ⟨1, [.u8]⟩)] }

theorem test_cfgT_passes_construction :
    checkedCfg (rawT .file) = cfgT .file ∧ registryLegal (cfgT .file).registry = true := by
  decide +kernel

/-- L1.5: the lowest failing tag is named. -/
theorem test_construction_error :
    construct { rawT .file with
      registry := fun t =>
        if t = 0x10 then some ⟨2, [0]⟩ else if t = 0x01 then some ⟨52, gpsRaw.descriptors⟩ else none } =
      .error ⟨0x01⟩ := by
  decide +kernel

/-- A ready block on a FILE source that answers these and then nothing yet. -/
def onFile (answers : List ReadAnswer) : State :=
  { State.constructed (cfgT .file) with
    src := { cursor := 0, exhausted := false, answers := answers, readies := [] } }

/-- A ready block on a streamed source. -/
def onStream (readies : List Nat) (answers : List ReadAnswer) : State :=
  { State.constructed (cfgT .streamed) with
    src := { cursor := 0, exhausted := false, answers := answers, readies := readies } }

/-- Answers that are all bytes. -/
def bytesOf (bytes : List Byte) : List ReadAnswer := bytes.map .byte

/-- The frame of vector L1.6, `TRIPLE_OK`. -/
def tripleFrame : List Byte := [0xAA, 0x03, 0x06, 0x0A, 0x01, 0x02, 0x03]

/-- The payload `MIX_P`. -/
def mixPayload : List Byte :=
  [0x34, 0x12, 0xFE, 0xFF, 0x60, 0x79, 0xFE, 0xFF, 0x00, 0x00, 0xC0, 0x3F, 0xFE]

/-- The response of one command, none while it holds. -/
def answerOf (i : Instr) (s : State) : Option Response := (hostCall i s).map (·.1)

/-- The state after one command, itself where it stops. -/
def stateAfter (i : Instr) (s : State) : State :=
  match exec i s with
  | .next t => t
  | .fault _ => s
  | .refused _ => s

/-- The command ends in a next state. -/
def runs (i : Instr) (s : State) : Bool :=
  match exec i s with
  | .next _ => true
  | .fault _ => false
  | .refused _ => false

theorem exec_stateAfter {i : Instr} {s : State} (h : runs i s = true) :
    exec i s = .next (stateAfter i s) := by
  unfold runs at h
  unfold stateAfter
  split at h <;> simp_all

/-! ## One command each -/

/-- L1.6. -/
theorem test_tryReadFrame_ok :
    answerOf .tryReadFrame (onFile (bytesOf tripleFrame)) = some { Response.cleared with
      tagV := true, tag := 0x03, consumed := 7, ckV := true, rxA := 0x06, rxB := 0x0A, calcA := 0x06,
      calcB := 0x0A, plen := 3, payload := [0x01, 0x02, 0x03] } := by decide +kernel

/-- L1.7 with `d = 1`. -/
theorem test_tryReadFrame_mismatch :
    answerOf .tryReadFrame (onFile (bytesOf [0xAA, 0x03, 0x06, 0x0B, 0x01, 0x02, 0x03])) =
      some { Response.cleared with
        outcome := .checksumMismatch, tagV := true, tag := 0x03, consumed := 7, ckV := true,
        rxA := 0x06, rxB := 0x0B, calcA := 0x06, calcB := 0x0A } := by decide +kernel

/-- L1.4: five kinds, one layout. -/
theorem test_decode_mix :
    answerOf (.decodeRecord 0x05 mixPayload) (onFile []) = some { Response.cleared with
      tagV := true, tag := 0x05, nf := 5
      fields := [⟨.u16, 0x00001234⟩, ⟨.i16, 0xFFFFFFFE⟩, ⟨.i32, 0xFFFE7960⟩, ⟨.f32, 0x3FC00000⟩,
        ⟨.u8, 0x000000FE⟩] } := by decide +kernel

/-- L1.2, rejected reading: 52 bytes for the 48-byte layout. -/
theorem test_decode_gps_52 :
    answerOf (.decodeRecord 0x01 (0x2A :: List.replicate 51 0)) (onFile []) =
      some { Response.cleared with outcome := .layoutMismatch, tagV := true, tag := 0x01 } := by
  decide +kernel

/-- L1.1. -/
theorem test_checksum_known :
    answerOf (.checksum [0x01, 0x02, 0x03]) (onFile []) =
      some { Response.cleared with ckV := true, calcA := 0x06, calcB := 0x0A } := by decide +kernel

/-- K7, both sums wrap. -/
theorem test_checksum_wraps :
    answerOf (.checksum [0x80, 0x80]) (onFile []) =
      some { Response.cleared with ckV := true, calcA := 0x00, calcB := 0x80 } := by decide +kernel

/-- The examples of 42_deserializer.md rules R152 to R157. -/
theorem test_cvtU8 : answerOf (.cvtU8 [0xFF]) (onFile []) =
    some { Response.cleared with nf := 1, fields := [⟨.u8, 0x000000FF⟩] } := by decide +kernel

theorem test_cvtU16 : answerOf (.cvtU16 [0x00, 0x80]) (onFile []) =
    some { Response.cleared with nf := 1, fields := [⟨.u16, 0x00008000⟩] } := by decide +kernel

theorem test_cvtU32 : answerOf (.cvtU32 [0x2A, 0x00, 0x00, 0x00]) (onFile []) =
    some { Response.cleared with nf := 1, fields := [⟨.u32, 0x0000002A⟩] } := by decide +kernel

theorem test_cvtI16 : answerOf (.cvtI16 [0x00, 0x80]) (onFile []) =
    some { Response.cleared with nf := 1, fields := [⟨.i16, 0xFFFF8000⟩] } := by decide +kernel

theorem test_cvtI32 : answerOf (.cvtI32 [0x60, 0x79, 0xFE, 0xFF]) (onFile []) =
    some { Response.cleared with nf := 1, fields := [⟨.i32, 0xFFFE7960⟩] } := by decide +kernel

theorem test_cvtF32 : answerOf (.cvtF32 [0x01, 0x00, 0xC0, 0x7F]) (onFile []) =
    some { Response.cleared with nf := 1, fields := [⟨.f32, 0x7FC00001⟩] } := by decide +kernel

/-- A word of 16 bits runs as the first instruction after reset (log 15). -/
theorem test_withFetchWord_runs :
    (match step (State.reset.withFetchWord 16 0x0003) with
      | .next t => some (t.cmdOp, t.rspV, t.rsp.outcome, t.host.port)
      | .fault _ => none
      | .refused _ => none) = some (0x03, true, .ok, []) := by decide +kernel

/-- 1.5 is the value of the f32 lane of L1.4. -/
theorem test_f32_real : (f32Datum 0x3FC00000).real = some (12582912, -23) := by decide +kernel

/-! ## Witnesses

One for each obligation with hypotheses, meeting all of them together; where a statement has several
clauses, one for each. -/

theorem witness_DecodeOfEncodeIsIdentity :
    (Instr.decodeRecord 0x05 mixPayload).WellFormed ∧ Instr.tryReadFrame.WellFormed ∧
      (Instr.checksum (List.replicate 255 0)).WellFormed ∧ (Instr.cvtF32 []).WellFormed := by
  decide +kernel

theorem witness_DecodedBytesAreTheEncoding :
    decode [0x03, 0x00, 0x01, 0x10, 0x02] = .ok (.checksum [0x10], [0x02]) := by decide

/-- A block in a phase of the frame reader. -/
def inPhase (p : Phase) (specLen idx : Byte) (answers : List ReadAnswer) : State :=
  { onFile answers with phase := p, specLen := specLen, idx := idx }

/-- A ready block with a command on the port. -/
def offered (bytes : List Byte) : State := setPort bytes (onFile (bytesOf tripleFrame))

theorem witness_StepRunsDecodedInstruction :
    (offered [0x01, 0x00, 0x00, 0x09]).agenda = [] ∧ Ready (offered [0x01, 0x00, 0x00, 0x09]) ∧
      decode (offered [0x01, 0x00, 0x00, 0x09]).host.port = .ok (.tryReadFrame, [0x09]) := by decide

/-- The other clauses: a command held, and a turn of the block. -/
theorem witness_StepRunsDecodedInstruction_busy :
    (inPhase .readSync 0 0 []).agenda = [] ∧ (inPhase .readSync 0 0 []).phase ≠ .idle ∧
      (setAgenda [.block] (offered [])).agenda = .block :: [] := by decide

theorem witness_IllegalCommandAnswer :
    (offered [0x05, 0x00, 0x01, 0x10]).agenda = [] ∧ Ready (offered [0x05, 0x00, 0x01, 0x10]) ∧
      (offered [0x05, 0x00, 0x01, 0x10]).host.port = 0x05 :: 0x00 :: 0x01 :: ([0x10] ++ []) ∧
      [(0x10 : Byte)].length = (0x01 : Byte).toNat ∧ IllegalHeader 0x05 0x00 0x01 := by decide

/-- One illegal header for each part of the rule. -/
theorem witness_IllegalHeader :
    (IllegalHeader 0x00 0x00 0x00 ∧ IllegalHeader 0x05 0x00 0x00 ∧ IllegalHeader 0xFF 0x00 0x00) ∧
      (IllegalHeader 0x01 0x01 0x00 ∧ IllegalHeader 0x01 0x00 0x01 ∧ IllegalHeader 0x03 0x01 0x00) ∧
      IllegalHeader 0x04 0x10 0x01 ∧ IllegalHeader 0x04 0x08 0x01 ∧ IllegalHeader 0x04 0x06 0x01 ∧
      IllegalHeader 0x04 0x07 0x01 := by
  refine ⟨⟨?_, ?_, ?_⟩, ⟨?_, ?_, ?_⟩, ?_, ?_, ?_, ?_⟩ <;> decide

theorem witness_AcceptanceLatchesAndClears :
    Ready (offered [0x03, 0x00, 0x01, 0x10, 0x02]) ∧ (Command.mk 0x03 0x00 0x01 [0x10]).WellFormed ∧
      (offered [0x03, 0x00, 0x01, 0x10, 0x02]).host.port =
        (Command.mk 0x03 0x00 0x01 [0x10]).bytes ++ [0x02] ∧
      Ready (offered [0x01, 0x00, 0x00]) ∧ (Command.mk 0x01 0x00 0x00 []).WellFormed ∧
      (offered [0x01, 0x00, 0x00]).host.port = (Command.mk 0x01 0x00 0x00 []).bytes ++ [] := by decide

/-- An attempt that holds at the sync byte, and a block whose response is pending. -/
def holding : State := stateAfter .tryReadFrame (onFile [])
def pending : State := stateAfter (.checksum []) (onFile [])

theorem witness_OfferHoldsUntilReady :
    holding.agenda = [] ∧ ¬Ready holding ∧ step holding = .next holding ∧ holding.phase = .readSync ∧
      pending.agenda = [] ∧ ¬Ready pending ∧ step pending = .next pending ∧ pending.phase = .idle := by
  refine ⟨rfl, by decide +kernel, rfl, rfl, rfl, by decide +kernel, rfl, rfl⟩

theorem witness_OneResponsePerCommand :
    Instr.tryReadFrame.WellFormed ∧ Ready (onFile []) ∧
      exec .tryReadFrame (onFile []) = .next holding ∧ (Instr.checksum []).WellFormed ∧
      exec (.checksum []) (onFile []) = .next pending := by
  refine ⟨by decide, by decide, rfl, by decide, rfl⟩

theorem witness_TakingClearsPending :
    (setAgenda [.host .take] pending).agenda = .host .take :: [] ∧
      (setAgenda [.host .take] pending).rspV = true := by
  exact ⟨rfl, rfl⟩

/-- Each of the four clauses. -/
theorem witness_HostAndSourceTurns :
    (setAgenda [.host (.offer [0x01])] holding).agenda = .host (.offer [0x01]) :: [] ∧
      (setAgenda [.host .take] holding).agenda = .host .take :: [] ∧
      (setAgenda [.host .take] holding).rspV = false ∧
      (setAgenda [.source (.answer .eos)] holding).agenda = .source (.answer .eos) :: [] ∧
      (setAgenda [.source (.ready 0)] holding).agenda = .source (.ready 0) :: [] := by
  exact ⟨rfl, rfl, rfl, rfl, rfl⟩

/-- A response not taken, a command in progress; a command that ends, and one that holds. -/
theorem witness_HostCallNeedsReadyBlock :
    ¬Ready pending ∧ ¬Ready holding ∧ Ready (onFile []) ∧
      exec (.checksum []) (onFile []) = .next pending ∧ pending.rspV = true ∧
      exec .tryReadFrame (onFile []) = .next holding ∧ holding.rspV = false := by
  refine ⟨by decide +kernel, by decide +kernel, by decide, rfl, rfl, rfl, rfl⟩

/-- R212: the response before has not been taken. -/
theorem test_hostCall_waits_for_the_response_to_be_taken :
    hostCall (.checksum []) pending = none ∧ (hostCall (.checksum []) (takeResponse pending)).isSome := by
  decide +kernel

/-- The block waits, and a reset and an answer of the source come. -/
theorem witness_RunEndedIsKept :
    RunEnded State.reset ∧ step State.reset = .next State.reset ∧
      RunEnded (setAgenda [.host .reset] (onFile [])) ∧
      step (setAgenda [.host .reset] (onFile [])) = .next (onFile []) ∧
      RunEnded (setAgenda [.source (.answer .eos)] (onFile [])) ∧
      step (setAgenda [.source (.answer .eos)] (onFile [])) = .next (onFile [.eos]) := by
  refine ⟨by decide, rfl, by decide, rfl, by decide, rfl⟩

/-- R215: a command on the port or in a turn to come is a further command. -/
theorem test_runEnded_needs_no_offer :
    RunEnded (onFile []) ∧ ¬RunEnded (offered [0x01, 0x00, 0x00]) ∧
      ¬RunEnded (setAgenda [.block, .host (.offer [0x01, 0x00, 0x00])] (onFile [])) ∧
      RunEnded (setAgenda [.source (.ready 1), .host .take] (onFile [])) := by decide

theorem witness_ResetAbortsCommand :
    (setAgenda [.host .reset, .block] holding).agenda = .host .reset :: [.block] ∧
      (setAgenda [.host .reset, .block] holding).phase = .readSync := by
  exact ⟨rfl, rfl⟩

theorem witness_ConstructionChecksRegistry : ∀ t, ¬FailsAt (rawT .streamed) t := by
  rintro t ⟨r, hr, hn⟩
  simp only [rawT] at hr
  repeat' split at hr
  all_goals (cases hr; try apply hn)
  · exact ⟨by decide, gpsLayout, by decide, by decide⟩
  · exact ⟨by decide, [.u8, .u8, .u8], by decide, by decide⟩
  · exact ⟨by decide, [], by decide, by decide⟩
  · exact ⟨by decide, [.u16, .i16, .i32, .f32, .u8], by decide, by decide⟩
  · exact ⟨by decide, [.u8], by decide, by decide⟩

theorem witness_ChecksumResult :
    Ready (onFile []) ∧ (List.replicate 255 (0x01 : Byte)).length ≤ 255 ∧
      ([] : List Byte).length ≤ 255 := by decide +kernel

theorem witness_OneByteChangeChangesA : (0x01 : Byte) ≠ 0x02 := by decide

/-- For CvtUnsignedResults, CvtSignedResults and CvtFloatKeepsPattern. -/
theorem witness_CvtResults : Ready (onFile []) ∧ Ready (onStream [] []) := by decide

theorem witness_CvtWrongLength :
    Ready (onFile []) ∧ ([] : List Byte).length ≤ 255 ∧ ([] : List Byte).length ≠ 1 ∧
      ([] : List Byte).length ≠ 2 ∧ ([] : List Byte).length ≠ 4 ∧
      (List.replicate 255 (0 : Byte)).length ≤ 255 ∧ (List.replicate 255 (0 : Byte)).length ≠ 4 := by
  decide +kernel

theorem witness_FieldValues :
    [(0xFF : Byte)].length = width .u8 ∧ [(0x00 : Byte), 0x80].length = width .u16 ∧
      [(0xFF : Byte), 0xFF, 0xFF, 0xFF].length = width .u32 ∧
      [(0x00 : Byte), 0x80].length = width .i16 ∧
      [(0x00 : Byte), 0x00, 0x00, 0x80].length = width .i32 ∧
      [(0x01 : Byte), 0x00, 0xC0, 0x7F].length = width .f32 := by decide

theorem witness_DecodeUnregisteredTag :
    Ready (onFile []) ∧ [(0x01 : Byte), 0x02].length ≤ 255 ∧
      lookup (onFile []).cfg.registry 0x7F = none := by decide

theorem witness_DecodeLengthMismatch :
    Ready (onFile []) ∧ [(0x01 : Byte), 0x02].length ≤ 255 ∧
      lookup (onFile []).cfg.registry 0x03 = some ⟨3, [.u8, .u8, .u8]⟩ ∧
      [(0x01 : Byte), 0x02].length ≠ (3 : Byte).toNat := by decide

/-- For DecodeFieldsInLayoutOrder and DecodeFieldEqualsCvt. -/
theorem witness_DecodeFields :
    Ready (onFile []) ∧
      lookup (onFile []).cfg.registry 0x05 = some ⟨13, [.u16, .i16, .i32, .f32, .u8]⟩ ∧
      widthSum [.u16, .i16, .i32, .f32, .u8] = (13 : Byte).toNat ∧
      mixPayload.length = (13 : Byte).toNat ∧
      exec (.decodeRecord 0x05 mixPayload) (onFile []) =
        .next (stateAfter (.decodeRecord 0x05 mixPayload) (onFile [])) ∧
      [Kind.u16, .i16, .i32, .f32, .u8][4]? = some .u8 := by
  refine ⟨by decide, by decide, by decide, by decide, exec_stateAfter ?_, rfl⟩
  decide +kernel

/-- The values of L1.4, the f32 as its pattern. -/
theorem witness_DecodeRoundTrip :
    Ready (onFile []) ∧
      lookup (onFile []).cfg.registry 0x05 = some ⟨13, [.u16, .i16, .i32, .f32, .u8]⟩ ∧
      widthSum [.u16, .i16, .i32, .f32, .u8] = (13 : Byte).toNat ∧
      encFields [.u16, .i16, .i32, .f32, .u8] [4660, -2, -100000, 0x3FC00000, 254] = mixPayload ∧
      inRange .u16 4660 = true ∧ inRange .i16 (-2) = true ∧ inRange .i32 (-100000) = true ∧
      inRange .f32 0x3FC00000 = true ∧ inRange .u8 254 = true := by decide +kernel

/-- The state after the attempt of L1.6. -/
def afterTriple : State := stateAfter .tryReadFrame (onFile (bytesOf tripleFrame))

theorem witness_FrameOkThenDecodeOk :
    registryLegal (onFile (bytesOf tripleFrame)).cfg.registry = true ∧
      Ready (onFile (bytesOf tripleFrame)) ∧
      exec .tryReadFrame (onFile (bytesOf tripleFrame)) = .next afterTriple ∧
      afterTriple.rspV = true ∧ afterTriple.rsp.outcome = .ok ∧ Ready (takeResponse afterTriple) ∧
      (takeResponse afterTriple).cfg = (onFile (bytesOf tripleFrame)).cfg := by
  refine ⟨by decide, by decide, exec_stateAfter ?_, ?_⟩ <;> decide +kernel

theorem witness_DataCommandsFrame :
    (Instr.checksum []).WellFormed ∧ Instr.checksum [] ≠ .tryReadFrame ∧ Ready (onFile []) ∧
      exec (.checksum []) (onFile []) = .next pending := by
  refine ⟨by decide, by decide, by decide, rfl⟩

theorem witness_AttemptNotReady :
    Ready (onStream [3] []) ∧ (onStream [3] []).cfg.sourceKind = .streamed ∧
      (onStream [3] []).src.readies = 3 :: [] ∧ 3 < (onStream [3] []).cfg.readyThreshold := by decide

/-- Both clauses; a streamed source at the threshold, and a FILE source. -/
theorem witness_AttemptAtSync :
    Ready (onStream [4] [.eos]) ∧ readyLeft (onStream [4] [.eos]) = some [] ∧
      Answering (onStream [4] [.eos]) ∧ (onStream [4] [.eos]).src.answers = .eos :: [] ∧
      Ready (onFile [.byte 0x55]) ∧ readyLeft (onFile [.byte 0x55]) = some [] ∧
      Answering (onFile [.byte 0x55]) ∧ (onFile [.byte 0x55]).src.answers = .byte 0x55 :: [] ∧
      (0x55 : Byte) ≠ (onFile [.byte 0x55]).cfg.syncByte := by decide

/-- A FILE source that has answered `EOS`. -/
def exhaustedFile : State := readEos [] (onFile [])

theorem witness_ExhaustedFileAttempt :
    Ready exhaustedFile ∧ exhaustedFile.cfg.sourceKind = .file ∧ exhaustedFile.src.exhausted = true := by
  decide

theorem witness_AttemptWithoutTag :
    Ready (onFile [.byte 0xAA, .eos]) ∧ readyLeft (onFile [.byte 0xAA, .eos]) = some [] ∧
      Answering (onFile [.byte 0xAA, .eos]) ∧ (onFile [.byte 0xAA, .eos]).src.answers =
        .byte (onFile [.byte 0xAA, .eos]).cfg.syncByte :: .eos :: [] := by decide

theorem witness_AttemptUnknownTag :
    Ready (onFile (bytesOf [0xAA, 0x7F, 0x06])) ∧
      readyLeft (onFile (bytesOf [0xAA, 0x7F, 0x06])) = some [] ∧
      Answering (onFile (bytesOf [0xAA, 0x7F, 0x06])) ∧
      (onFile (bytesOf [0xAA, 0x7F, 0x06])).src.answers =
        .byte (onFile []).cfg.syncByte :: .byte 0x7F :: [.byte 0x06] ∧
      lookup (onFile []).cfg.registry 0x7F = none := by decide

theorem witness_AttemptTruncatedAtChecksum :
    Ready (onFile [.byte 0xAA, .byte 0x03, .eos]) ∧ readyLeft (onFile []) = some [] ∧
      Answering (onFile [.byte 0xAA, .byte 0x03, .eos]) ∧
      lookup (onFile []).cfg.registry 0x03 = some ⟨3, [.u8, .u8, .u8]⟩ ∧
      (onFile [.byte 0xAA, .byte 0x03, .eos]).src.answers =
        .byte (onFile []).cfg.syncByte :: .byte 0x03 :: .eos :: [] ∧
      (onFile [.byte 0xAA, .byte 0x03, .byte 0x06, .eos]).src.answers =
        .byte (onFile []).cfg.syncByte :: .byte 0x03 :: .byte 0x06 :: .eos :: [] := by decide

/-- No payload byte, and all but the last. -/
theorem witness_AttemptTruncatedInPayload :
    Ready (onFile []) ∧ readyLeft (onFile []) = some [] ∧ Answering (onFile []) ∧
      lookup (onFile []).cfg.registry 0x03 = some ⟨3, [.u8, .u8, .u8]⟩ ∧
      ([] : List Byte).length < (3 : Byte).toNat ∧ [(0x01 : Byte), 0x02].length < (3 : Byte).toNat ∧
      (onFile (bytesOf [0xAA, 0x03, 0x06, 0x0A, 0x01, 0x02] ++ [.eos])).src.answers =
        (frameBytes (onFile []).cfg.syncByte 0x03 0x06 0x0A [0x01, 0x02]).map .byte ++ .eos :: [] := by
  decide

/-- A frame that matches, one that does not, and an empty payload. -/
theorem witness_AttemptVerifiesFrame :
    Ready (onFile (bytesOf tripleFrame)) ∧ readyLeft (onFile (bytesOf tripleFrame)) = some [] ∧
      Answering (onFile (bytesOf tripleFrame)) ∧
      lookup (onFile []).cfg.registry 0x03 = some ⟨3, [.u8, .u8, .u8]⟩ ∧
      [(0x01 : Byte), 0x02, 0x03].length = (3 : Byte).toNat ∧
      (onFile (bytesOf tripleFrame)).src.answers =
        (frameBytes (onFile []).cfg.syncByte 0x03 0x06 0x0A [0x01, 0x02, 0x03]).map .byte ++ [] ∧
      fletcher [0x01, 0x02, 0x03] = (0x06, 0x0A) ∧ fletcher [0x01, 0x02, 0x03] ≠ (0x06, 0x0B) ∧
      lookup (onFile []).cfg.registry 0x04 = some ⟨0, []⟩ ∧
      ([] : List Byte).length = (0 : Byte).toNat := by decide

/-- Nothing is registered, and the first byte or the tag does not come. -/
theorem witness_AttemptHoldsUnanswered_unregistered :
    Ready State.reset ∧ readyLeft State.reset = some [] ∧ Answering State.reset ∧
      State.reset.src.answers = ([State.reset.cfg.syncByte].take 0).map .byte ∧
      (deliver [.byte 0xAA] [] State.reset).cfg.registry = [] ∧
      Ready (deliver [.byte 0xAA] [] State.reset) ∧
      readyLeft (deliver [.byte 0xAA] [] State.reset) = some [] ∧
      Answering (deliver [.byte 0xAA] [] State.reset) ∧
      (deliver [.byte 0xAA] [] State.reset).src.answers =
        ([State.reset.cfg.syncByte].take 1).map .byte := by decide

/-- The query unanswered; the first byte, and the last of the frame. -/
theorem witness_AttemptHoldsUnanswered :
    Ready (onStream [] []) ∧ (onStream [] []).cfg.sourceKind = .streamed ∧
      (onStream [] []).src.readies = [] ∧ Ready (onFile []) ∧ readyLeft (onFile []) = some [] ∧
      Answering (onFile []) ∧ lookup (onFile []).cfg.registry 0x03 = some ⟨3, [.u8, .u8, .u8]⟩ ∧
      [(0x01 : Byte), 0x02, 0x03].length = (3 : Byte).toNat ∧ 0 < 4 + 3 ∧ 6 < 4 + 3 ∧
      (onFile []).src.answers =
        ((frameBytes (onFile []).cfg.syncByte 0x03 0x06 0x0A [0x01, 0x02, 0x03]).take 0).map .byte ∧
      (onFile (bytesOf [0xAA, 0x03, 0x06, 0x0A, 0x01, 0x02])).src.answers =
        ((frameBytes (onFile []).cfg.syncByte 0x03 0x06 0x0A [0x01, 0x02, 0x03]).take 6).map
          .byte := by decide

/-- For AttemptConsumption and FrameReaderFrame: an attempt that ended, and one that holds. -/
theorem witness_AttemptConsumption :
    Ready (onFile (bytesOf tripleFrame)) ∧
      exec .tryReadFrame (onFile (bytesOf tripleFrame)) = .next afterTriple ∧
      afterTriple.rspV = true ∧ afterTriple.consumed = 7 ∧ Ready (onFile []) ∧
      exec .tryReadFrame (onFile []) = .next holding ∧ holding.rspV = false := by
  refine ⟨by decide, exec_stateAfter ?_, ?_, ?_, by decide, rfl, rfl⟩ <;> decide +kernel

/-- Each of the three grounds. -/
theorem witness_AnsweredAttemptEnds :
    Ready exhaustedFile ∧ readyLeft exhaustedFile ≠ none ∧ ¬Answering exhaustedFile ∧
      Ready (onFile [.byte 0xAA, .eos]) ∧ readyLeft (onFile [.byte 0xAA, .eos]) ≠ none ∧
      .eos ∈ (onFile [.byte 0xAA, .eos]).src.answers ∧
      259 ≤ (onFile (List.replicate 259 (.byte 0xAA))).src.answers.length := by
  decide +kernel

/-- Acceptance, and a phase that holds. -/
theorem witness_PhaseTransitions :
    Ready (offered [0x01, 0x00, 0x00]) ∧
      decode (offered [0x01, 0x00, 0x00]).host.port = .ok (.tryReadFrame, []) ∧
      transitionTable (inPhase .readSync 0 0 []) = none ∧
      (inPhase .readSync 0 0 []).phase ≠ .idle ∧ (inPhase .readSync 0 0 []).phase ≠ .exec := by decide

/-- One transition out of each phase. -/
theorem witness_PhaseTransitions_table :
    transitionTable (inPhase .checkReady 0 0 []) = some (.readSync, none) ∧
      transitionTable (inPhase .readSync 0 0 [.byte 0xAA]) = some (.readTag, none) ∧
      transitionTable (inPhase .readTag 0 0 [.byte 0x03]) = some (.readCkA, none) ∧
      transitionTable (inPhase .readCkA 3 0 [.byte 0x06]) = some (.readCkB, none) ∧
      transitionTable (inPhase .readCkB 3 0 [.byte 0x0A]) = some (.readPayload, none) ∧
      transitionTable (inPhase .verify 0 0 []) = some (.idle, some .ok) := by decide

/-- In the payload: a byte with more to come, the last byte, `EOS`, and no payload at all. -/
theorem witness_PhaseTransitions_payload :
    (2 : Byte).toNat < (3 : Byte).toNat ∧
      transitionTable (inPhase .readPayload 3 1 [.byte 0x02]) = some (.readPayload, none) ∧
      transitionTable (inPhase .readPayload 3 2 [.byte 0x03]) = some (.verify, none) ∧
      transitionTable (inPhase .readPayload 3 2 [.eos]) = some (.idle, some .truncatedFrame) ∧
      transitionTable (inPhase .readPayload 0 0 []) = some (.verify, none) := by decide

theorem witness_LateAnswersChangeNothing :
    Ready (onFile []) ∧ holding.rspV = false ∧ Ready (onFile (bytesOf tripleFrame)) ∧
      afterTriple.rspV = true := by
  refine ⟨by decide, rfl, by decide, by decide +kernel⟩

/-- L1.8: one byte of noise. -/
theorem witness_NoiseThenFrame :
    Ready (onFile (bytesOf (0x00 :: tripleFrame))) ∧
      (onFile (bytesOf (0x00 :: tripleFrame))).cfg.sourceKind = .file ∧
      (onFile (bytesOf (0x00 :: tripleFrame))).src.exhausted = false ∧
      (∀ b ∈ [(0x00 : Byte)], b ≠ (onFile []).cfg.syncByte) ∧
      lookup (onFile []).cfg.registry 0x03 = some ⟨3, [.u8, .u8, .u8]⟩ ∧
      [(0x01 : Byte), 0x02, 0x03].length = (3 : Byte).toNat ∧
      (onFile (bytesOf (0x00 :: tripleFrame))).src.answers =
        [(0x00 : Byte)].map .byte ++
          (frameBytes (onFile []).cfg.syncByte 0x03 (fletcher [0x01, 0x02, 0x03]).1
            (fletcher [0x01, 0x02, 0x03]).2 [0x01, 0x02, 0x03]).map .byte ++ [] := by decide +kernel

theorem witness_FilePollingEnds :
    Ready (onFile (bytesOf tripleFrame ++ [.eos])) ∧
      (onFile (bytesOf tripleFrame ++ [.eos])).cfg.sourceKind = .file ∧
      (onFile (bytesOf tripleFrame ++ [.eos])).src.exhausted = false ∧
      (onFile (bytesOf tripleFrame ++ [.eos])).src.answers = tripleFrame.map .byte ++ [.eos] := by
  decide +kernel

theorem witness_ResetMeetsInvariant : registryLegal (cfgT .file).registry = true := by decide

/-- For StepKeepsInvariant and StepNeverStops: a state that meets the invariant and is not the reset
state. -/
theorem witness_StepKeepsInvariant :
    Inv (offered [0x03, 0x00, 0x00]) ∧
      step (offered [0x03, 0x00, 0x00]) =
        .next (stateAfter (.checksum []) (setPort [] (offered []))) := by
  refine ⟨⟨rfl, by decide, fun h => absurd rfl h, fun _ => rfl, ?_, ?_⟩, rfl⟩
  · exact Nat.zero_le _
  · constructor <;> simp [offered, onFile, State.constructed, setPort, Response.cleared]

/-- For ConfigurationIsConstant and CursorMovesByBytesRead: a step that reads seven bytes, and a step of
the source and one of the host. -/
theorem witness_CursorMovesByBytesRead :
    step (offered [0x01, 0x00, 0x00]) = .next (stateAfter .tryReadFrame (offered [])) ∧
      (stateAfter .tryReadFrame (offered [])).src.cursor = 7 ∧
      step (setAgenda [.source (.answer .eos)] (onFile [])) = .next (onFile [.eos]) ∧
      step (setAgenda [.host (.offer [0x01])] (onFile [])) = .next (setPort [0x01] (onFile [])) := by
  refine ⟨rfl, ?_, rfl, rfl⟩
  decide +kernel

theorem witness_FileExhaustionIsPermanent :
    exhaustedFile.cfg.sourceKind = .file ∧ exhaustedFile.src.exhausted = true ∧
      step exhaustedFile = .next exhaustedFile := by
  exact ⟨rfl, rfl, rfl⟩

/-- Two ready blocks that hold different things. -/
theorem witness_EarlierStateDoesNotMatter :
    Instr.tryReadFrame.WellFormed ∧ registryLegal (onFile []).cfg.registry = true ∧
      Ready (onFile []) ∧ Ready { onFile [] with tag := 0x7F, pbuf := [(0, 0x11)] } ∧
      (onFile []).cfg = { onFile [] with tag := 0x7F, pbuf := [(0, 0x11)] }.cfg ∧
      (onFile []).src = { onFile [] with tag := 0x7F, pbuf := [(0, 0x11)] }.src := by decide

end Sys2Proof.Tests
end

/-! SUPPORT. A block's move as its transitions of `PHASE` one by one, and, from that, the one case split over
the turns of the three agents that every claim "each step keeps `P`" goes through (10_state.md rules R20 and
R32, log 5, log 6). -/

namespace Sys2Proof.Machine

/-- An accepted command is carried out in the transitions after its acceptance. -/
theorem blockTurns_accept {s : State} (hr : Ready s) (i : Instr) :
    blockTurns frameFuel (accept i.command s) = exec i s := by
  rw [exec_eq_phases hr]
  split
  · subst i
    have hp : (accept Instr.tryReadFrame.command s).phase = .checkReady := by simp [firstPhase_command]
    exact blockTurns_eq_runFrame _ _ (.inl ⟨hp ▸ nofun, hp ▸ nofun⟩)
  · next hi => exact blockTurns_exec (by simp [firstPhase_command, hi]) _

/-- So is a rejected one. -/
theorem blockTurns_accept_illegal {s : State} {c : Command} {r : IllegalReason} (hr : Ready s)
    (h : classify c.op c.arg c.len = .error r) :
    blockTurns frameFuel (accept c s) = execIllegal c s := by
  rw [execIllegal, issue_of_ready hr]
  exact (blockTurns_exec (by simp [firstPhase, h]) _).trans (execPhase_of_illegal h)

/-- A command in progress is carried on in as many. -/
theorem blockTurns_resume {s : State} (hp : s.phase ≠ .idle) :
    blockTurns (frameFuel + 1) s = resume s := by
  rw [resume]
  split
  · next he => exact blockTurns_exec he _
  · next he =>
    have hle := rank_le s
    rw [blockTurns_eq_runFrame _ _ (.inl ⟨hp, he⟩), runFrame_fuel (m := frameFuel) (by omega) hle]

/-- Settles O46: from each answer of `fetch`, the transitions after the first carry the command out. -/
theorem blockMoveIsPhaseTransitions : Obligations.BlockMoveIsPhaseTransitions := by
  unfold Obligations.BlockMoveIsPhaseTransitions
  intro s
  change blockMove s = blockTurns (frameFuel + 1) s
  rw [blockMove]
  split
  · next i t hf =>
    obtain ⟨hr, rest, -, rfl⟩ := fetch_eq_run hf
    simp only [blockTurns, blockTurn, hf]
    exact (blockTurns_accept (s := setPort rest s) hr i).symm
  · next c t hf =>
    obtain ⟨hr, r, rest, hd, rfl⟩ := fetch_eq_reject hf
    simp only [blockTurns, blockTurn, hf]
    exact (blockTurns_accept_illegal (s := setPort rest s) hr (decode_eq_illegal hd).2).symm
  · next hf => exact (blockTurns_resume (fetch_eq_busy.1 hf)).symm
  · next hf => exact (blockTurns_of_stay (by simp only [blockTurn, hf]) _).symm

/-- `P` is kept by each thing a turn of an agent is made of: by the block's acceptance, its EXEC phase and its
transitions in the frame reader, by the host's taking and reset, and by what changes on the two ports and in
the list of turns. -/
structure KeptByTurns (P : State → Prop) : Prop where
  accept : ∀ c s, Ready s → P s → P (accept c s)
  exec : ∀ s t, P s → s.phase = .exec → execPhase s = .next t → P t
  frame : ∀ s t, P s → framePhase s = .moved t → P t
  take : ∀ s, P s → P (takeResponse s)
  reset : ∀ s, P s → P (resetBlock s)
  port : ∀ bytes s, P s → P (setPort bytes s)
  agenda : ∀ turns s, P s → P (setAgenda turns s)
  deliver : ∀ answers readies s, P s → P (deliver answers readies s)

section
variable {P : State → Prop}

theorem blockTurn_keeps (hk : KeptByTurns P) {s t : State} (hP : P s) (h : blockTurn s = .next t) :
    P t := by
  unfold blockTurn at h
  split at h
  · next hf =>
    obtain ⟨hr, rest, -, rfl⟩ := fetch_eq_run hf
    cases h
    exact hk.accept _ _ hr (hk.port rest s hP)
  · next hf =>
    obtain ⟨hr, -, rest, -, rfl⟩ := fetch_eq_reject hf
    cases h
    exact hk.accept _ _ hr (hk.port rest s hP)
  · cases h
    exact hP
  · split at h
    · next he => exact hk.exec s t hP he h
    · split at h <;> cases h
      · next hm => exact hk.frame s _ hP hm
      · exact hP

theorem blockTurns_keeps (hk : KeptByTurns P) (n : Nat) {s t : State} (hP : P s)
    (h : blockTurns n s = .next t) : P t := by
  induction n generalizing s with
  | zero =>
    cases h
    exact hP
  | succ n ih =>
    rw [blockTurns] at h
    split at h
    · next hs => exact ih (blockTurn_keeps hk hP hs) h
    all_goals cases h

/-- What every turn is made of keeps, every step keeps. -/
theorem step_keeps (hk : KeptByTurns P) {s t : State} (hP : P s) (h : step s = .next t) : P t := by
  unfold step at h
  split at h
  · rw [blockMoveIsPhaseTransitions] at h
    exact blockTurns_keeps hk _ hP h
  · next a rest _ =>
    cases h
    have hP := hk.agenda rest s hP
    cases a with
    | offer bytes => exact hk.port _ _ hP
    | take => exact hk.take _ hP
    | reset => exact hk.reset _ hP
  · next a rest _ =>
    cases h
    have hP := hk.agenda rest s hP
    cases a with
    | answer r => exact hk.deliver _ _ _ hP
    | ready n => exact hk.deliver _ _ _ hP
  · next rest _ => exact blockTurn_keeps hk (hk.agenda rest s hP) h

end

/-- The EXEC phase, when it does not fault, ends the command after updates of `TAG` and the accumulators
only. -/
theorem execPhase_eq_next {s t : State} (h : execPhase s = .next t) : ∃ o r g v x y,
    t = raise o r { s with tag := g, tagV := v, accA := x, accB := y } := by
  obtain ⟨f, hf⟩ | ⟨o, r, g, v, x, y, hn⟩ := execPhase_cases s
  · rw [hf] at h
    cases h
  · rw [hn] at h
    cases h
    exact ⟨o, r, g, v, x, y, rfl⟩

theorem takeResponse_cfg (s : State) : (takeResponse s).cfg = s.cfg := by
  unfold takeResponse
  split <;> rfl

theorem execPhase_cfg {s t : State} (h : execPhase s = .next t) : t.cfg = s.cfg := by
  obtain ⟨o, r, g, v, x, y, rfl⟩ := execPhase_eq_next h
  rfl

/-- Nothing a turn is made of writes the configuration (10_state.md rule R21). -/
theorem cfg_keptByTurns (cfg : Cfg) : KeptByTurns fun s => s.cfg = cfg where
  accept _ _ _ h := h
  exec _ _ h _ he := (execPhase_cfg he).trans h
  frame _ _ h hm := (framePhase_frame hm).1.trans h
  take s h := (takeResponse_cfg s).trans h
  reset _ h := h
  port _ _ h := h
  agenda _ _ h := h
  deliver _ _ _ h := h

/-- Settles O53: whatever the configuration is, every turn keeps it. -/
theorem configurationIsConstant : Obligations.ConfigurationIsConstant := by
  unfold Obligations.ConfigurationIsConstant
  intro s t h
  exact step_keeps (cfg_keptByTurns s.cfg) rfl h

end Sys2Proof.Machine

/-! SUPPORT. The invariant. First what a command may end with and in, then one lemma for each thing a turn is
made of: acceptance, the EXEC phase body by body, and the frame reader phase by phase (10_state.md rules R27 and
R32 to R36; 41_frame_reader.md rules R120 to R128). -/

namespace Sys2Proof.Machine

/-! ## Responses -/

/-- A response with no payload that does not answer a frame OK. -/
theorem responseInv_noPayload {reg : Registry} {r : Response} (hpl : r.plen = 0) (hp : r.payload = [])
    (hn : r.nf.toNat = r.fields.length) (ht : r.tagV = false → r.tag = 0) (hc : r.consumed.toNat ≤ 259)
    (hk : r.ckV = false → r.rxA = 0 ∧ r.rxB = 0 ∧ r.calcA = 0 ∧ r.calcB = 0)
    (hok : r.outcome = .ok → r.tagV = true → r.ckV = false) : ResponseInv reg r where
  plen := by simp [hpl, hp]
  nf := hn
  tag := ht
  consumed := hc
  pairs := hk
  payload ho hv hck := by simp [hok ho hv] at hck
  noPayload h := absurd hp h

/-- A response that is an outcome, a tag perhaps, and a consumption. -/
theorem responseInv_plain {reg : Registry} {o : OutcomeCode} {v : Bool} {t : Byte} {n : Half}
    (ht : v = false → t = 0) (hn : n.toNat ≤ 259) :
    ResponseInv reg { Response.cleared with outcome := o, tagV := v, tag := t, consumed := n } :=
  responseInv_noPayload rfl rfl rfl ht hn (fun _ => ⟨rfl, rfl, rfl, rfl⟩) fun _ _ => rfl

theorem responseInv_cleared (reg : Registry) : ResponseInv reg .cleared :=
  responseInv_plain (fun _ => rfl) (Nat.zero_le _)

/-! ## Where a command may end -/

/-- What of the invariant does not depend on the phase, and the bound on the count at the end of a command. -/
structure MayEnd (s : State) : Prop where
  pbuf : Memory.wf s.pbuf = true
  registry : registryLegal s.cfg.registry = true
  tag : s.tagV = false → s.tag = 0
  consumed : s.consumed.toNat ≤ 259

/-- No phase allows more than 259 bytes (41_frame_reader.md rule R128). -/
theorem PhaseInv.consumed_le {s : State} (h : PhaseInv s) : s.consumed.toNat ≤ 259 := by
  have hlt := s.specLen.isLt
  unfold PhaseInv at h
  split at h
  · exact h
  · obtain ⟨hc, -⟩ := h
    simp [hc]
  iterate 5
    · obtain ⟨-, hc, -⟩ := h
      simp [hc]
  · obtain ⟨-, -, hc, hi, -⟩ := h
    omega
  · obtain ⟨-, -, hc, -⟩ := h
    omega

theorem Inv.mayEnd {s : State} (h : Inv s) : MayEnd s :=
  ⟨h.pbuf, h.registry, h.tag, h.phase.consumed_le⟩

/-- A command that ends where it may, with a response that is right, leaves the invariant. -/
theorem inv_raise {s : State} {o : OutcomeCode} {r : Response} (h : MayEnd s)
    (hr : ResponseInv s.cfg.registry { r with outcome := o, consumed := s.consumed }) :
    Inv (raise o r s) :=
  ⟨h.pbuf, h.registry, fun hp => absurd rfl hp, h.tag, h.consumed, hr⟩

/-- With an outcome, and a tag perhaps, for its response. -/
theorem inv_raise_plain {s : State} {o : OutcomeCode} {v : Bool} {t : Byte} (h : MayEnd s)
    (ht : v = false → t = 0) : Inv (raise o { Response.cleared with tagV := v, tag := t } s) :=
  inv_raise h (responseInv_plain ht h.consumed)

/-- A transition into another phase, with no response written. -/
theorem inv_move {s t : State} (h : Inv s) (hp : s.phase ≠ .idle) (hm : Memory.wf t.pbuf = true)
    (ht : t.tagV = false → t.tag = 0) (hph : PhaseInv t) (hc : t.cfg = s.cfg := by rfl)
    (hv : t.rspV = s.rspV := by rfl) (hr : t.rsp = s.rsp := by rfl) : Inv t :=
  ⟨hm, hc ▸ h.registry, fun _ => hv.trans (h.pending hp), ht, hph, by rw [hc, hr]; exact h.rsp⟩

/-! ## The host and the source -/

/-- The invariant says nothing of the source, the host port and the turns to come. -/
theorem Inv.outside {s : State} (h : Inv s) (src : Source) (host : HostPort) (agenda : List Turn) :
    Inv { s with src := src, host := host, agenda := agenda } :=
  ⟨h.pbuf, h.registry, h.pending, h.tag, h.phase, h.rsp⟩

theorem Inv.takeResponse {s : State} (h : Inv s) : Inv (takeResponse s) := by
  unfold Machine.takeResponse
  split
  · exact ⟨h.pbuf, h.registry, fun _ => rfl, h.tag, h.phase, h.rsp⟩
  · exact h

theorem Inv.resetBlock {s : State} (h : Inv s) : Inv (resetBlock s) :=
  ⟨Memory.wf_nil, h.registry, fun _ => rfl, fun _ => rfl, Nat.zero_le _, responseInv_cleared _⟩

/-! ## Acceptance -/

theorem phaseInv_accept (c : Command) (s : State) : PhaseInv (accept c s) := by
  unfold PhaseInv
  rw [accept_phase, firstPhase]
  cases h : classify c.op c.arg c.len with
  | error r => exact ⟨rfl, rfl, by simp [h]⟩
  | ok f =>
    cases f with
    | tryReadFrame => exact ⟨classify_eq_ok h, rfl, rfl, rfl, rfl, rfl⟩
    | decodeRecord => exact ⟨rfl, rfl, by simp [h]⟩
    | checksum => exact ⟨rfl, rfl, by simp [h]⟩
    | cvt k => exact ⟨rfl, rfl, by simp [h]⟩

theorem Inv.accept {s : State} (h : Inv s) (c : Command) (hr : Ready s) : Inv (accept c s) where
  pbuf := Memory.wf_writeAll h.pbuf (by
    have := c.len.isLt
    simp only [List.length_take, maxPayloadLen]
    omega)
  registry := h.registry
  pending _ := hr.2
  tag _ := rfl
  phase := phaseInv_accept c s
  rsp := responseInv_cleared _

/-! ## The EXEC phase -/

/-- A layout of a registered spec gives at most 255 lanes. -/
theorem walkLayout_length_le {s : State} (hreg : registryLegal s.cfg.registry = true) {t : Byte}
    {spec : PacketSpec} (hl : lookup s.cfg.registry t = some spec) {lanes : List Lane} {u : State}
    (hw : walkLayout u spec.layout 0 = some lanes) : lanes.length ≤ 255 := by
  have hsum := lookup_legal hreg hl
  have hlt := spec.payloadLength.isLt
  have hlen := length_le_widthSum spec.layout
  obtain ⟨lanes', hw', hn⟩ :=
    walkLayout_inBounds u spec.layout 0 (by simp only [maxPayloadLen]; omega)
  obtain rfl : lanes = lanes' := Option.some.inj (hw.symm.trans hw')
  omega

theorem MayEnd.latchTag {s : State} (h : MayEnd s) (t : Byte) : MayEnd (latchTag t s) :=
  ⟨h.pbuf, h.registry, nofun, h.consumed⟩

theorem inv_decodeBody {s t : State} (h : MayEnd s) (ht : decodeBody s = .next t) : Inv t := by
  have hl := h.latchTag s.cmdArg
  simp only [decodeBody] at ht
  split at ht
  · cases ht
    exact inv_raise_plain hl nofun
  · next spec hspec =>
    split at ht
    · cases ht
      exact inv_raise_plain hl nofun
    · split at ht
      · cases ht
      · next lanes hw =>
        cases ht
        have hle := walkLayout_length_le hl.registry hspec hw
        exact inv_raise hl (responseInv_noPayload rfl rfl
          (by simp only [BitVec.toNat_ofNat]; omega) nofun h.consumed (fun _ => ⟨rfl, rfl, rfl, rfl⟩)
          fun _ _ => rfl)

theorem inv_checksumBody {s t : State} (h : MayEnd s) (ht : checksumBody s = .next t) : Inv t := by
  cases ht
  exact inv_raise ⟨h.pbuf, h.registry, h.tag, h.consumed⟩
    (responseInv_noPayload rfl rfl rfl (fun _ => rfl) h.consumed nofun nofun)

theorem inv_cvtBody {k : Kind} {s t : State} (h : MayEnd s) (ht : cvtBody k s = .next t) : Inv t := by
  unfold cvtBody at ht
  split at ht
  · cases ht
    exact inv_raise_plain h fun _ => rfl
  · split at ht <;> cases ht
    exact inv_raise h (responseInv_noPayload rfl rfl rfl (fun _ => rfl) h.consumed
      (fun _ => ⟨rfl, rfl, rfl, rfl⟩) fun _ _ => rfl)

theorem inv_execPhase {s t : State} (h : MayEnd s) (ht : execPhase s = .next t) : Inv t := by
  unfold execPhase at ht
  split at ht
  · cases ht
  · exact inv_decodeBody h ht
  · exact inv_checksumBody h ht
  · exact inv_cvtBody h ht
  · cases ht
    exact inv_raise_plain h fun _ => rfl

/-! ## The frame reader -/

theorem Inv.srcRead_eos {s w : State} (h : Inv s) (hw : srcRead s = .eos w) : Inv w := by
  obtain ⟨-, rfl⟩ | ⟨rest, -, -, rfl⟩ := srcRead_eq_eos hw
  · exact h
  · exact h.outside (readEos rest s).src _ _

theorem MayEnd.readOne {s : State} (h : MayEnd s) (rest : List ReadAnswer)
    (hc : (s.consumed + 1).toNat ≤ 259) : MayEnd (readOne rest s) :=
  ⟨h.pbuf, h.registry, h.tag, hc⟩

theorem Inv.truncated {s : State} (h : Inv s) : Inv (truncated s) :=
  inv_raise_plain h.mayEnd nofun

/-- Step 1 passed (41_frame_reader.md rule R121). -/
theorem Inv.goto_readSync {s : State} (h : Inv s) (hp : s.phase = .checkReady) :
    Inv (goto .readSync s) := by
  have hph := h.phase
  rw [PhaseInv, hp] at hph
  exact inv_move h (by simp [hp]) h.pbuf h.tag hph

/-- The sync byte (R122). -/
theorem Inv.goto_readTag {s : State} (h : Inv s) (hp : s.phase = .readSync) (rest : List ReadAnswer) :
    Inv (goto .readTag (readOne rest s)) := by
  have hph := h.phase
  rw [PhaseInv, hp] at hph
  obtain ⟨hh, hc, hv, hw⟩ := hph
  exact inv_move h (by simp [hp]) h.pbuf h.tag ⟨hh, by simp [hc], hv, hw⟩

/-- A registered tag (R123). -/
theorem Inv.goto_readCkA {s : State} (h : Inv s) (hp : s.phase = .readTag) (rest : List ReadAnswer)
    {b : Byte} {spec : PacketSpec} (hl : lookup s.cfg.registry b = some spec) :
    Inv (goto .readCkA (latchSpecLen spec (latchTag b (readOne rest s)))) := by
  have hph := h.phase
  rw [PhaseInv, hp] at hph
  obtain ⟨hh, hc, -, hw⟩ := hph
  exact inv_move h (by simp [hp]) h.pbuf nofun ⟨hh, by simp [hc], ⟨rfl, spec, hl, rfl⟩, hw⟩

/-- The first checksum byte (R125). -/
theorem Inv.goto_readCkB {s : State} (h : Inv s) (hp : s.phase = .readCkA) (rest : List ReadAnswer)
    (b : Byte) : Inv (goto .readCkB (latchRxA b (readOne rest s))) := by
  have hph := h.phase
  rw [PhaseInv, hp] at hph
  obtain ⟨hh, hc, hr, hw⟩ := hph
  exact inv_move h (by simp [hp]) h.pbuf h.tag ⟨hh, by simp [hc], hr, hw⟩

/-- The second checksum byte (R125): no payload byte yet, and the accumulators are those of none. -/
theorem Inv.goto_readPayload {s : State} (h : Inv s) (hp : s.phase = .readCkB)
    (rest : List ReadAnswer) (b : Byte) :
    Inv (goto .readPayload (latchRxB b (readOne rest s))) := by
  have hph := h.phase
  rw [PhaseInv, hp] at hph
  obtain ⟨hh, hc, hr, hi, ha, hb⟩ := hph
  refine inv_move h (by simp [hp]) h.pbuf h.tag ⟨hh, hr, ?_, ?_, ?_⟩
  · simp [hc, hi]
  · simp [hi]
  · simp [hi, ha, hb, Memory.bytes_zero, fletcher, fletcherFrom]

/-- The stored bytes and the one written after them. -/
theorem bytes_write_next (m : List Host.Cell) (n : Nat) (x : Byte) :
    Memory.bytes (Memory.write n x m) 0 (n + 1) = Memory.bytes m 0 n ++ [x] := by
  rw [Memory.bytes_succ, Nat.zero_add, Memory.read_write_same]
  congr 1
  exact Memory.bytes_congr fun a _ ha => Memory.read_write_ne m n a x (by omega)

/-- A payload byte (R126): the accumulators stay those of the bytes stored. -/
theorem Inv.goto_takePayloadByte {s : State} (h : Inv s) (hp : s.phase = .readPayload)
    (hlt : s.idx.toNat < s.specLen.toNat) (rest : List ReadAnswer) (x : Byte) :
    Inv (goto (if s.idx.toNat + 1 < s.specLen.toNat then .readPayload else .verify)
      (takePayloadByte x (readOne rest s))) := by
  have hph := h.phase
  rw [PhaseInv, hp] at hph
  obtain ⟨hh, hr, hc, hle, hacc⟩ := hph
  have hs := s.specLen.isLt
  have hidx : (s.idx + 1).toNat = s.idx.toNat + 1 := by simp [succ_mod_of_lt hlt]
  have hcons : (s.consumed + 1).toNat = 4 + (s.idx + 1).toNat := by
    rw [hidx, BitVec.toNat_add, hc]
    simp
    omega
  have hfold : fletcherStep (s.accA, s.accB) x =
      fletcher (Memory.bytes (Memory.write s.idx.toNat x s.pbuf) 0 (s.idx + 1).toNat) := by
    rw [hidx, bytes_write_next, fletcher_snoc, hacc]
  have hwf : Memory.wf (Memory.write s.idx.toNat x s.pbuf) = true :=
    Memory.wf_write x h.pbuf (by simp only [maxPayloadLen]; omega)
  refine inv_move h (by simp [hp]) hwf h.tag ?_
  split
  · exact ⟨hh, hr, hcons, hidx ▸ hlt, hfold⟩
  · have hall : s.idx + 1 = s.specLen := BitVec.eq_of_toNat_eq (by omega)
    rw [hall] at hcons hfold
    exact ⟨hh, hr, hcons, hall, hfold⟩

/-- Nothing left to read (R132). -/
theorem Inv.goto_verify {s : State} (h : Inv s) (hp : s.phase = .readPayload)
    (hge : ¬s.idx.toNat < s.specLen.toNat) : Inv (goto .verify s) := by
  have hph := h.phase
  rw [PhaseInv, hp] at hph
  obtain ⟨hh, hr, hc, hle, hacc⟩ := hph
  have hall : s.idx = s.specLen := BitVec.eq_of_toNat_eq (by omega)
  rw [hall] at hc hacc
  exact inv_move h (by simp [hp]) h.pbuf h.tag ⟨hh, hr, hc, hall, hacc⟩

/-- Verification (R127): the payload answered is the one the accumulators are of. -/
theorem Inv.phaseVerify {s : State} (h : Inv s) (hp : s.phase = .verify) : Inv (phaseVerify s) := by
  have hph := h.phase
  rw [PhaseInv, hp] at hph
  obtain ⟨-, ⟨hv, spec, hl, hlen⟩, -, -, hacc⟩ := hph
  unfold Machine.phaseVerify
  split
  · next hm =>
    obtain ⟨hA, hB⟩ : s.accA = s.rxA ∧ s.accB = s.rxB := by simpa [checksumMatches] using hm
    exact inv_raise h.mayEnd
      { plen := by simp
        nf := rfl
        tag := nofun
        consumed := h.mayEnd.consumed
        pairs := nofun
        payload := fun _ _ _ => ⟨spec, hl, hlen, hacc, hA.symm, hB.symm⟩
        noPayload := fun _ => ⟨rfl, rfl, rfl⟩ }
  · exact inv_raise h.mayEnd
      (responseInv_noPayload rfl rfl rfl nofun h.mayEnd.consumed nofun nofun)

theorem inv_framePhase {s t : State} (h : Inv s) (ht : framePhase s = .moved t) : Inv t := by
  have hph := h.phase
  obtain ⟨hp, ⟨-, rfl⟩ | ⟨n, rest, -, -, ⟨-, rfl⟩ | ⟨-, rfl⟩⟩⟩ |
    ⟨hp, ⟨w, hw, rfl⟩ | ⟨b, w, hw, ⟨-, rfl⟩ | ⟨-, rfl⟩⟩⟩ |
    ⟨hp, ⟨w, hw, rfl⟩ | ⟨b, w, hw, ⟨-, rfl⟩ | ⟨spec, hl, rfl⟩⟩⟩ |
    ⟨hp, ⟨w, hw, rfl⟩ | ⟨b, w, hw, rfl⟩⟩ | ⟨hp, ⟨w, hw, rfl⟩ | ⟨b, w, hw, rfl⟩⟩ |
    ⟨hp, ⟨hlt, ⟨w, hw, rfl⟩ | ⟨b, w, hw, rfl⟩⟩ | ⟨hge, rfl⟩⟩ | ⟨hp, rfl⟩ := framePhase_cases ht
  · exact h.goto_readSync hp
  · exact inv_raise_plain (h.outside (readReady rest s).src _ _).mayEnd fun _ => rfl
  · exact (h.outside (readReady rest s).src _ _).goto_readSync hp
  · exact inv_raise_plain (h.srcRead_eos hw).mayEnd fun _ => rfl
  · obtain ⟨rest, -, -, rfl⟩ := srcRead_eq_byte hw
    exact h.goto_readTag hp rest
  · obtain ⟨rest, -, -, rfl⟩ := srcRead_eq_byte hw
    rw [PhaseInv, hp] at hph
    obtain ⟨-, hc, -⟩ := hph
    exact inv_raise_plain (h.mayEnd.readOne rest (by simp [hc])) fun _ => rfl
  · exact inv_raise_plain (h.srcRead_eos hw).mayEnd fun _ => rfl
  · obtain ⟨rest, -, -, rfl⟩ := srcRead_eq_byte hw
    rw [PhaseInv, hp] at hph
    obtain ⟨-, hc, -⟩ := hph
    exact inv_raise_plain ((h.mayEnd.readOne rest (by simp [hc])).latchTag b) nofun
  · obtain ⟨rest, -, -, rfl⟩ := srcRead_eq_byte hw
    exact h.goto_readCkA hp rest hl
  · exact (h.srcRead_eos hw).truncated
  · obtain ⟨rest, -, -, rfl⟩ := srcRead_eq_byte hw
    exact h.goto_readCkB hp rest b
  · exact (h.srcRead_eos hw).truncated
  · obtain ⟨rest, -, -, rfl⟩ := srcRead_eq_byte hw
    exact h.goto_readPayload hp rest b
  · exact (h.srcRead_eos hw).truncated
  · obtain ⟨rest, -, -, rfl⟩ := srcRead_eq_byte hw
    exact h.goto_takePayloadByte hp hlt rest b
  · exact h.goto_verify hp hge
  · exact h.phaseVerify hp

/-- Everything a turn is made of keeps the invariant. -/
theorem inv_keptByTurns : KeptByTurns Inv where
  accept c _ hr h := h.accept c hr
  exec _ _ h _ he := inv_execPhase h.mayEnd he
  frame _ _ h hm := inv_framePhase h hm
  take _ h := h.takeResponse
  reset _ h := h.resetBlock
  port _ _ h := h.outside _ _ _
  agenda _ _ h := h.outside _ _ _
  deliver _ _ _ h := h.outside _ _ _

/-- Settles O51: each thing a turn is made of keeps the invariant, so every step does. -/
theorem stepKeepsInvariant : Obligations.StepKeepsInvariant := by
  unfold Obligations.StepKeepsInvariant
  intro s t h hs
  exact step_keeps inv_keptByTurns h hs

end Sys2Proof.Machine

/-! SUPPORT. What DECODE, CHECKSUM and CVT leave unchanged (10_state.md rules R33 and R36). -/

namespace Sys2Proof.Machine

/-- A command other than TRY_READ_FRAME ends in one response, and after acceptance it writes `TAG` and the
accumulators only. -/
theorem exec_data_cases {i : Instr} {s t : State} (hi : i ≠ .tryReadFrame) (hr : Ready s)
    (h : exec i s = .next t) : ∃ o r g v x y,
      t = raise o r { accept i.command s with tag := g, tagV := v, accA := x, accB := y } := by
  rw [exec_eq_phases hr, if_neg hi] at h
  exact execPhase_eq_next h

/-- Settles O32: acceptance writes the data and clears the registers, and what follows touches none of these. -/
theorem dataCommandsFrame : Obligations.DataCommandsFrame := by
  unfold Obligations.DataCommandsFrame
  intro i s t hw hi hr h
  obtain ⟨o, r, g, v, x, y, rfl⟩ := exec_data_cases hi hr h
  refine ⟨rfl, rfl, rfl, rfl, rfl, rfl, rfl, rfl, rfl, fun a ha => ?_, fun a ha => ?_⟩
  all_goals
    rw [raise_pbuf, accept_pbuf_eq (command_wellFormed hw), command_data, Memory.read_writeAll]
  · simp [ha]
  · simp [Nat.not_lt.2 ha]

end Sys2Proof.Machine

/-! SUPPORT. That the state before a command does not matter (10_state.md rule R37): a data command's answer is
a function of the configuration, and an attempt from states that differ only in what it does not read goes
through states that differ only in what it does not read. -/

namespace Sys2Proof.Machine

/-- The same block but for the contents of `PBUF`, on another host's port and with other turns to come. -/
abbrev SameRegisters (s t : State) : Prop :=
  t = { s with pbuf := t.pbuf, host := t.host, agenda := t.agenda }

/-! ## Data commands -/

theorem form_eq_tryReadFrame {i : Instr} : i.form = .tryReadFrame ↔ i = .tryReadFrame := by
  cases i <;> simp [Instr.form]

theorem exec_of_form {s : State} (hr : Ready s) {i : Instr} {f : Form} (hf : i.form = f) :
    exec i s = formBody f (accept i.command s) := hf ▸ exec_of_ready hr i

/-- What DECODE, CHECKSUM and CVT answer and leave in the registers, for every ready block with a legal
configuration. -/
theorem exec_data_result {i : Instr} {cfg : Cfg} (hw : i.WellFormed) (hi : i ≠ .tryReadFrame)
    (hreg : registryLegal cfg.registry = true) : ∃ r g v x y, ∀ s, Ready s → s.cfg = cfg →
      exec i s = .next
        { afterCommand i.command r s with tag := g, tagV := v, accA := x, accB := y } := by
  have hc := command_wellFormed hw
  cases hf : i.form with
  | tryReadFrame => exact absurd (form_eq_tryReadFrame.1 hf) hi
  | decodeRecord =>
    match hl : lookup cfg.registry i.command.arg with
    | none =>
      exact ⟨_, _, _, 0, 0, fun s hr hcfg =>
        (exec_of_form hr hf).trans (decodeBody_accept_unknown hc s (hcfg ▸ hl))⟩
    | some spec =>
      by_cases hlen : i.command.len = spec.payloadLength
      · exact ⟨_, _, _, 0, 0, fun s hr hcfg => (exec_of_form hr hf).trans
          (decodeBody_accept_ok hc s (hcfg ▸ hl) hlen (lookup_legal hreg hl).le)⟩
      · exact ⟨_, _, _, 0, 0, fun s hr hcfg => (exec_of_form hr hf).trans
          (decodeBody_accept_mismatch hc s (hcfg ▸ hl) hlen)⟩
  | checksum =>
    exact ⟨_, 0, false, _, _, fun s hr _ => (exec_of_form hr hf).trans (checksumBody_accept hc s)⟩
  | cvt k =>
    by_cases hlen : i.data.length = width k
    · exact ⟨_, 0, false, 0, 0, fun s hr _ => exec_cvt hr hf hlen⟩
    · exact ⟨_, 0, false, 0, 0, fun s hr _ => exec_cvt_mismatch hr hf hw hlen⟩

/-! ## Attempts -/

/-- Two attempts as far as each other, with the same payload bytes stored: below `IDX`, which is all the
payload when the frame is verified. -/
structure SameAttempt (s t : State) : Prop where
  registers : SameRegisters s t
  stored : ∀ a < s.idx.toNat, Memory.read s.pbuf a = Memory.read t.pbuf a
  whole : s.phase = .verify → s.specLen.toNat ≤ s.idx.toNat

namespace SameAttempt

variable {s t : State}

theorem phase_eq (h : SameAttempt s t) : t.phase = s.phase := by rw [h.registers]
theorem idx_eq (h : SameAttempt s t) : t.idx = s.idx := by rw [h.registers]
theorem specLen_eq (h : SameAttempt s t) : t.specLen = s.specLen := by rw [h.registers]
theorem tag_eq (h : SameAttempt s t) : t.tag = s.tag := by rw [h.registers]
theorem rxA_eq (h : SameAttempt s t) : t.rxA = s.rxA := by rw [h.registers]
theorem rxB_eq (h : SameAttempt s t) : t.rxB = s.rxB := by rw [h.registers]
theorem accA_eq (h : SameAttempt s t) : t.accA = s.accA := by rw [h.registers]
theorem accB_eq (h : SameAttempt s t) : t.accB = s.accB := by rw [h.registers]
theorem cfg_eq (h : SameAttempt s t) : t.cfg = s.cfg := by rw [h.registers]
theorem checksumMatches_eq (h : SameAttempt s t) : checksumMatches t = checksumMatches s := by
  rw [h.registers, checksumMatches, checksumMatches]
theorem src_eq (h : SameAttempt s t) : t.src = s.src := by rw [h.registers]

theorem symm (h : SameAttempt s t) : SameAttempt t s where
  registers := (congrArg
    (fun u : State => { u with pbuf := s.pbuf, host := s.host, agenda := s.agenda }) h.registers).symm
  stored a ha := (h.stored a (h.idx_eq ▸ ha)).symm
  whole hp := by
    rw [h.specLen_eq, h.idx_eq]
    exact h.whole (h.phase_eq ▸ hp)

/-! The updates of a transition, made to both. -/

theorem goto (h : SameAttempt s t) {p : Phase} (hp : p ≠ .verify) :
    SameAttempt (goto p s) (goto p t) :=
  ⟨congrArg (Machine.goto p) h.registers, h.stored, fun hv => absurd hv hp⟩

theorem goto_verify (h : SameAttempt s t) (hw : s.specLen.toNat ≤ s.idx.toNat) :
    SameAttempt (Machine.goto .verify s) (Machine.goto .verify t) :=
  ⟨congrArg (Machine.goto .verify) h.registers, h.stored, fun _ => hw⟩

theorem raise (h : SameAttempt s t) (o : OutcomeCode) (r : Response) :
    SameAttempt (raise o r s) (raise o r t) :=
  ⟨congrArg (Machine.raise o r) h.registers, h.stored, nofun⟩

theorem truncated (h : SameAttempt s t) : SameAttempt (truncated s) (truncated t) := by
  unfold Machine.truncated
  rw [h.tag_eq]
  exact h.raise _ _

theorem readReady (h : SameAttempt s t) (rest : List Nat) :
    SameAttempt (readReady rest s) (readReady rest t) :=
  ⟨congrArg (Machine.readReady rest) h.registers, h.stored, h.whole⟩

theorem readOne (h : SameAttempt s t) (rest : List ReadAnswer) :
    SameAttempt (readOne rest s) (readOne rest t) :=
  ⟨congrArg (Machine.readOne rest) h.registers, h.stored, h.whole⟩

theorem readEos (h : SameAttempt s t) (rest : List ReadAnswer) :
    SameAttempt (readEos rest s) (readEos rest t) :=
  ⟨congrArg (Machine.readEos rest) h.registers, h.stored, h.whole⟩

theorem latchTag (h : SameAttempt s t) (b : Byte) : SameAttempt (latchTag b s) (latchTag b t) :=
  ⟨congrArg (Machine.latchTag b) h.registers, h.stored, h.whole⟩

theorem latchRxA (h : SameAttempt s t) (b : Byte) : SameAttempt (latchRxA b s) (latchRxA b t) :=
  ⟨congrArg (Machine.latchRxA b) h.registers, h.stored, h.whole⟩

theorem latchRxB (h : SameAttempt s t) (b : Byte) : SameAttempt (latchRxB b s) (latchRxB b t) :=
  ⟨congrArg (Machine.latchRxB b) h.registers, h.stored, h.whole⟩

theorem latchSpecLen (h : SameAttempt s t) (spec : PacketSpec) (hp : s.phase ≠ .verify) :
    SameAttempt (latchSpecLen spec s) (latchSpecLen spec t) :=
  ⟨congrArg (Machine.latchSpecLen spec) h.registers, h.stored, fun hv => absurd hv hp⟩

/-- The byte taken goes to the same offset of both buffers. -/
theorem takePayloadByte (h : SameAttempt s t) (x : Byte) (hlt : s.idx.toNat < s.specLen.toNat) :
    SameAttempt (takePayloadByte x s) (takePayloadByte x t) where
  registers := by
    rw [SameRegisters, takePayloadByte_pbuf, h.idx_eq]
    exact congrArg (Machine.takePayloadByte x) h.registers
  stored a ha := by
    rw [takePayloadByte_pbuf, takePayloadByte_pbuf, h.idx_eq, Memory.read_write, Memory.read_write]
    split
    · rfl
    · simp [succ_mod_of_lt hlt] at ha
      exact h.stored a (by omega)
  whole hp := by
    have := h.whole hp
    omega

theorem srcRead_eos (h : SameAttempt s t) {w : State} (hw : srcRead s = .eos w) :
    ∃ w', srcRead t = .eos w' ∧ SameAttempt w w' := by
  obtain ⟨hn, rfl⟩ | ⟨rest, ha, hl, rfl⟩ := srcRead_eq_eos hw
  · exact ⟨t, srcRead_of_exhausted (by rwa [Answering, h.cfg_eq, h.src_eq]), h⟩
  · exact ⟨_, srcRead_of_eos (by rwa [Answering, h.cfg_eq, h.src_eq]) (h.src_eq ▸ hl), h.readEos rest⟩

theorem srcRead_byte (h : SameAttempt s t) {b : Byte} {w : State} (hw : srcRead s = .byte b w) :
    ∃ w', srcRead t = .byte b w' ∧ w.cfg = s.cfg ∧ w.phase = s.phase ∧ SameAttempt w w' := by
  obtain ⟨rest, ha, hl, rfl⟩ := srcRead_eq_byte hw
  exact ⟨_, srcRead_of_byte (by rwa [Answering, h.cfg_eq, h.src_eq]) (h.src_eq ▸ hl), rfl, rfl,
    h.readOne rest⟩

theorem phaseVerify (h : SameAttempt s t) (hp : s.phase = .verify) :
    SameAttempt (phaseVerify s) (phaseVerify t) := by
  have hb : Memory.bytes t.pbuf 0 s.specLen.toNat = Memory.bytes s.pbuf 0 s.specLen.toNat :=
    Memory.bytes_congr fun a _ ha => (h.stored a (by have := h.whole hp; omega)).symm
  unfold Machine.phaseVerify
  rw [h.checksumMatches_eq, h.specLen_eq, hb, h.tag_eq, h.rxA_eq, h.rxB_eq, h.accA_eq,
    h.accB_eq]
  split
  · exact h.raise _ _
  · exact h.raise _ _

/-- Both take the same payload byte, if one takes it. -/
theorem framePhase_payloadByte (h : SameAttempt s t) (hp : s.phase = .readPayload)
    (hlt : s.idx.toNat < s.specLen.toNat) {b : Byte} {w : State} (hw : srcRead s = .byte b w) :
    ∃ t', framePhase t = .moved t' ∧ SameAttempt (Machine.goto
      (if s.idx.toNat + 1 < s.specLen.toNat then .readPayload else .verify)
      (Machine.takePayloadByte b w)) t' := by
  obtain ⟨rest, ha, hl, rfl⟩ := srcRead_eq_byte hw
  have hm := framePhase_payload (h.phase_eq.trans hp) (by rwa [Answering, h.cfg_eq, h.src_eq])
    (by rwa [h.idx_eq, h.specLen_eq]) (h.src_eq ▸ hl)
  rw [h.idx_eq, h.specLen_eq] at hm
  refine ⟨_, hm, ?_⟩
  have hs := (h.readOne rest).takePayloadByte b hlt
  split
  · exact hs.goto nofun
  · refine hs.goto_verify ?_
    simp [succ_mod_of_lt hlt]
    omega

/-- The same transition from both. -/
theorem framePhase_moved (h : SameAttempt s t) {s' : State} (hm : framePhase s = .moved s') :
    ∃ t', framePhase t = .moved t' ∧ SameAttempt s' t' := by
  have hpt := h.phase_eq
  obtain ⟨hp, ⟨hk, rfl⟩ | ⟨n, rest, hk, hr, ⟨hn, rfl⟩ | ⟨hn, rfl⟩⟩⟩ |
    ⟨hp, ⟨w, hw, rfl⟩ | ⟨b, w, hw, ⟨hb, rfl⟩ | ⟨hb, rfl⟩⟩⟩ |
    ⟨hp, ⟨w, hw, rfl⟩ | ⟨b, w, hw, ⟨hl, rfl⟩ | ⟨spec, hl, rfl⟩⟩⟩ |
    ⟨hp, ⟨w, hw, rfl⟩ | ⟨b, w, hw, rfl⟩⟩ | ⟨hp, ⟨w, hw, rfl⟩ | ⟨b, w, hw, rfl⟩⟩ |
    ⟨hp, ⟨hlt, ⟨w, hw, rfl⟩ | ⟨b, w, hw, rfl⟩⟩ | ⟨hge, rfl⟩⟩ | ⟨hp, rfl⟩ := framePhase_cases hm
  all_goals rw [hp] at hpt
  · exact ⟨_, framePhase_ready hpt (rs := t.src.readies) (by simp [readyLeft, h.cfg_eq, hk]),
      h.goto nofun⟩
  · exact ⟨_, framePhase_not_ready hpt (h.cfg_eq ▸ hk) (h.src_eq ▸ hr) (h.cfg_eq ▸ hn),
      (h.readReady rest).raise _ _⟩
  · exact ⟨_, framePhase_ready hpt (rs := rest)
      (by simp [readyLeft, h.cfg_eq, h.src_eq, hk, hr, Nat.not_lt.1 hn]), (h.readReady rest).goto nofun⟩
  · obtain ⟨w', hw', hs⟩ := h.srcRead_eos hw
    exact ⟨_, framePhase_sync_eos hpt hw', hs.raise _ _⟩
  · obtain ⟨w', hw', hc, -, hs⟩ := h.srcRead_byte hw
    exact ⟨_, framePhase_sync hpt hw' (by rw [hs.cfg_eq, hc, hb]), hs.goto nofun⟩
  · obtain ⟨w', hw', hc, -, hs⟩ := h.srcRead_byte hw
    exact ⟨_, framePhase_noise hpt hw' (by rwa [hs.cfg_eq, hc]), hs.raise _ _⟩
  · obtain ⟨w', hw', hs⟩ := h.srcRead_eos hw
    exact ⟨_, framePhase_tag_eos hpt hw', hs.raise _ _⟩
  · obtain ⟨w', hw', hc, -, hs⟩ := h.srcRead_byte hw
    exact ⟨_, framePhase_tag_unknown hpt hw' (by rwa [hs.cfg_eq, hc]), (hs.latchTag b).raise _ _⟩
  · obtain ⟨w', hw', hc, hpw, hs⟩ := h.srcRead_byte hw
    exact ⟨_, framePhase_tag hpt hw' (by rwa [hs.cfg_eq, hc]),
      ((hs.latchTag b).latchSpecLen spec (by simp [hpw, hp])).goto nofun⟩
  · obtain ⟨w', hw', hs⟩ := h.srcRead_eos hw
    exact ⟨_, framePhase_ckA_eos hpt hw', hs.truncated⟩
  · obtain ⟨w', hw', -, -, hs⟩ := h.srcRead_byte hw
    exact ⟨_, framePhase_ckA hpt hw', (hs.latchRxA b).goto nofun⟩
  · obtain ⟨w', hw', hs⟩ := h.srcRead_eos hw
    exact ⟨_, framePhase_ckB_eos hpt hw', hs.truncated⟩
  · obtain ⟨w', hw', -, -, hs⟩ := h.srcRead_byte hw
    exact ⟨_, framePhase_ckB hpt hw', (hs.latchRxB b).goto nofun⟩
  · obtain ⟨w', hw', hs⟩ := h.srcRead_eos hw
    exact ⟨_, framePhase_payload_eos hpt (by rwa [h.idx_eq, h.specLen_eq]) hw', hs.truncated⟩
  · exact h.framePhase_payloadByte hp hlt hw
  · exact ⟨_, framePhase_payload_done hpt (by rwa [h.idx_eq, h.specLen_eq]),
      h.goto_verify (Nat.not_lt.1 hge)⟩
  · exact ⟨_, framePhase_verify hpt, h.phaseVerify hp⟩

theorem framePhase_waits (h : SameAttempt s t) (hw : framePhase s = .waits) :
    framePhase t = .waits := by
  cases ht : framePhase t with
  | waits => rfl
  | moved t' =>
    obtain ⟨s', hs, -⟩ := h.symm.framePhase_moved ht
    rw [hw] at hs
    cases hs

theorem runFrame (h : SameAttempt s t) (n : Nat) : SameAttempt (runFrame n s) (runFrame n t) := by
  induction n generalizing s t with
  | zero => exact h
  | succ n ih =>
    cases hm : framePhase s with
    | waits => rwa [runFrame_of_waits hm, runFrame_of_waits (h.framePhase_waits hm)]
    | moved s' =>
      obtain ⟨t', ht, hs⟩ := h.framePhase_moved hm
      rw [runFrame_succ_of_moved hm, runFrame_succ_of_moved ht]
      exact ih hs

/-- Acceptance of an attempt clears everything that may differ and is read. -/
theorem accept {s t : State} (hv : s.rspV = t.rspV) (hcfg : s.cfg = t.cfg) (hsrc : s.src = t.src) :
    SameAttempt (accept Instr.tryReadFrame.command s) (accept Instr.tryReadFrame.command t) where
  registers := by simp [SameRegisters, Machine.accept, hv, hcfg, hsrc]
  stored a ha := absurd ha (Nat.not_lt_zero a)
  whole := nofun

end SameAttempt

/-- Every command takes two ready blocks with the same configuration and source to the same registers. -/
theorem exec_sameRegisters {i : Instr} {s t : State} (hw : i.WellFormed)
    (hreg : registryLegal s.cfg.registry = true) (hs : Ready s) (ht : Ready t) (hcfg : s.cfg = t.cfg)
    (hsrc : s.src = t.src) :
    ∃ s' t', exec i s = .next s' ∧ exec i t = .next t' ∧ SameRegisters s' t' := by
  by_cases hi : i = .tryReadFrame
  · subst hi
    exact ⟨_, _, exec_tryReadFrame hs, exec_tryReadFrame ht,
      ((SameAttempt.accept (hs.2.trans ht.2.symm) hcfg hsrc).runFrame frameFuel).registers⟩
  · obtain ⟨r, g, v, x, y, h⟩ := exec_data_result hw hi hreg
    exact ⟨_, _, h s hs rfl, h t ht hcfg.symm, by simp [SameRegisters, afterCommand, hcfg, hsrc]⟩

/-- Settles O56: the two blocks end with the same registers, each of those the statement lists among them. -/
theorem earlierStateDoesNotMatter : Obligations.EarlierStateDoesNotMatter := by
  unfold Obligations.EarlierStateDoesNotMatter
  intro i s t hw hreg hs ht hcfg hsrc
  obtain ⟨s', t', he, he', h⟩ := exec_sameRegisters hw hreg hs ht hcfg hsrc
  refine ⟨s', t', he, he', ?_⟩
  rw [h]
  exact ⟨rfl, rfl, rfl, rfl, rfl, rfl, rfl, rfl, rfl, rfl, rfl, rfl, rfl, rfl, rfl, rfl⟩

end Sys2Proof.Machine

/-! SUPPORT. The values of the registers after reset, and the bits of the status word. -/

namespace Sys2Proof.Machine

/-- Settles O12: each register is read off `State.constructed`. -/
theorem resetRegisterValues : Obligations.ResetRegisterValues := by
  unfold Obligations.ResetRegisterValues
  exact ⟨rfl, rfl, rfl, rfl, rfl, rfl, rfl, rfl, rfl, rfl, rfl, fun _ _ => rfl, rfl, rfl, rfl, rfl, rfl⟩

/-- Which part of the status word a bit is in (10_state.md rule R35). -/
theorem statusWord_getLsbD (r : Response) (i : Nat) :
    r.statusWord.getLsbD i =
      if i < 4 then r.outcome.code.getLsbD i
      else if i = 4 then r.tagV
      else if i = 5 then r.ckV
      else if i < 8 then false
      else r.tag.getLsbD (i - 8) := by
  change (r.tag ++ (0 : BitVec 2) ++ BitVec.ofBool r.ckV ++ BitVec.ofBool r.tagV ++
      r.outcome.code).getLsbD i = _
  simp only [BitVec.getLsbD_append, Nat.sub_sub]
  obtain h | rfl | rfl | rfl | rfl | h :
      i < 4 ∨ i = 4 ∨ i = 5 ∨ i = 6 ∨ i = 7 ∨ 8 ≤ i := by omega
  · simp [h]
  · simp
  · simp
  · simp
  · simp
  · repeat rw [if_neg (by omega)]

/-- Settles O57: each field is its own part of the concatenation. -/
theorem statusWordFields : Obligations.StatusWordFields := by
  unfold Obligations.StatusWordFields
  intro r
  have hcode : r.statusWord.extractLsb' 0 4 = r.outcome.code := by
    ext i hi
    simp [statusWord_getLsbD, hi]
  have hzero : r.statusWord.extractLsb' 6 2 = 0 := by
    ext i hi
    rw [BitVec.getElem_extractLsb', statusWord_getLsbD, if_neg (by omega), if_neg (by omega),
      if_neg (by omega), if_pos (by omega)]
    simp
  have htag : r.statusWord.extractLsb' 8 8 = r.tag := by
    ext i hi
    rw [BitVec.getElem_extractLsb', statusWord_getLsbD, if_neg (by omega), if_neg (by omega),
      if_neg (by omega), if_neg (by omega), Nat.add_sub_cancel_left, BitVec.getLsbD_eq_getElem hi]
  refine ⟨?_, statusWord_getLsbD r 4, statusWord_getLsbD r 5, hzero, htag⟩
  rw [hcode]
  cases r.outcome <;> rfl

end Sys2Proof.Machine

/-! SUPPORT. One step by agent: what the turn at hand asks for, and what the block does when it is its move
(10_state.md rule R20; 20_memory.md rules R55 to R59; log 5, log 6). -/

namespace Sys2Proof.Machine

section
variable {s : State}

/-! ## The turn at hand -/

theorem step_of_noTurn (h : s.agenda = []) : step s = blockMove s := by rw [step, h]

theorem step_of_host {a : HostAction} {turns : List Turn} (h : s.agenda = .host a :: turns) :
    step s = .next (hostTurn a (setAgenda turns s)) := by rw [step, h]

theorem step_of_source {a : SourceAction} {turns : List Turn} (h : s.agenda = .source a :: turns) :
    step s = .next (sourceTurn a (setAgenda turns s)) := by rw [step, h]

theorem step_of_block {turns : List Turn} (h : s.agenda = .block :: turns) :
    step s = blockTurn (setAgenda turns s) := by rw [step, h]

/-! ## The block's move -/

theorem blockMove_of_run {t : State} {i : Instr} (h : fetch s = .run i t) : blockMove s = exec i t := by
  rw [blockMove, h]

theorem blockMove_of_busy (h : s.phase ≠ .idle) : blockMove s = resume s := by
  rw [blockMove, fetch_eq_busy.2 h]

/-- A block whose response has not been taken waits (20_memory.md rule R59). -/
theorem blockMove_of_pending (hp : s.phase = .idle) (hv : s.rspV = true) : blockMove s = .next s := by
  rw [blockMove, fetch_of_pending hp hv]

/-- An attempt in progress is carried on by the frame reader. -/
theorem blockMove_of_attempt (hp : s.phase ≠ .idle) (he : s.phase ≠ .exec) :
    blockMove s = .next (runFrame frameFuel s) := by
  rw [blockMove_of_busy hp, resume, if_neg he]

end

/-- Settles O6: from the case of `step` and of `fetch` each clause is in. -/
theorem stepRunsDecodedInstruction : Obligations.StepRunsDecodedInstruction := by
  unfold Obligations.StepRunsDecodedInstruction
  intro s
  refine ⟨fun i rest hg hr hd => ?_, step_of_noTurn, fun hg hp => ?_, fun turns => step_of_block⟩
  · exact (step_of_noTurn hg).trans (blockMove_of_run (fetch_of_ready hr hd))
  · exact (step_of_noTurn hg).trans (blockMove_of_busy hp)

/-- Settles O11: the turn is the taking of a response that is pending. -/
theorem takingClearsPending : Obligations.TakingClearsPending := by
  unfold Obligations.TakingClearsPending
  intro s turns hg hv
  rw [step_of_host hg, hostTurn, takeResponse_pending (setAgenda turns s) hv]
  rfl

/-- Settles O58: each turn is one update of a port. -/
theorem hostAndSourceTurns : Obligations.HostAndSourceTurns := by
  unfold Obligations.HostAndSourceTurns
  intro s turns
  refine ⟨fun bytes hg => step_of_host hg, fun hg hv => ?_, fun r hg => ?_, fun n hg => ?_⟩
  · rw [step_of_host hg, hostTurn, takeResponse_none (setAgenda turns s) hv]
    rfl
  · rw [step_of_source hg]
    simp [sourceTurn, deliver, setAgenda]
  · rw [step_of_source hg]
    simp [sourceTurn, deliver, setAgenda]

/-! ## Acceptance -/

theorem splitCommand_bytes {c : Command} (h : c.WellFormed) (rest : List Byte) :
    splitCommand (c.bytes ++ rest) = some (c, rest) :=
  splitCommand_cons c.op c.arg c.len c.data rest h

/-- A ready block takes the command at the head of its port, legal or not (20_memory.md rule R59). -/
theorem blockTurn_accepts {s : State} {c : Command} {rest : List Byte} (hr : Ready s)
    (hc : c.WellFormed) (hp : s.host.port = c.bytes ++ rest) :
    blockTurn s = .next (accept c (setPort rest s)) := by
  match h : decodeCommand c with
  | .ok i =>
    have hd : decode s.host.port = .ok (i, rest) := by
      simp only [hp, decode, splitCommand_bytes hc, h]
    simp only [blockTurn, fetch_of_ready hr hd, (decodeCommand_eq_ok hc h).1]
  | .error r =>
    have hd : decode s.host.port = .error (.illegal r c rest) := by
      simp only [hp, decode, splitCommand_bytes hc, h]
    simp only [blockTurn, fetch_of_illegal hr hd]

/-- Only the header of TRY_READ_FRAME leads to its first phase (10_state.md rule R32). -/
theorem firstPhase_eq (c : Command) :
    firstPhase c = if c.op = 1 ∧ c.arg = 0 ∧ c.len = 0 then .checkReady else .exec := by
  split
  · next h =>
    obtain ⟨hop, harg, hlen⟩ := h
    rw [firstPhase, hop, harg, hlen]
    rfl
  · next h =>
    unfold firstPhase
    split
    · next hf => exact absurd (classify_eq_ok hf) h
    · rfl

/-- Settles O8: the block takes the command, and `accept` is what it then does. -/
theorem acceptanceLatchesAndClears : Obligations.AcceptanceLatchesAndClears := by
  unfold Obligations.AcceptanceLatchesAndClears
  intro s c rest hr hc hp
  rw [blockTurn_accepts hr hc hp, accept, firstPhase_eq, take_data hc]
  rfl

/-! ## Commands that end and attempts that hold -/

theorem runFrame_host (n : Nat) (s : State) : (runFrame n s).host = s.host :=
  runFrame_induct (P := fun t => t.host = s.host)
    (fun _ _ h hm => (framePhase_frame hm).2.1.trans h) n s rfl

theorem execPhase_host {s t : State} (h : execPhase s = .next t) : t.host = s.host := by
  obtain ⟨o, r, g, v, x, y, rfl⟩ := execPhase_eq_next h
  rfl

theorem resume_host {s t : State} (h : resume s = .next t) : t.host = s.host := by
  unfold resume at h
  split at h
  · exact execPhase_host h
  · cases h
    exact runFrame_host _ s

/-- Settles O9: neither of the two blocks that are not ready looks at its port. -/
theorem offerHoldsUntilReady : Obligations.OfferHoldsUntilReady := by
  unfold Obligations.OfferHoldsUntilReady
  intro s t hg hn h
  rw [step_of_noTurn hg] at h
  by_cases hp : s.phase = .idle
  · have hv : s.rspV = true := by simpa [Ready, hp] using hn
    rw [blockMove_of_pending hp hv] at h
    cases h
    exact ⟨rfl, fun _ => rfl, exec_of_not_ready hn⟩
  · rw [blockMove_of_busy hp] at h
    exact ⟨resume_host h, fun hp' => absurd hp' hp, exec_of_not_ready hn⟩

/-- An attempt has ended with its response, or is in progress with none (20_memory.md rules R55 and R57). -/
def EndedOrHeld (s : State) : Prop :=
  (s.phase = .idle ∧ s.rspV = true) ∨ (s.phase ≠ .idle ∧ s.phase ≠ .exec ∧ s.rspV = false)

theorem EndedOrHeld.framePhase {s t : State} (hs : EndedOrHeld s) (h : framePhase s = .moved t) :
    EndedOrHeld t := by
  obtain ⟨hp, -⟩ | ⟨-, -, hv⟩ := hs
  · rw [framePhase_idle hp] at h
    cases h
  · obtain ⟨hp, hv', -⟩ | ⟨hp, he, -, hv', -⟩ := framePhase_response h
    · exact .inl ⟨hp, hv'⟩
    · exact .inr ⟨hp, he, hv'.trans hv⟩

theorem EndedOrHeld.phase_eq_idle {s : State} (h : EndedOrHeld s) (hv : s.rspV = true) :
    s.phase = .idle := by
  obtain ⟨hp, -⟩ | ⟨-, -, hv'⟩ := h
  · exact hp
  · simp [hv] at hv'

theorem EndedOrHeld.phase_ne {s : State} (h : EndedOrHeld s) (hv : s.rspV = false) :
    s.phase ≠ .idle ∧ s.phase ≠ .exec := by
  obtain ⟨-, hv'⟩ | ⟨hp, he, -⟩ := h
  · simp [hv] at hv'
  · exact ⟨hp, he⟩

/-- An attempt accepted by a ready block ends or holds. -/
theorem endedOrHeld_attempt {s : State} (hr : Ready s) :
    EndedOrHeld (runFrame frameFuel (accept Instr.tryReadFrame.command s)) :=
  runFrame_induct (fun _ _ => EndedOrHeld.framePhase) _ _ (.inr ⟨nofun, nofun, hr.2⟩)

/-- Verification waits for nothing. -/
theorem runFrame_phase_ne_verify (s : State) : (runFrame frameFuel s).phase ≠ .verify := by
  intro hp
  have h := runFrame_stops s
  rw [framePhase_verify hp] at h
  cases h

/-- Settles O10: an attempt ends or holds, and not in `VERIFY`; every other command ends. -/
theorem oneResponsePerCommand : Obligations.OneResponsePerCommand := by
  unfold Obligations.OneResponsePerCommand
  intro i s t _ hr h
  by_cases hi : i = .tryReadFrame
  · subst hi
    rw [exec_tryReadFrame hr] at h
    cases h
    refine ⟨runFrame_host _ _, ?_⟩
    obtain hend | ⟨hp, he, hv⟩ := endedOrHeld_attempt hr
    · exact .inl hend
    · exact .inr ⟨rfl, hv, hp, he, runFrame_phase_ne_verify _⟩
  · obtain ⟨o, r, g, v, x, y, rfl⟩ := exec_data_cases hi hr h
    exact ⟨rfl, .inl ⟨rfl, rfl⟩⟩

end Sys2Proof.Machine

/-! SUPPORT. The source seen from an attempt: answers that come late, that do not come, and the `EOS` a FILE
source repeats (20_memory.md rules R52, R54, R55 and R66). -/

namespace Sys2Proof.Machine

/-- Settles O47: an attempt with the later answers from the start is the attempt without them, carried on
after they came; one that has ended makes no transition more. -/
theorem lateAnswersChangeNothing : Obligations.LateAnswersChangeNothing := by
  unfold Obligations.LateAnswersChangeNothing
  intro s ys zs hr
  have hlate : exec .tryReadFrame (deliver ys zs s) = .next (runFrame frameFuel
      (deliver ys zs (runFrame frameFuel (accept Instr.tryReadFrame.command s)))) := by
    rw [exec_tryReadFrame (s := deliver ys zs s) hr, ← runFrame_deliver]
    rfl
  refine ⟨_, exec_tryReadFrame hr, fun hv => ?_, fun hv => ?_⟩ <;> rw [hlate]
  · have hp := (endedOrHeld_attempt hr).phase_eq_idle hv
    rw [runFrame_of_waits (s := deliver ys zs _) (framePhase_idle hp)]
  · obtain ⟨hp, he⟩ := (endedOrHeld_attempt hr).phase_ne hv
    exact (blockMove_of_attempt (s := deliver ys zs _) hp he).symm

/-! ## An unanswered query or read -/

/-- The frame reader makes no transition in a phase whose read is not answered. -/
theorem framePhase_of_unanswered {s : State} {j : Nat} (hp : s.phase = waitPhase j)
    (ha : Answering s) (hs : s.src.answers = [])
    (hlt : s.phase = .readPayload → s.idx.toNat < s.specLen.toNat) :
    framePhase s = .waits := by
  have hread := srcRead_of_nil ha hs
  match j with
  | 0 => simp [framePhase, hp, waitPhase, phaseReadSync, hread]
  | 1 => simp [framePhase, hp, waitPhase, phaseReadTag, hread]
  | 2 => simp [framePhase, hp, waitPhase, phaseReadCkA, hread]
  | 3 => simp [framePhase, hp, waitPhase, phaseReadCkB, hread]
  | j + 4 => simp [framePhase, hp, waitPhase, phaseReadPayload, hlt hp, hread]

theorem waitPhase_ne (j : Nat) : waitPhase j ≠ .idle ∧ waitPhase j ≠ .exec := by
  unfold waitPhase
  split <;> exact ⟨nofun, nofun⟩

/-- An attempt that has come to a state in which it can make no transition holds in it. -/
theorem exec_holds {s u : State} (hr : Ready s)
    (hu : runFrame frameFuel (accept Instr.tryReadFrame.command s) = runFrame frameFuel u)
    (hw : framePhase u = .waits) (hp : u.phase ≠ .idle ∧ u.phase ≠ .exec) :
    exec .tryReadFrame s = .next u ∧ blockMove u = .next u := by
  rw [runFrame_of_waits hw] at hu
  rw [exec_tryReadFrame hr, hu, blockMove_of_attempt hp.1 hp.2, runFrame_of_waits hw]
  exact ⟨rfl, rfl⟩

/-- The attempt has read `j` bytes, all the source has answered, holds where it waits for the next, with no
response, and stays there (20_memory.md rule R55). -/
def HoldsAt (s : State) (rs : List Nat) (j : Nat) : Prop :=
  ∃ u, exec .tryReadFrame s = .next u ∧ u.phase = waitPhase j ∧ u.rspV = false ∧
    u.consumed.toNat = j ∧
    u.src = { s.src with cursor := s.src.cursor + j, answers := [], readies := rs } ∧
    blockMove u = .next u

/-- It does so once it has come there. -/
theorem holdsAt_of_runFrame {s u : State} {rs : List Nat} {j : Nat} (hr : Ready s) (ha : Answering s)
    (hu : runFrame frameFuel (accept Instr.tryReadFrame.command s) = runFrame frameFuel u)
    (hp : u.phase = waitPhase j) (hlt : u.phase = .readPayload → u.idx.toNat < u.specLen.toNat)
    (hj : j < 65536)
    (hsrc : u.src = { s.src with cursor := s.src.cursor + j, answers := [], readies := rs } := by rfl)
    (hn : u.consumed = BitVec.ofNat 16 j := by rfl) (hv : u.rspV = s.rspV := by rfl)
    (hcfg : u.cfg = s.cfg := by rfl) : HoldsAt s rs j := by
  have ha' : Answering u := by simpa only [Answering, hcfg, hsrc] using ha
  have hw := framePhase_of_unanswered hp ha' (by rw [hsrc]) hlt
  obtain ⟨hex, hstay⟩ := exec_holds hr hu hw (hp ▸ waitPhase_ne j)
  exact ⟨u, hex, hp, hv.trans hr.2, by rw [hn, BitVec.toNat_ofNat, Nat.mod_eq_of_lt hj], hsrc, hstay⟩

section
variable {s : State} {rs : List Nat} (hr : Ready s) (hl : readyLeft s = some rs) (ha : Answering s)
include hr hl ha

theorem holdsAt_sync (hs : s.src.answers = []) : HoldsAt s rs 0 := by
  have hrun := runFrame_atSync hl
  rw [hs] at hrun
  exact holdsAt_of_runFrame hr ha hrun rfl nofun (by decide)

theorem holdsAt_tag (hs : s.src.answers = [.byte s.cfg.syncByte]) : HoldsAt s rs 1 :=
  holdsAt_of_runFrame hr ha (runFrame_atTag hl ha hs) rfl nofun (by decide)

variable {t : Byte} {spec : PacketSpec} (hlook : lookup s.cfg.registry t = some spec)
include hlook

theorem holdsAt_ckA (hs : s.src.answers = [.byte s.cfg.syncByte, .byte t]) : HoldsAt s rs 2 :=
  holdsAt_of_runFrame hr ha (runFrame_atCkA hl ha hlook hs) rfl nofun (by decide)

theorem holdsAt_ckB {a : Byte} (hs : s.src.answers = [.byte s.cfg.syncByte, .byte t, .byte a]) :
    HoldsAt s rs 3 :=
  holdsAt_of_runFrame hr ha (runFrame_atCkB hl ha hlook hs) rfl nofun (by decide)

/-- After the bytes `P` of a payload that has more. -/
theorem holdsAt_payload {a b : Byte} {P : List Byte} (hP : P.length < spec.payloadLength.toNat)
    (hs : s.src.answers = (frameBytes s.cfg.syncByte t a b P).map .byte) :
    HoldsAt s rs (4 + P.length) := by
  have hlt := spec.payloadLength.isLt
  have hrun := runFrame_inPayload (rest := []) hl ha hlook hP.le (by simpa using hs)
  have hidx : P.length % 256 < spec.payloadLength.toNat := by omega
  refine holdsAt_of_runFrame hr ha hrun ?_ (fun _ => ?_) (by omega)
  · rw [if_pos hP, Nat.add_comm]
    rfl
  · simpa [inPayload, inFrame] using hidx

end

/-- An unanswered readiness query. -/
theorem exec_holds_checkReady {s : State} (hr : Ready s) (hk : s.cfg.sourceKind = .streamed)
    (hq : s.src.readies = []) : ∃ u, exec .tryReadFrame s = .next u ∧ u.phase = .checkReady ∧
      u.rspV = false ∧ u.consumed = 0 ∧ u.src = s.src ∧ blockMove u = .next u := by
  have hp : (accept Instr.tryReadFrame.command s).phase = .checkReady := rfl
  have hw : framePhase (accept Instr.tryReadFrame.command s) = .waits := by
    rw [framePhase, hp]
    simp [phaseCheckReady, hk, srcReady, hq]
  obtain ⟨hex, hstay⟩ := exec_holds hr rfl hw ⟨nofun, nofun⟩
  exact ⟨_, hex, hp, hr.2, rfl, rfl, hstay⟩

/-- Settles O41: by the position of the byte that does not come. -/
theorem attemptHoldsUnanswered : Obligations.AttemptHoldsUnanswered := by
  unfold Obligations.AttemptHoldsUnanswered
  intro s rs j hr
  refine ⟨exec_holds_checkReady hr, fun hl ha hj hs => ?_, fun t a b spec P hl ha hlook hP hj hs => ?_⟩
  · match j with
    | 0 => exact holdsAt_sync hr hl ha hs
    | 1 => exact holdsAt_tag hr hl ha hs
  · match j with
    | 0 => exact holdsAt_sync hr hl ha hs
    | 1 => exact holdsAt_tag hr hl ha hs
    | 2 => exact holdsAt_ckA hr hl ha hlook hs
    | 3 => exact holdsAt_ckB hr hl ha hlook hs
    | k + 4 =>
      have hlen : (P.take k).length = k := by
        rw [List.length_take]
        omega
      have h := holdsAt_payload (P := P.take k) hr hl ha hlook (by omega) hs
      rw [hlen, Nat.add_comm] at h
      exact h

/-! ## An exhausted FILE source -/

/-- Settles O35: the sync position reads the `EOS` that the source repeats. -/
theorem exhaustedFileAttempt : Obligations.ExhaustedFileAttempt := by
  unfold Obligations.ExhaustedFileAttempt
  intro s hr hk he
  have hl : readyLeft s = some s.src.readies := by simp [readyLeft, hk]
  have hread := srcRead_of_exhausted (s := inAttempt .readSync 0 s.src.answers s.src.readies s)
    (not_not.2 ⟨hk, he⟩)
  rw [exec_tryReadFrame hr, runFrame_atSync hl, runFrame_last (framePhase_sync_eos rfl hread) rfl]
  rfl

/-- A transition on an exhausted FILE source leaves the cursor and the `EOS` where they are. -/
theorem framePhase_exhausted {s t : State} (hn : ¬Answering s) (h : framePhase s = .moved t) :
    t.src.exhausted = s.src.exhausted ∧ t.src.cursor = s.src.cursor := by
  obtain ⟨w, hsrc, -, rfl | ⟨_, _, _, rfl⟩ | hw | ⟨b, hw⟩⟩ := framePhase_source h <;> rw [hsrc]
  · exact ⟨rfl, rfl⟩
  · exact ⟨rfl, rfl⟩
  · rw [srcRead_of_exhausted hn] at hw
    cases hw
    exact ⟨rfl, rfl⟩
  · rw [srcRead_of_exhausted hn] at hw
    cases hw

theorem takeResponse_src (s : State) : (takeResponse s).src = s.src := by
  unfold takeResponse
  split <;> rfl

theorem execPhase_src {s t : State} (h : execPhase s = .next t) : t.src = s.src := by
  obtain ⟨o, r, g, v, x, y, rfl⟩ := execPhase_eq_next h
  rfl

/-- The source is a FILE source that has answered `EOS`, with its cursor at `n`. -/
def ExhaustedAt (n : Nat) (s : State) : Prop :=
  s.cfg.sourceKind = .file ∧ s.src.exhausted = true ∧ s.src.cursor = n

theorem ExhaustedAt.not_answering {n : Nat} {s : State} (h : ExhaustedAt n s) : ¬Answering s := by
  obtain ⟨hk, he, -⟩ := h
  exact not_not.2 ⟨hk, he⟩

theorem ExhaustedAt.congr {n : Nat} {s t : State} (h : ExhaustedAt n s) (hc : t.cfg = s.cfg)
    (hs : t.src.exhausted = s.src.exhausted ∧ t.src.cursor = s.src.cursor) : ExhaustedAt n t := by
  rwa [ExhaustedAt, hc, hs.1, hs.2]

/-- Nothing a turn is made of ends the `EOS` of a FILE source (20_memory.md rule R54). -/
theorem exhaustedAt_keptByTurns (n : Nat) : KeptByTurns (ExhaustedAt n) where
  accept _ _ _ h := h
  exec _ _ h _ he := h.congr (execPhase_cfg he) (by simp [execPhase_src he])
  frame _ _ h hm := h.congr (framePhase_frame hm).1 (framePhase_exhausted h.not_answering hm)
  take s h := h.congr (takeResponse_cfg s) (by simp [takeResponse_src])
  reset _ h := h
  port _ _ h := h
  agenda _ _ h := h
  deliver _ _ _ h := h

/-- Settles O55: every turn keeps it. -/
theorem fileExhaustionIsPermanent : Obligations.FileExhaustionIsPermanent := by
  unfold Obligations.FileExhaustionIsPermanent
  intro s t hk he h
  obtain ⟨-, he', hc⟩ := step_keeps (exhaustedAt_keptByTurns s.src.cursor) ⟨hk, he, rfl⟩ h
  exact ⟨he', hc⟩

/-! ## The cursor -/

theorem byteCount_append (l m : List ReadAnswer) :
    byteCount (l ++ m) = byteCount l + byteCount m := by
  induction l with
  | nil => simp [byteCount]
  | cons a l ih =>
    cases a with
    | byte b =>
      simp only [List.cons_append, byteCount, ih]
      omega
    | eos => exact ih

/-- Some answers are taken from the front, and the cursor moves by the bytes among them (20_memory.md rules
R51, R65 and R66). -/
def TakesAnswers (s t : Source) : Prop :=
  ∃ used, s.answers = used ++ t.answers ∧ t.cursor = s.cursor + byteCount used

theorem TakesAnswers.refl (s : Source) : TakesAnswers s s := ⟨[], rfl, rfl⟩

theorem TakesAnswers.trans {s t u : Source} (h : TakesAnswers s t) (h' : TakesAnswers t u) :
    TakesAnswers s u := by
  obtain ⟨used, ha, hc⟩ := h
  obtain ⟨used', ha', hc'⟩ := h'
  refine ⟨used ++ used', ?_, ?_⟩
  · rw [ha, ha', List.append_assoc]
  · rw [hc', hc, byteCount_append, Nat.add_assoc]

/-- Everything one transition of `PHASE` can be: none, an acceptance, the EXEC phase, or a transition of the
frame reader. -/
theorem blockTurn_cases {s t : State} (h : blockTurn s = .next t) :
    t = s ∨ (∃ c rest, t = accept c (setPort rest s)) ∨ execPhase s = .next t ∨
      framePhase s = .moved t := by
  unfold blockTurn at h
  split at h
  · next hf =>
    obtain ⟨-, rest, -, rfl⟩ := fetch_eq_run hf
    cases h
    exact .inr (.inl ⟨_, rest, rfl⟩)
  · next hf =>
    obtain ⟨-, -, rest, -, rfl⟩ := fetch_eq_reject hf
    cases h
    exact .inr (.inl ⟨_, rest, rfl⟩)
  · cases h
    exact .inl rfl
  · split at h
    · exact .inr (.inr (.inl h))
    · split at h <;> cases h
      · next hm => exact .inr (.inr (.inr hm))
      · exact .inl rfl

theorem blockTurn_takesAnswers {s t : State} (h : blockTurn s = .next t) :
    TakesAnswers s.src t.src := by
  obtain rfl | ⟨c, rest, rfl⟩ | he | hm := blockTurn_cases h
  · exact .refl _
  · exact .refl _
  · rw [execPhase_src he]
    exact .refl _
  · obtain ⟨used, ha, hc, -⟩ := framePhase_takes hm
    exact ⟨used, ha, hc⟩

theorem blockTurns_takesAnswers (n : Nat) {s t : State} (h : blockTurns n s = .next t) :
    TakesAnswers s.src t.src := by
  induction n generalizing s with
  | zero =>
    cases h
    exact .refl _
  | succ n ih =>
    rw [blockTurns] at h
    split at h
    · next hs => exact (blockTurn_takesAnswers hs).trans (ih h)
    all_goals cases h

theorem hostTurn_src (a : HostAction) (s : State) : (hostTurn a s).src = s.src := by
  cases a with
  | offer bytes => rfl
  | take => exact takeResponse_src s
  | reset => rfl

/-- A turn of the source is more answers, to reads or to readiness queries. -/
theorem sourceTurn_eq_deliver (a : SourceAction) (s : State) :
    ∃ ys zs, sourceTurn a s = deliver ys zs s := by
  cases a with
  | answer r => exact ⟨[r], [], rfl⟩
  | ready n => exact ⟨[], [n], rfl⟩

/-- Settles O54: by the agent whose turn it is. -/
theorem cursorMovesByBytesRead : Obligations.CursorMovesByBytesRead := by
  unfold Obligations.CursorMovesByBytesRead
  intro s t h
  refine ⟨?_, fun a turns hg => ?_, fun a turns hg => ?_⟩
  · rintro (hg | ⟨turns, hg⟩)
    · rw [step_of_noTurn hg, blockMoveIsPhaseTransitions] at h
      exact blockTurns_takesAnswers 263 h
    · rw [step_of_block hg] at h
      exact blockTurn_takesAnswers (s := setAgenda turns s) h
  · rw [step_of_host hg] at h
    cases h
    exact hostTurn_src a _
  · rw [step_of_source hg] at h
    cases h
    obtain ⟨ys, zs, he⟩ := sourceTurn_eq_deliver a (setAgenda turns s)
    rw [he]
    exact ⟨rfl, rfl, ⟨ys, rfl⟩, ⟨zs, rfl⟩, rfl, rfl, rfl⟩

end Sys2Proof.Machine

/-! SUPPORT. The decoder against the encoder, and the headers it refuses (30_encoding.md rules R84 to R91). -/

namespace Sys2Proof

open Sys2Proof.Machine

/-! ## The round trip -/

theorem decode_encode {i : Instr} (h : i.WellFormed) (rest : List Byte) :
    decode (encode i ++ rest) = .ok (i, rest) := by
  simp only [decode, encode, splitCommand_bytes (command_wellFormed h), decodeCommand_command]

/-- Settles O2: the encoding is the bytes of the instruction's command, which splits off whole. -/
theorem decodeOfEncodeIsIdentity : Obligations.DecodeOfEncodeIsIdentity := by
  unfold Obligations.DecodeOfEncodeIsIdentity
  exact fun i rest h => decode_encode h rest

theorem encode_length (i : Instr) : (encode i).length = 3 + i.data.length := by
  simp only [encode, Command.bytes, List.length_cons, command_data]
  omega

/-- Settles O3: the command split off the bytes is the one of the instruction it decodes to. -/
theorem decodedBytesAreTheEncoding : Obligations.DecodedBytesAreTheEncoding := by
  unfold Obligations.DecodedBytesAreTheEncoding
  intro bytes i rest h
  obtain ⟨c, hsplit, hdec⟩ := decode_eq_ok h
  obtain ⟨hbytes, hc⟩ := splitCommand_eq_some hsplit
  obtain ⟨rfl, hi⟩ := decodeCommand_eq_ok hc hdec
  exact ⟨hi, hbytes, encode_length i⟩

/-- Settles O1: each sequence is the encoding of its instruction, followed by the bytes left. -/
theorem encodedWordsDecode : Obligations.EncodedWordsDecode := by
  unfold Obligations.EncodedWordsDecode
  exact ⟨decode_encode (i := .tryReadFrame) (by decide) [],
    decode_encode (i := .decodeRecord 0x7F [0x0A, 0x0B]) (by decide) [],
    decode_encode (i := .checksum [0x10]) (by decide) [0xEE],
    decode_encode (i := .cvtU8 [0xFF]) (by decide) [],
    decode_encode (i := .cvtU16 [0x34, 0x12]) (by decide) [],
    decode_encode (i := .cvtU32 []) (by decide) [],
    decode_encode (i := .cvtI16 [0xFE, 0xFF]) (by decide) [],
    decode_encode (i := .cvtI32 []) (by decide) [],
    decode_encode (i := .cvtF32 []) (by decide) []⟩

/-! ## Descriptor bytes -/

/-- As a number, the one legal descriptor byte of a kind is its code (R88). -/
theorem descriptorKind_eq_some_toNat {b : Byte} {k : Kind} :
    descriptorKind b = some k ↔ b.toNat = k.code.toNat := by
  rw [descriptorKind_eq_some, ← BitVec.toNat_inj]
  cases k <;> rfl

/-- Settles O4: with bits 7 to 3 all 0, the byte is the number in bits 2 to 0. -/
theorem descriptorByteLegality : Obligations.DescriptorByteLegality := by
  unfold Obligations.DescriptorByteLegality
  intro b k
  rw [descriptorKind_eq_some_toNat]
  cases k <;> simp only [Kind.code, BitVec.ofNat_eq_ofNat, BitVec.reduceToNat] <;> omega

/-- The illegal descriptor bytes, as R87 lists them. -/
theorem descriptorKind_eq_none {b : Byte} : descriptorKind b = none ↔
    b.toNat / 16 ≠ 0 ∨ b.toNat / 8 % 2 = 1 ∨ b.toNat % 8 = 6 ∨ b.toNat % 8 = 7 := by
  have hcodes : descriptorKind b = none ↔ ∀ k : Kind, b.toNat ≠ k.code.toNat := by
    simp only [Option.eq_none_iff_forall_ne_some, ne_eq, descriptorKind_eq_some_toNat]
  rw [hcodes]
  constructor
  · intro h
    have h0 : b.toNat ≠ 0 := h .u8
    have h1 : b.toNat ≠ 1 := h .u16
    have h2 : b.toNat ≠ 2 := h .u32
    have h3 : b.toNat ≠ 3 := h .i16
    have h4 : b.toNat ≠ 4 := h .i32
    have h5 : b.toNat ≠ 5 := h .f32
    omega
  · intro h k
    cases k <;> simp only [Kind.code, BitVec.ofNat_eq_ofNat, BitVec.reduceToNat] <;> omega

/-! ## Illegal headers -/

/-- The headers refused are those of R87. -/
theorem classify_eq_error_iff (op arg len : Byte) :
    (∃ r, classify op arg len = .error r) ↔ IllegalHeader op arg len := by
  unfold classify
  split
  · next hop =>
    split
    · next harg => exact iff_of_true ⟨_, rfl⟩ (by bv_omega)
    · split
      · next hlen => exact iff_of_true ⟨_, rfl⟩ (by bv_omega)
      · exact iff_of_false nofun (by bv_omega)
  · next hop => exact iff_of_false nofun (by omega)
  · next hop =>
    split
    · next harg => exact iff_of_true ⟨_, rfl⟩ (by bv_omega)
    · exact iff_of_false nofun (by bv_omega)
  · next hop =>
    split
    · next k hk =>
      have hlegal := (descriptorKind_eq_none (b := arg)).not.1 (by simp [hk])
      exact iff_of_false nofun (by omega)
    · next hk =>
      have hillegal := descriptorKind_eq_none.1 hk
      exact iff_of_true ⟨_, rfl⟩ (by omega)
  · next h1 h2 h3 h4 =>
    rw [imp_false] at h1 h2 h3 h4
    exact iff_of_true ⟨_, rfl⟩ (by omega)

/-- A whole command whose header is refused is decoded as an illegal command. -/
theorem decode_of_illegal {c : Command} {r : IllegalReason} (hc : c.WellFormed)
    (h : classify c.op c.arg c.len = .error r) (rest : List Byte) :
    decode (c.bytes ++ rest) = .error (.illegal r c rest) := by
  simp only [decode, splitCommand_bytes hc, decodeCommand, h]

theorem exists_decodeCommand_eq_ok (c : Command) :
    (∃ i, decodeCommand c = .ok i) ↔ ¬∃ r, classify c.op c.arg c.len = .error r := by
  unfold decodeCommand
  split
  · next f h => simp [h]
  · next r h => simp [h]

/-- Settles O5: a command is decoded exactly when its header is not refused. -/
theorem legalHeadersAreDecoded : Obligations.LegalHeadersAreDecoded := by
  unfold Obligations.LegalHeadersAreDecoded
  intro c
  rw [exists_decodeCommand_eq_ok, classify_eq_error_iff]

end Sys2Proof

/-! SUPPORT. The answer to an illegal command (30_encoding.md rule R87). -/

namespace Sys2Proof.Machine

/-- A ready block accepts an illegal command and answers it at once. -/
theorem execIllegal_of_ready {s : State} {c : Command} (hr : Ready s) (hc : c.WellFormed) :
    execIllegal c s =
      .next (afterCommand c { Response.cleared with outcome := .illegalCommand } s) := by
  rw [execIllegal, issue_of_ready hr, illegalBody, raise_accept hc]
  rfl

/-- Settles O7: the block's move takes the command off the port and rejects it. -/
theorem illegalCommandAnswer : Obligations.IllegalCommandAnswer := by
  unfold Obligations.IllegalCommandAnswer
  intro s op arg len data rest hturn hr hport hlen hill
  obtain ⟨r, hcls⟩ := (classify_eq_error_iff op arg len).2 hill
  have hdec : decode s.host.port = .error (.illegal r ⟨op, arg, len, data⟩ rest) := by
    rw [hport]
    exact decode_of_illegal (c := ⟨op, arg, len, data⟩) hlen hcls rest
  rw [step_of_noTurn hturn, blockMove, fetch_of_illegal hr hdec]
  exact execIllegal_of_ready (s := setPort rest s) hr hlen

end Sys2Proof.Machine

/-! SUPPORT. Construction, and the GPS spec (10_state.md rule R27; 30_encoding.md rule R92;
70_reset_and_hazards.md rule R203; 90_conflicts.md C1). -/

namespace Sys2Proof.Machine

/-- Everything construction can do (R203). -/
theorem construct_cases (raw : RawCfg) :
    (∃ t, FailsAt raw t ∧ (∀ t' : Byte, t'.toNat < t.toNat → ¬FailsAt raw t') ∧
      construct raw = .error ⟨t⟩) ∨
    ((∀ t, ¬FailsAt raw t) ∧ construct raw = .ok (State.constructed (checkedCfg raw))) := by
  unfold construct
  split
  · next t h =>
    obtain ⟨ht, before, after, htags, hbefore⟩ := List.find?_eq_some_iff_append.1 h
    refine .inl ⟨t, failingTag_iff.1 ht, fun t' hlt hfail => ?_, rfl⟩
    have hsorted := allTags_sorted
    have hmem := mem_allTags t'
    rw [htags] at hsorted hmem
    have hgt := (List.pairwise_cons.1 (List.pairwise_append.1 hsorted).2.1).1
    obtain hmem | hmem := List.mem_append.1 hmem
    · simpa [failingTag_iff.2 hfail] using hbefore t' hmem
    · obtain rfl | hmem := List.mem_cons.1 hmem
      · exact absurd hlt (lt_irrefl _)
      · exact absurd hlt (hgt t' hmem).not_gt
  · next h =>
    exact .inr ⟨fun t hfail => List.find?_eq_none.1 h t (mem_allTags t) (failingTag_iff.2 hfail), rfl⟩

theorem construct_of_legal {raw : RawCfg} (h : ∀ t, ¬FailsAt raw t) :
    construct raw = .ok (State.constructed (checkedCfg raw)) := by
  obtain ⟨t, ht, -⟩ | ⟨-, hok⟩ := construct_cases raw
  · exact absurd ht (h t)
  · exact hok

/-- Where one tag alone fails, it is the one named. -/
theorem construct_of_failsAt {raw : RawCfg} {t : Byte} (ht : FailsAt raw t)
    (honly : ∀ u, FailsAt raw u → u = t) : construct raw = .error ⟨t⟩ := by
  obtain ⟨u, hu, -, herr⟩ | ⟨hnone, -⟩ := construct_cases raw
  · rw [herr, honly u hu]
  · exact absurd ht (hnone t)

/-- The GPS spec passes the checks. -/
theorem checkSpec_gpsRaw : checkSpec gpsRaw = some gpsSpec := by
  decide

theorem rawLegal_gpsRaw : RawLegal gpsRaw :=
  ⟨by decide, gpsLayout, rfl, rfl⟩

/-- The GPS layout does not take up 52 bytes (C1). -/
theorem not_rawLegal_gpsRaw_52 : ¬RawLegal { gpsRaw with payloadLength := 52 } :=
  checkSpec_isNone.1 (by decide)

section
variable (kind : SourceKind) (n : Nat) (tagGps tagSensor : Byte)

theorem deployment_registry_gps (sensor : Option RawSpec) :
    (deployment kind n tagGps tagSensor sensor).registry tagGps = some gpsRaw := if_pos rfl

theorem deployment_registry_other {t : Byte} (h : t ≠ tagGps) :
    (deployment kind n tagGps tagSensor none).registry t = none := by
  simp [deployment, h]

theorem deployment_legal (t : Byte) : ¬FailsAt (deployment kind n tagGps tagSensor none) t := by
  rintro ⟨r, hr, hbad⟩
  by_cases ht : t = tagGps
  · subst ht
    rw [deployment_registry_gps] at hr
    cases hr
    exact hbad rawLegal_gpsRaw
  · rw [deployment_registry_other kind n tagGps tagSensor ht] at hr
    cases hr

end

/-- Settles O15: the GPS layout is 48 bytes wide, and its tag is the only one registered. -/
theorem gpsSpecIsRegistrable : Obligations.GpsSpecIsRegistrable := by
  unfold Obligations.GpsSpecIsRegistrable
  intro kind n tagGps tagSensor
  refine ⟨⟨_, construct_of_legal (deployment_legal kind n tagGps tagSensor), ?_, fun t ht => ?_⟩, ?_⟩
  · refine (lookup_checkedCfg _ _).trans ?_
    rw [checkedSpec, deployment_registry_gps]
    exact checkSpec_gpsRaw
  · refine (lookup_checkedCfg _ _).trans ?_
    rw [checkedSpec, deployment_registry_other kind n tagGps tagSensor ht]
    rfl
  · refine construct_of_failsAt ⟨_, if_pos rfl, not_rawLegal_gpsRaw_52⟩ ?_
    rintro u ⟨r, hr, -⟩
    by_contra hu
    simp [hu] at hr

end Sys2Proof.Machine

/-! SUPPORT. The checksum in closed form, and the changes of a payload it does and does not notice
(40_checksum.md rules R111, R113 and R114). -/

namespace Sys2Proof.Machine

/-- Folding bytes in moves the accumulators by the two sums, and `b` by the first `a` once for each byte
(R113). -/
theorem fletcherFrom_eq (acc : Byte × Byte) (P : List Byte) :
    fletcherFrom acc P = (acc.1 + BitVec.ofNat 8 (byteSum P),
      acc.2 + BitVec.ofNat 8 P.length * acc.1 + BitVec.ofNat 8 (weightedSum P)) := by
  induction P generalizing acc with
  | nil => simp [fletcherFrom, byteSum, weightedSum]
  | cons x P ih =>
    simp only [fletcherFrom, ih, fletcherStep, byteSum, weightedSum, List.length_cons,
      BitVec.ofNat_add, BitVec.ofNat_mul, BitVec.ofNat_toNat, BitVec.setWidth_eq,
      ← BitVec.ofNat_eq_ofNat (i := 1)]
    ext1 <;> ring

theorem fletcher_eq (P : List Byte) :
    fletcher P = (BitVec.ofNat 8 (byteSum P), BitVec.ofNat 8 (weightedSum P)) := by
  simp [fletcher, fletcherFrom_eq]

/-- Settles O16: the two sums as bytes, which are taken modulo 256. -/
theorem fletcherClosedForm : Obligations.FletcherClosedForm := by
  unfold Obligations.FletcherClosedForm
  intro P
  rw [fletcher_eq]
  exact ⟨BitVec.toNat_ofNat _ 8, BitVec.toNat_ofNat _ 8⟩

/-- Settles O17: the body of CHECKSUM runs right after acceptance, and its pair is the two sums. -/
theorem checksumResult : Obligations.ChecksumResult := by
  unfold Obligations.ChecksumResult
  intro s data hr hlen
  have hw : (Instr.checksum data).WellFormed := hlen
  have hexec : exec (.checksum data) s = _ :=
    (exec_of_ready hr _).trans (checksumBody_accept (command_wellFormed hw) s)
  rw [hexec, command_data, Instr.data, fletcher_eq]
  rfl

theorem fletcher_append (P Q : List Byte) : fletcher (P ++ Q) = fletcherFrom (fletcher P) Q :=
  fletcherFrom_append _ P Q

/-- Settles O18: around the byte `a` is a sum of what both payloads have, which cancels. -/
theorem oneByteChangeChangesA : Obligations.OneByteChangeChangesA := by
  unfold Obligations.OneByteChangeChangesA
  intro P Q x y hxy h
  have hsum (z : Byte) : (fletcher (P ++ z :: Q)).1 =
      (fletcher P).1 + z + BitVec.ofNat 8 (byteSum Q) := by
    rw [fletcher_append, fletcherFrom, fletcherFrom_eq, fletcherStep]
  rw [hsum, hsum] at h
  exact hxy (add_left_cancel (add_right_cancel h))

/-- The three changes `d`, `-2d` and `d` add up to nothing, in `a` and in `b` (R114). -/
theorem fletcherFrom_collision (acc : Byte × Byte) (x y z d : Byte) :
    fletcherFrom acc [x + d, y - 2 * d, z + d] = fletcherFrom acc [x, y, z] := by
  simp only [fletcherFrom, fletcherStep]
  ext1 <;> ring

/-- Settles O19: the bytes before give both payloads the same accumulators, and so do the three bytes. -/
theorem fletcherCollisions : Obligations.FletcherCollisions := by
  unfold Obligations.FletcherCollisions
  intro P Q x y z d
  simp only [fletcher_append, fletcherFrom_collision]

end Sys2Proof.Machine

/-! SUPPORT. An attempt by where it ends: at readiness, at the sync byte, at the tag, at a checksum byte, in the
payload, at verification (41_frame_reader.md rules R121 to R127). -/

namespace Sys2Proof.Machine

/-- An attempt that has come to a state whose next transition is its last ends in the state after it. -/
theorem exec_ends {s u t v : State} (hr : Ready s)
    (hu : runFrame frameFuel (accept Instr.tryReadFrame.command s) = runFrame frameFuel u)
    (hm : framePhase u = .moved t) (ht : t.phase = .idle := by rfl) (hv : t = v := by rfl) :
    exec .tryReadFrame s = .next v := by
  rw [exec_tryReadFrame hr, hu, runFrame_last hm ht, hv]

/-- Settles O33: the readiness check is the first transition and the last. -/
theorem attemptNotReady : Obligations.AttemptNotReady := by
  unfold Obligations.AttemptNotReady
  intro s n rs hr hk hq hn
  exact exec_ends hr rfl (framePhase_not_ready rfl hk hq hn)

/-- Settles O34: by what the source answers at the sync position. -/
theorem attemptAtSync : Obligations.AttemptAtSync := by
  unfold Obligations.AttemptAtSync
  intro s b rest rs hr hl ha
  refine ⟨fun hs => ?_, fun hs hb => ?_⟩
  · have hread := srcRead_of_eos (s := inAttempt .readSync 0 s.src.answers rs s) ha hs
    exact exec_ends hr (runFrame_atSync hl) (framePhase_sync_eos rfl hread)
  · have hread := srcRead_of_byte (s := inAttempt .readSync 0 s.src.answers rs s) ha hs
    exact exec_ends hr (runFrame_atSync hl) (framePhase_noise rfl hread hb)

/-- Settles O36: the attempt ends at the tag. -/
theorem attemptWithoutTag : Obligations.AttemptWithoutTag := by
  unfold Obligations.AttemptWithoutTag
  intro s rest rs hr hl ha hs
  have hread := srcRead_of_eos (s := inAttempt .readTag 1 (.eos :: rest) rs s) ha rfl
  exact exec_ends hr (runFrame_atTag hl ha hs) (framePhase_tag_eos rfl hread)

/-- Settles O37: the attempt ends at the tag, which no spec is registered for. -/
theorem attemptUnknownTag : Obligations.AttemptUnknownTag := by
  unfold Obligations.AttemptUnknownTag
  intro s t rest rs hr hl ha hs hlook
  have hread := srcRead_of_byte (s := inAttempt .readTag 1 (.byte t :: rest) rs s) ha rfl
  exact exec_ends hr (runFrame_atTag hl ha hs) (framePhase_tag_unknown rfl hread hlook)

/-- Settles O38: the attempt ends at the first or at the second checksum byte. -/
theorem attemptTruncatedAtChecksum : Obligations.AttemptTruncatedAtChecksum := by
  unfold Obligations.AttemptTruncatedAtChecksum
  intro s t a spec rest rs hr hl ha hlook
  refine ⟨fun hs => ?_, fun hs => ?_⟩
  · have hread := srcRead_of_eos (s := inFrame .readCkA 2 t 0 0 spec (.eos :: rest) rs s) ha rfl
    exact exec_ends hr (runFrame_atCkA hl ha hlook hs) (framePhase_ckA_eos rfl hread)
  · have hread := srcRead_of_eos (s := inFrame .readCkB 3 t a 0 spec (.eos :: rest) rs s) ha rfl
    exact exec_ends hr (runFrame_atCkB hl ha hlook hs) (framePhase_ckB_eos rfl hread)

/-- Settles O39: the attempt ends in the payload loop, after the bytes `P` of it. -/
theorem attemptTruncatedInPayload : Obligations.AttemptTruncatedInPayload := by
  unfold Obligations.AttemptTruncatedInPayload
  intro s t a b spec P rest rs hr hl ha hlook hP hs
  have hrun := runFrame_inPayload hl ha hlook hP.le hs
  rw [if_pos hP] at hrun
  have hlt := spec.payloadLength.isLt
  have hidx : (BitVec.ofNat 8 P.length).toNat < spec.payloadLength.toNat := by
    rw [BitVec.toNat_ofNat]
    omega
  have hread := srcRead_of_eos (s := inPayload .readPayload t a b spec P (.eos :: rest) rs s) ha rfl
  exact exec_ends hr hrun (framePhase_payload_eos rfl hidx hread)

/-- The pairs compared are those of the payload and of the frame (40_checksum.md rule R115). -/
theorem checksumMatches_inPayload (p : Phase) (t a b : Byte) (spec : PacketSpec) (P : List Byte)
    (rest : List ReadAnswer) (rs : List Nat) (s : State) :
    checksumMatches (inPayload p t a b spec P rest rs s) = decide (fletcher P = (a, b)) := rfl

/-- Settles O40: the whole payload has been read, and verification compares the two pairs. -/
theorem attemptVerifiesFrame : Obligations.AttemptVerifiesFrame := by
  unfold Obligations.AttemptVerifiesFrame
  intro s t a b spec P rest rs hr hl ha hlook hP hs
  have hrun := runFrame_inPayload hl ha hlook hP.le hs
  rw [if_neg hP.not_lt] at hrun
  have hidx : BitVec.ofNat 8 P.length = spec.payloadLength := by simp [hP]
  have hbytes : Memory.bytes (Memory.writeAll 0 P s.pbuf) 0 spec.payloadLength.toNat = P :=
    hP ▸ Memory.bytes_writeAll P s.pbuf
  refine exec_ends hr hrun (framePhase_verify rfl) (phaseVerify_phase _) ?_
  rw [phaseVerify, checksumMatches_inPayload]
  by_cases hm : fletcher P = (a, b)
  · simp [hm, raise, inPayload, inFrame, inAttempt, afterAttempt, afterCommand, hbytes, hidx]
  · simp [hm, raise, inPayload, inFrame, inAttempt, afterAttempt, afterCommand, hidx]

end Sys2Proof.Machine

/-! SUPPORT. What an attempt leaves unchanged, and the table of the transitions of `PHASE` (41_frame_reader.md
rules R120, R126 and R132). -/

namespace Sys2Proof.Machine

/-! ## What an attempt leaves unchanged -/

theorem phaseVerify_idx (s : State) : (phaseVerify s).idx = s.idx := by
  unfold phaseVerify
  split <;> rfl

theorem phaseVerify_pbuf (s : State) : (phaseVerify s).pbuf = s.pbuf := by
  unfold phaseVerify
  split <;> rfl

/-- What a read leaves unchanged in the buffer. -/
theorem srcRead_buffer {s t : State} (h : srcRead s = .eos t ∨ ∃ b, srcRead s = .byte b t) :
    t.idx = s.idx ∧ t.pbuf = s.pbuf := by
  rw [(srcRead_frame h).1]
  exact ⟨rfl, rfl⟩

/-- A transition stores one byte at `IDX` and moves past it, or leaves both as they are (R126). -/
theorem framePhase_buffer {s t : State} (h : framePhase s = .moved t) :
    (t.idx = s.idx ∧ t.pbuf = s.pbuf) ∨
      ∃ x, t.idx.toNat = s.idx.toNat + 1 ∧ t.pbuf = Memory.write s.idx.toNat x s.pbuf := by
  obtain ⟨hp, ⟨_, rfl⟩ | ⟨n, rest, _, hr, ⟨_, rfl⟩ | ⟨_, rfl⟩⟩⟩ |
    ⟨hp, ⟨w, hw, rfl⟩ | ⟨b, w, hw, ⟨_, rfl⟩ | ⟨_, rfl⟩⟩⟩ |
    ⟨hp, ⟨w, hw, rfl⟩ | ⟨b, w, hw, ⟨_, rfl⟩ | ⟨_, _, rfl⟩⟩⟩ |
    ⟨hp, ⟨w, hw, rfl⟩ | ⟨b, w, hw, rfl⟩⟩ | ⟨hp, ⟨w, hw, rfl⟩ | ⟨b, w, hw, rfl⟩⟩ |
    ⟨hp, ⟨hlt, ⟨w, hw, rfl⟩ | ⟨b, w, hw, rfl⟩⟩ | ⟨_, rfl⟩⟩ | ⟨hp, rfl⟩ := framePhase_cases h
  · exact .inl ⟨rfl, rfl⟩
  · exact .inl ⟨rfl, rfl⟩
  · exact .inl ⟨rfl, rfl⟩
  · simp [srcRead_buffer (.inl hw)]
  · simp [srcRead_buffer (.inr ⟨b, hw⟩)]
  · simp [srcRead_buffer (.inr ⟨b, hw⟩)]
  · simp [srcRead_buffer (.inl hw)]
  · simp [srcRead_buffer (.inr ⟨b, hw⟩)]
  · simp [srcRead_buffer (.inr ⟨b, hw⟩)]
  · simp [srcRead_buffer (.inl hw)]
  · simp [srcRead_buffer (.inr ⟨b, hw⟩)]
  · simp [srcRead_buffer (.inl hw)]
  · simp [srcRead_buffer (.inr ⟨b, hw⟩)]
  · simp [srcRead_buffer (.inl hw)]
  · obtain ⟨rest, -, -, rfl⟩ := srcRead_eq_byte hw
    exact .inr ⟨b, by simp [succ_mod_of_lt hlt], rfl⟩
  · exact .inl ⟨rfl, rfl⟩
  · exact .inl ⟨phaseVerify_idx s, phaseVerify_pbuf s⟩

/-- The parts an attempt leaves as they were: of the buffer, the bytes from `IDX` on. -/
structure FrameKept (s t : State) : Prop where
  cfg : t.cfg = s.cfg
  host : t.host = s.host
  agenda : t.agenda = s.agenda
  header : FrameHeader t
  beyond : ∀ a, t.idx.toNat ≤ a → Memory.read t.pbuf a = Memory.read s.pbuf a

theorem FrameKept.framePhase {s t u : State} (h : FrameKept s t) (hm : framePhase t = .moved u) :
    FrameKept s u := by
  obtain ⟨hcfg, hhost, hagenda, hop, harg, hlen⟩ := framePhase_frame hm
  refine ⟨hcfg.trans h.cfg, hhost.trans h.host, hagenda.trans h.agenda, ?_, fun a ha => ?_⟩
  · rw [FrameHeader, hop, harg, hlen]
    exact h.header
  · obtain ⟨hi, hb⟩ | ⟨x, hi, hb⟩ := framePhase_buffer hm <;> rw [hb]
    · exact h.beyond a (hi ▸ ha)
    · rw [Memory.read_write_ne _ _ _ _ (by omega)]
      exact h.beyond a (by omega)

/-- Settles O44: acceptance stores no data, and every transition keeps it all. -/
theorem frameReaderFrame : Obligations.FrameReaderFrame := by
  unfold Obligations.FrameReaderFrame
  intro s t hr h
  rw [exec_tryReadFrame hr] at h
  cases h
  obtain ⟨hcfg, hhost, hagenda, ⟨hop, harg, hlen⟩, hbeyond⟩ :=
    runFrame_induct (P := FrameKept s) (fun _ _ => FrameKept.framePhase) frameFuel
      (accept Instr.tryReadFrame.command s) ⟨rfl, rfl, rfl, ⟨rfl, rfl, rfl⟩, fun _ _ => rfl⟩
  exact ⟨hcfg, hhost, hagenda, hop, harg, hlen, hbeyond⟩

/-! ## The transitions of `PHASE` -/

theorem sourceNext_of_eos {s t : State} (h : srcRead s = .eos t) : sourceNext s = some .eos := by
  unfold sourceNext
  obtain ⟨hn, -⟩ | ⟨_, ha, hl, -⟩ := srcRead_eq_eos h
  · exact if_pos (not_not.1 hn)
  · rw [if_neg ha, hl]
    rfl

theorem sourceNext_of_byte {s t : State} {b : Byte} (h : srcRead s = .byte b t) :
    sourceNext s = some (.byte b) := by
  obtain ⟨_, ha, hl, -⟩ := srcRead_eq_byte h
  rw [sourceNext, if_neg ha, hl]
  rfl

theorem sourceNext_of_nil {s : State} (ha : Answering s) (hl : s.src.answers = []) :
    sourceNext s = none := by
  rw [sourceNext, if_neg ha, hl]
  rfl

/-- A payload with bytes to come is not empty. -/
theorem specLen_ne_zero {s : State} (h : s.idx.toNat < s.specLen.toNat) : s.specLen ≠ 0#8 := by
  intro h0
  simp [h0] at h

/-- Where the frame reader makes no transition the table has no entry. -/
theorem transitionTable_of_waits {s : State} (h : framePhase s = .waits) :
    transitionTable s = none := by
  obtain hp | hp | ⟨hp, hk, hq⟩ | ⟨hp, ha, hl⟩ := framePhase_of_waits h
  · simp [transitionTable, hp]
  · simp [transitionTable, hp]
  · simp [transitionTable, hp, hk, hq]
  · have hnext := sourceNext_of_nil ha hl
    obtain hp | hp | hp | hp | ⟨hp, hlt⟩ := hp
    iterate 4 simp [transitionTable, hp, hnext]
    simp [transitionTable, hp, hnext, specLen_ne_zero hlt]

/-- Verification goes to `IDLE` with the outcome of the comparison. -/
theorem transitionTable_verify {s : State} (hp : s.phase = .verify) :
    transitionTable s = some (.idle, some (phaseVerify s).rsp.outcome) := by
  unfold phaseVerify
  by_cases hm : s.accA = s.rxA ∧ s.accB = s.rxB
  · simp [transitionTable, hp, checksumMatches, hm]
  · simp [transitionTable, hp, checksumMatches, hm]

/-- Every transition is the table's, from a payload not yet complete unless it is empty. -/
theorem transitionTable_of_moved {s t : State} (h : framePhase s = .moved t)
    (hi : s.phase = .readPayload → s.specLen ≠ 0 → s.idx.toNat < s.specLen.toNat) :
    transitionTable s =
      some (t.phase, if t.phase = .idle then some t.rsp.outcome else none) := by
  obtain ⟨hp, ⟨hk, rfl⟩ | ⟨n, rest, hk, hr, ⟨hn, rfl⟩ | ⟨hn, rfl⟩⟩⟩ |
    ⟨hp, ⟨w, hw, rfl⟩ | ⟨b, w, hw, ⟨hb, rfl⟩ | ⟨hb, rfl⟩⟩⟩ |
    ⟨hp, ⟨w, hw, rfl⟩ | ⟨b, w, hw, ⟨hl, rfl⟩ | ⟨spec, hl, rfl⟩⟩⟩ |
    ⟨hp, ⟨w, hw, rfl⟩ | ⟨b, w, hw, rfl⟩⟩ | ⟨hp, ⟨w, hw, rfl⟩ | ⟨b, w, hw, rfl⟩⟩ |
    ⟨hp, ⟨hlt, ⟨w, hw, rfl⟩ | ⟨b, w, hw, rfl⟩⟩ | ⟨hge, rfl⟩⟩ | ⟨hp, rfl⟩ := framePhase_cases h
  · simp [transitionTable, hp, hk]
  · simp [transitionTable, hp, hk, hr, hn]
  · simp [transitionTable, hp, hk, hr, hn]
  · simp [transitionTable, hp, sourceNext_of_eos hw]
  · simp [transitionTable, hp, sourceNext_of_byte hw, hb]
  · simp [transitionTable, hp, sourceNext_of_byte hw, hb]
  · simp [transitionTable, hp, sourceNext_of_eos hw]
  · simp [transitionTable, hp, sourceNext_of_byte hw, hl]
  · simp [transitionTable, hp, sourceNext_of_byte hw, hl]
  · simp [transitionTable, hp, sourceNext_of_eos hw]
  · simp [transitionTable, hp, sourceNext_of_byte hw]
  · simp [transitionTable, hp, sourceNext_of_eos hw]
  · simp [transitionTable, hp, sourceNext_of_byte hw]
  · simp [transitionTable, hp, sourceNext_of_eos hw, specLen_ne_zero hlt]
  · have hne := specLen_ne_zero hlt
    by_cases hmore : s.idx.toNat + 1 < s.specLen.toNat
    · simp [transitionTable, hp, sourceNext_of_byte hw, hne, hmore]
    · simp [transitionTable, hp, sourceNext_of_byte hw, hne, hmore]
  · have h0 : s.specLen = 0 := by
      by_contra hne
      exact hge (hi hp hne)
    simp [transitionTable, hp, h0]
  · rw [transitionTable_verify hp, phaseVerify_phase, if_pos rfl]

/-- Settles O45: a block that makes a transition makes the table's, and one that makes none has no entry. -/
theorem phaseTransitions : Obligations.PhaseTransitions := by
  unfold Obligations.PhaseTransitions
  refine ⟨fun s rest hr hd => ?_, fun s hidle hexec hi => ?_⟩
  · have haccept : blockTurn s = .next (accept Instr.tryReadFrame.command (setPort rest s)) := by
      rw [blockTurn, fetch_of_ready hr hd]
    exact ⟨_, haccept, rfl, hr.2⟩
  · match hm : framePhase s with
    | .waits =>
      rw [transitionTable_of_waits hm]
      exact ⟨fun _ => blockTurn_of_waits (.inl ⟨hidle, hexec⟩) hm, nofun⟩
    | .moved t =>
      rw [transitionTable_of_moved hm hi]
      refine ⟨nofun, fun p o he => ⟨t, blockTurn_of_moved hm, ?_⟩⟩
      obtain ⟨rfl, rfl⟩ : t.phase = p ∧ (if t.phase = .idle then some t.rsp.outcome else none) = o := by
        simpa using he
      obtain ⟨hp, hv, -⟩ | ⟨hp, -, -, hv, hrsp⟩ := framePhase_response hm
      · rw [if_pos hp]
        exact ⟨rfl, nofun, fun c hc => ⟨hv, Option.some.inj hc⟩⟩
      · rw [if_neg hp]
        exact ⟨rfl, fun _ => ⟨hv, hrsp⟩, nofun⟩

end Sys2Proof.Machine

/-! SUPPORT. The bytes an attempt consumes (41_frame_reader.md rule R128). -/

namespace Sys2Proof.Machine

/-! ## The count of bytes in an attempt -/

/-- The bytes an outcome may consume when step 1 is passed, the payload length being `len` (R128). -/
def OutcomeConsumes (o : OutcomeCode) (n len : Nat) : Prop :=
  match o with
  | .noDataAvailable => n = 1
  | .endOfStream => n = 0
  | .truncatedFrame => 1 ≤ n ∧ n ≤ 3 + len
  | .unknownPacketType => n = 2
  | .checksumMismatch => n = 4 + len
  | .ok => n = 4 + len
  | .layoutMismatch => False
  | .illegalCommand => False

/-- The bytes consumed in each phase past step 1, and in `IDLE` those of the outcome (R122 to R127). -/
def PhaseCount (s : State) : Prop :=
  match s.phase with
  | .idle =>
    s.rsp.consumed = s.consumed ∧ OutcomeConsumes s.rsp.outcome s.consumed.toNat s.specLen.toNat
  | .exec => False
  | .checkReady => False
  | .readSync => s.consumed = 0 ∧ s.idx = 0
  | .readTag => s.consumed = 1 ∧ s.idx = 0
  | .readCkA => s.consumed = 2 ∧ s.idx = 0
  | .readCkB => s.consumed = 3 ∧ s.idx = 0
  | .readPayload => s.consumed.toNat = 4 + s.idx.toNat ∧ s.idx.toNat ≤ s.specLen.toNat
  | .verify => s.consumed.toNat = 4 + s.specLen.toNat

/-- An attempt that ends, with a consumption its outcome allows. -/
theorem phaseCount_raise {o : OutcomeCode} {r : Response} {s : State}
    (h : OutcomeConsumes o s.consumed.toNat s.specLen.toNat) : PhaseCount (raise o r s) := ⟨rfl, h⟩

theorem srcRead_eos_count {s t : State} (h : srcRead s = .eos t) :
    t.consumed = s.consumed ∧ t.specLen = s.specLen := by
  obtain ⟨-, rfl⟩ | ⟨_, -, -, rfl⟩ := srcRead_eq_eos h <;> exact ⟨rfl, rfl⟩

/-- An attempt that ends at an `EOS`. -/
theorem phaseCount_raise_eos {o : OutcomeCode} {r : Response} {s t : State} (h : srcRead s = .eos t)
    (hc : OutcomeConsumes o s.consumed.toNat s.specLen.toNat) : PhaseCount (raise o r t) := by
  obtain ⟨hn, hl⟩ := srcRead_eos_count h
  exact phaseCount_raise (hn ▸ hl ▸ hc)

/-- The count of a payload byte (R126). -/
theorem phaseCount_takePayloadByte {s : State} (hn : s.consumed.toNat = 4 + s.idx.toNat)
    (hlt : s.idx.toNat < s.specLen.toNat) (x : Byte) (rest : List ReadAnswer) :
    PhaseCount (goto (if s.idx.toNat + 1 < s.specLen.toNat then .readPayload else .verify)
      (takePayloadByte x (readOne rest s))) := by
  have hs := s.specLen.isLt
  have hidx : (s.idx + 1).toNat = s.idx.toNat + 1 := by simp [succ_mod_of_lt hlt]
  have hcons : (s.consumed + 1).toNat = 4 + (s.idx.toNat + 1) := by
    rw [BitVec.toNat_add, hn]
    simp
    omega
  split
  · exact ⟨hcons.trans (congrArg (4 + ·) hidx.symm), hidx.trans_le hlt⟩
  · have hall : s.idx.toNat + 1 = s.specLen.toNat := by omega
    exact hcons.trans (by rw [hall]; rfl)

/-- Verification consumes nothing more (R127). -/
theorem phaseCount_phaseVerify {s : State} (hn : s.consumed.toNat = 4 + s.specLen.toNat) :
    PhaseCount (phaseVerify s) := by
  unfold phaseVerify
  split <;> exact phaseCount_raise hn

/-- Every transition counts. -/
theorem phaseCount_framePhase {s t : State} (hs : PhaseCount s) (h : framePhase s = .moved t) :
    PhaseCount t := by
  obtain ⟨hp, -⟩ |
    ⟨hp, ⟨w, hw, rfl⟩ | ⟨b, w, hw, ⟨_, rfl⟩ | ⟨_, rfl⟩⟩⟩ |
    ⟨hp, ⟨w, hw, rfl⟩ | ⟨b, w, hw, ⟨_, rfl⟩ | ⟨_, _, rfl⟩⟩⟩ |
    ⟨hp, ⟨w, hw, rfl⟩ | ⟨b, w, hw, rfl⟩⟩ | ⟨hp, ⟨w, hw, rfl⟩ | ⟨b, w, hw, rfl⟩⟩ |
    ⟨hp, ⟨hlt, ⟨w, hw, rfl⟩ | ⟨b, w, hw, rfl⟩⟩ | ⟨hge, rfl⟩⟩ | ⟨hp, rfl⟩ := framePhase_cases h
  all_goals rw [PhaseCount, hp] at hs
  · exact hs.elim
  · obtain ⟨hn, -⟩ := hs
    exact phaseCount_raise_eos hw (by simp [OutcomeConsumes, hn])
  · obtain ⟨rest, -, -, rfl⟩ := srcRead_eq_byte hw
    obtain ⟨hn, hi⟩ := hs
    exact ⟨by simp [hn], hi⟩
  · obtain ⟨rest, -, -, rfl⟩ := srcRead_eq_byte hw
    obtain ⟨hn, hi⟩ := hs
    exact phaseCount_raise (by simp [OutcomeConsumes, hn])
  · obtain ⟨hn, -⟩ := hs
    exact phaseCount_raise_eos hw (by simp [OutcomeConsumes, hn]; omega)
  · obtain ⟨rest, -, -, rfl⟩ := srcRead_eq_byte hw
    obtain ⟨hn, -⟩ := hs
    exact phaseCount_raise (by simp [OutcomeConsumes, hn])
  · obtain ⟨rest, -, -, rfl⟩ := srcRead_eq_byte hw
    obtain ⟨hn, hi⟩ := hs
    exact ⟨by simp [hn], hi⟩
  · obtain ⟨hn, -⟩ := hs
    exact phaseCount_raise_eos hw (by simp [OutcomeConsumes, hn]; omega)
  · obtain ⟨rest, -, -, rfl⟩ := srcRead_eq_byte hw
    obtain ⟨hn, hi⟩ := hs
    exact ⟨by simp [hn], hi⟩
  · obtain ⟨hn, -⟩ := hs
    exact phaseCount_raise_eos hw (by simp [OutcomeConsumes, hn])
  · obtain ⟨rest, -, -, rfl⟩ := srcRead_eq_byte hw
    obtain ⟨hn, hi⟩ := hs
    exact ⟨by simp [hn, hi], by simp [hi]⟩
  · obtain ⟨hn, -⟩ := hs
    exact phaseCount_raise_eos hw (by simp only [OutcomeConsumes]; omega)
  · obtain ⟨rest, -, -, rfl⟩ := srcRead_eq_byte hw
    obtain ⟨hn, -⟩ := hs
    exact phaseCount_takePayloadByte hn hlt b rest
  · obtain ⟨hn, hle⟩ := hs
    exact hn.trans (by rw [Nat.le_antisymm hle (Nat.not_lt.1 hge)]; rfl)
  · exact phaseCount_phaseVerify hs

/-- The cursor is as far from `c` as `CONSUMED` says. -/
def CursorFrom (c : Nat) (s : State) : Prop := s.src.cursor = c + s.consumed.toNat

/-- A transition moves the cursor and `CONSUMED` alike while the count fits. -/
theorem cursorFrom_framePhase {c : Nat} {s t : State} (hs : CursorFrom c s)
    (hn : s.consumed.toNat < 65535) (h : framePhase s = .moved t) : CursorFrom c t := by
  obtain ⟨w, hsrc, hcons, hw⟩ := framePhase_source h
  rw [CursorFrom, hsrc, hcons]
  obtain rfl | ⟨_, _, _, rfl⟩ | hw | ⟨b, hw⟩ := hw
  · exact hs
  · exact hs
  · obtain ⟨-, rfl⟩ | ⟨_, -, -, rfl⟩ := srcRead_eq_eos hw
    · exact hs
    · exact hs
  · obtain ⟨rest, -, -, rfl⟩ := srcRead_eq_byte hw
    have hone : (s.consumed + 1).toNat = s.consumed.toNat + 1 := by
      rw [BitVec.toNat_add]
      simp
      omega
    simp only [readOne_src, readOne_consumed, hone, ← Nat.add_assoc]
    exact congrArg (· + 1) hs

/-- The count of an attempt in progress fits. -/
theorem PhaseCount.consumed_lt {s : State} (h : PhaseCount s) (hp : s.phase ≠ .idle) :
    s.consumed.toNat < 65535 := by
  have hl := s.specLen.isLt
  unfold PhaseCount at h
  split at h
  · exact absurd ‹_› hp
  · exact h.elim
  · exact h.elim
  iterate 4
    · obtain ⟨hn, -⟩ := h
      simp [hn]
  · obtain ⟨hn, hle⟩ := h
    omega
  · omega

/-- From readiness on an attempt counts its bytes, from the cursor it found. -/
theorem runFrame_counts {s : State} {rs : List Nat} (hl : readyLeft s = some rs) :
    CursorFrom s.src.cursor (runFrame frameFuel (accept Instr.tryReadFrame.command s)) ∧
      PhaseCount (runFrame frameFuel (accept Instr.tryReadFrame.command s)) := by
  rw [runFrame_atSync hl]
  refine runFrame_induct (P := fun t => CursorFrom s.src.cursor t ∧ PhaseCount t)
    (fun t u ht hm => ?_) _ _ ⟨rfl, rfl, rfl⟩
  obtain ⟨hc, hn⟩ := ht
  have hp : t.phase ≠ .idle := by
    intro hp
    rw [framePhase_idle hp] at hm
    cases hm
  exact ⟨cursorFrom_framePhase hc (hn.consumed_lt hp) hm, phaseCount_framePhase hn hm⟩

/-- Step 1 is not passed on a streamed source that has not answered the query, or has answered it with too
little. -/
theorem readyLeft_eq_none {s : State} (h : readyLeft s = none) : s.cfg.sourceKind = .streamed ∧
    (s.src.readies = [] ∨ ∃ n rs, s.src.readies = n :: rs ∧ n < s.cfg.readyThreshold) := by
  unfold readyLeft at h
  split at h
  · cases h
  · next n rs hk hq =>
    split at h
    · cases h
    · next hn => exact ⟨hk, .inr ⟨n, rs, hq, Nat.not_le.1 hn⟩⟩
  · next hk hq => exact ⟨hk, .inl hq⟩

/-- An attempt that does not pass step 1 consumes nothing, and answers NO_DATA_AVAILABLE if it ends (R121). -/
theorem exec_not_ready {s t : State} (hr : Ready s) (hl : readyLeft s = none)
    (h : exec .tryReadFrame s = .next t) : t.src.cursor = s.src.cursor ∧ t.consumed = 0 ∧
      (t.rspV = true → t.rsp.consumed = 0 ∧ t.rsp.outcome = .noDataAvailable) := by
  obtain ⟨hk, hq | ⟨n, rs, hq, hn⟩⟩ := readyLeft_eq_none hl
  · obtain ⟨u, hu, -, hv, hc, hsrc, -⟩ := exec_holds_checkReady hr hk hq
    rw [hu] at h
    cases h
    exact ⟨by rw [hsrc], hc, by simp [hv]⟩
  · rw [attemptNotReady s n rs hr hk hq hn] at h
    cases h
    exact ⟨rfl, rfl, fun _ => ⟨rfl, rfl⟩⟩

/-- Settles O42: an attempt that passes step 1 counts in every phase, one that does not consumes nothing. -/
theorem attemptConsumption : Obligations.AttemptConsumption := by
  unfold Obligations.AttemptConsumption
  intro s t hr h
  match hl : readyLeft s with
  | none =>
    obtain ⟨hc, hn, hrsp⟩ := exec_not_ready hr hl h
    refine ⟨by simp [hc, hn], fun hv => ?_⟩
    obtain ⟨hcons, ho⟩ := hrsp hv
    simp [hcons, ho, hn]
  | some rs =>
    rw [exec_tryReadFrame hr] at h
    cases h
    obtain ⟨hc, hn⟩ := runFrame_counts hl
    refine ⟨hc, fun hv => ?_⟩
    rw [PhaseCount, (endedOrHeld_attempt hr).phase_eq_idle hv] at hn
    obtain ⟨hcons, ho⟩ := hn
    refine ⟨hcons, ?_⟩
    generalize (runFrame frameFuel (accept Instr.tryReadFrame.command s)).rsp.outcome = o at ho ⊢
    cases o with
    | noDataAvailable => exact .inr ⟨ho, nofun⟩
    | _ => exact ho

end Sys2Proof.Machine

/-! SUPPORT. Polling a FILE source: every attempt on it ends, moves the cursor while a byte is left, and answers
END_OF_STREAM when none is (41_frame_reader.md rule R129; 20_memory.md rule R54). -/

namespace Sys2Proof.Machine

/-- A FILE source whose stream ends at the cursor `total`: what it has still to answer are the bytes up to there
and then `EOS`, or it has answered `EOS` there. -/
def FileTo (total : Nat) (s : State) : Prop :=
  s.cfg.sourceKind = .file ∧
    ((s.src.exhausted = true ∧ s.src.cursor = total) ∨
      (s.src.exhausted = false ∧ ∃ bytes : List Byte,
        s.src.answers = bytes.map .byte ++ [.eos] ∧ s.src.cursor + bytes.length = total))

theorem FileTo.congr {total : Nat} {s t : State} (h : FileTo total s) (hc : t.cfg = s.cfg)
    (hs : t.src = s.src) : FileTo total t := by
  rwa [FileTo, hc, hs]

/-- A read goes one byte further along the stream, or to its end. -/
theorem FileTo.read {total : Nat} {s t : State} (h : FileTo total s)
    (hr : srcRead s = .eos t ∨ ∃ b, srcRead s = .byte b t) : FileTo total t := by
  obtain ⟨hk, he⟩ := h
  obtain hr | ⟨b, hr⟩ := hr
  · obtain ⟨-, rfl⟩ | ⟨rest, ha, hl, rfl⟩ := srcRead_eq_eos hr
    · exact ⟨hk, he⟩
    · obtain ⟨hx, -⟩ | ⟨-, bytes, hb, hc⟩ := he
      · exact absurd ⟨hk, hx⟩ ha
      · rw [hl] at hb
        cases bytes with
        | nil => exact ⟨hk, .inl ⟨rfl, hc⟩⟩
        | cons b bytes => cases hb
  · obtain ⟨rest, ha, hl, rfl⟩ := srcRead_eq_byte hr
    obtain ⟨hx, -⟩ | ⟨hx, bytes, hb, hc⟩ := he
    · exact absurd ⟨hk, hx⟩ ha
    · rw [hl] at hb
      cases bytes with
      | nil => cases hb
      | cons b bytes =>
        obtain ⟨-, rfl⟩ : _ ∧ rest = bytes.map .byte ++ [.eos] := by simpa using hb
        exact ⟨hk, .inr ⟨hx, bytes, rfl, by simpa [Nat.add_assoc, Nat.add_comm 1] using hc⟩⟩

/-- So does every transition that reads. -/
theorem FileTo.moved {total : Nat} {s t : State} (h : FileTo total s)
    (hm : framePhase s = .moved t) : FileTo total t := by
  have hcfg := (framePhase_frame hm).1
  obtain ⟨w, hsrc, -, rfl | ⟨_, rest, _, rfl⟩ | hw⟩ := framePhase_source hm
  · exact h.congr hcfg hsrc
  · exact FileTo.congr (s := readReady rest s) h hcfg hsrc
  · refine (h.read hw).congr (hcfg.trans ?_) hsrc
    rw [(srcRead_frame hw).1]

/-- Such a source answers every read. -/
theorem FileTo.answers_ne_nil {total : Nat} {s : State} (h : FileTo total s) (ha : Answering s) :
    s.src.answers ≠ [] := by
  obtain ⟨hk, ⟨hx, -⟩ | ⟨-, bytes, hb, -⟩⟩ := h
  · exact absurd ⟨hk, hx⟩ ha
  · simp [hb]

/-- So an attempt on it does not wait. -/
theorem FileTo.not_held {total : Nat} {s : State} (h : FileTo total s)
    (hw : framePhase s = .waits) : s.phase = .idle ∨ s.phase = .exec := by
  obtain hp | hp | ⟨-, hk, -⟩ | ⟨-, ha, hl⟩ := framePhase_of_waits hw
  · exact .inl hp
  · exact .inr hp
  · rw [h.1] at hk
    cases hk
  · exact absurd hl (h.answers_ne_nil ha)

/-- Every attempt on it ends, the source being the same file further on. -/
theorem FileTo.attempt_ends {total : Nat} {s : State} (h : FileTo total s) (hr : Ready s) :
    ∃ t, exec .tryReadFrame s = .next t ∧ t.phase = .idle ∧ t.rspV = true ∧ FileTo total t := by
  have hfile := runFrame_induct (P := FileTo total) (fun _ _ => FileTo.moved) frameFuel
    (accept Instr.tryReadFrame.command s) h
  refine ⟨_, exec_tryReadFrame hr, ?_⟩
  obtain ⟨hp, hv⟩ | ⟨hidle, hexec, -⟩ := endedOrHeld_attempt hr
  · exact ⟨hp, hv, hfile⟩
  · obtain hp | hp := hfile.not_held (runFrame_stops _)
    · exact absurd hp hidle
    · exact absurd hp hexec

/-- A call for an attempt on it is answered, and leaves the block ready. -/
theorem FileTo.call_answered {total : Nat} {s : State} (h : FileTo total s) (hr : Ready s) :
    ∃ t, exec .tryReadFrame s = .next t ∧
      hostCall .tryReadFrame s = some (t.rsp, takeResponse t) ∧ Ready (takeResponse t) ∧
      FileTo total (takeResponse t) := by
  obtain ⟨t, he, hp, hv, ht⟩ := h.attempt_ends hr
  refine ⟨t, he, hostCall_of_exec hr he hv, ?_, ht.congr (takeResponse_cfg t) (takeResponse_src t)⟩
  rw [takeResponse_pending t hv]
  exact ⟨hp, rfl⟩

theorem runFrame_takesAnswers (n : Nat) (s : State) : TakesAnswers s.src (runFrame n s).src := by
  refine runFrame_induct (P := fun t => TakesAnswers s.src t.src) (fun t u ht hm => ?_) n s (.refl _)
  obtain ⟨used, ha, hc, -⟩ := framePhase_takes hm
  exact ht.trans ⟨used, ha, hc⟩

/-- An attempt that finds a byte at the sync position consumes it (R122). -/
theorem cursor_lt_of_byte {s t : State} {b : Byte} {rest : List ReadAnswer} {rs : List Nat}
    (hr : Ready s) (hl : readyLeft s = some rs) (ha : Answering s)
    (hs : s.src.answers = .byte b :: rest) (h : exec .tryReadFrame s = .next t) :
    s.src.cursor < t.src.cursor := by
  by_cases hb : b = s.cfg.syncByte
  · rw [exec_tryReadFrame hr, runFrame_atTag hl ha (hb ▸ hs)] at h
    cases h
    obtain ⟨used, -, hc⟩ := runFrame_takesAnswers frameFuel (inAttempt .readTag 1 rest rs s)
    have hone : (inAttempt .readTag 1 rest rs s).src.cursor = s.src.cursor + 1 := rfl
    omega
  · rw [(attemptAtSync s b rest rs hr hl ha).2 hs hb] at h
    cases h
    exact Nat.lt_succ_self _

/-- A FILE source passes step 1 with no query (R121). -/
theorem FileTo.ready {total : Nat} {s : State} (h : FileTo total s) :
    readyLeft s = some s.src.readies := by
  simp [readyLeft, h.1]

/-- With a byte left the attempt moves the cursor, whatever it answers. -/
theorem FileTo.cursor_lt {total : Nat} {s t : State} (h : FileTo total s) (hr : Ready s)
    (hlt : s.src.cursor < total) (he : exec .tryReadFrame s = .next t) :
    s.src.cursor < t.src.cursor := by
  have hl := h.ready
  obtain ⟨hk, ⟨-, hc⟩ | ⟨hx, bytes, hb, hc⟩⟩ := h
  · omega
  · have ha : Answering s := by simp [Answering, hx]
    cases bytes with
    | nil =>
      simp only [List.length_nil] at hc
      omega
    | cons b bytes => exact cursor_lt_of_byte hr hl ha hb he

theorem FileTo.cursor_le {total : Nat} {s : State} (h : FileTo total s) : s.src.cursor ≤ total := by
  obtain ⟨-, ⟨-, hc⟩ | ⟨-, bytes, -, hc⟩⟩ := h <;> omega

/-- One call more before the attempts. -/
theorem attempts_succ_of_hostCall {n : Nat} {s t u : State} {r : Response} {rs : List Response}
    (hc : hostCall .tryReadFrame s = some (r, t)) (h : attempts n t = some (rs, u)) :
    attempts (n + 1) s = some (r :: rs, u) := by
  rw [attempts_succ, hc, Option.bind_some, h, Option.map_some]

/-- With no byte left the attempt answers END_OF_STREAM, and the cursor stays. -/
theorem FileTo.exec_at_end {s : State} (h : FileTo s.src.cursor s) (hr : Ready s) :
    ∃ t, exec .tryReadFrame s = .next t ∧ t.rsp.outcome = .endOfStream ∧
      t.src.cursor = s.src.cursor := by
  have hl := h.ready
  obtain ⟨hk, ⟨hx, -⟩ | ⟨hx, bytes, hb, hc⟩⟩ := h
  · exact ⟨_, exhaustedFileAttempt s hr hk hx, rfl, rfl⟩
  · obtain rfl : bytes = [] := List.eq_nil_of_length_eq_zero (by omega)
    have ha : Answering s := by simp [Answering, hx]
    exact ⟨_, (attemptAtSync s 0 [] _ hr hl ha).1 hb, rfl, rfl⟩

/-- So one attempt then is enough. -/
theorem FileTo.attempt_at_end {s : State} (h : FileTo s.src.cursor s) (hr : Ready s) :
    ∃ r u, attempts 1 s = some ([r], u) ∧ r.outcome = .endOfStream ∧
      u.src.cursor = s.src.cursor := by
  obtain ⟨t, he, hcall, -⟩ := h.call_answered hr
  obtain ⟨t', he', ho, hc⟩ := h.exec_at_end hr
  rw [he] at he'
  cases he'
  exact ⟨t.rsp, takeResponse t, attempts_succ_of_hostCall hcall (attempts_zero _), ho,
    by rw [takeResponse_src, hc]⟩

/-- By the number of bytes left: each attempt leaves fewer, and with none left the answer is END_OF_STREAM. -/
theorem FileTo.attempts_end {total : Nat} {s : State} (h : FileTo total s) (hr : Ready s) :
    ∃ n rs r u, n ≤ total - s.src.cursor ∧ attempts (n + 1) s = some (rs ++ [r], u) ∧
      r.outcome = .endOfStream ∧ u.src.cursor = total := by
  induction hk : total - s.src.cursor using Nat.strong_induction_on generalizing s with
  | _ k ih =>
    obtain heq | hlt := h.cursor_le.eq_or_lt
    · subst heq
      obtain ⟨r, u, hu⟩ := h.attempt_at_end hr
      exact ⟨0, [], r, u, Nat.zero_le _, hu⟩
    · obtain ⟨t, he, hcall, hready, ht⟩ := h.call_answered hr
      have hmoved := h.cursor_lt hr hlt he
      obtain ⟨n, rs, r, u, hn, ha, hend⟩ :=
        ih (total - t.src.cursor) (by omega) ht hready (by rw [takeResponse_src])
      exact ⟨n + 1, t.rsp :: rs, r, u, by omega, attempts_succ_of_hostCall hcall ha, hend⟩

/-- Settles O49: the source is a FILE source whose stream ends after `bytes`. -/
theorem filePollingEnds : Obligations.FilePollingEnds := by
  unfold Obligations.FilePollingEnds
  intro s bytes hr hk hx hs
  have h : FileTo (s.src.cursor + bytes.length) s := ⟨hk, .inr ⟨hx, bytes, hs, rfl⟩⟩
  have hend := h.attempts_end hr
  rwa [Nat.add_sub_cancel_left] at hend

end Sys2Proof.Machine

/-! SUPPORT. Assembly as a sum, the numbers lanes denote, and that they give encoded values back
(42_deserializer.md rules R151, R160, R163 and R165). -/

namespace Sys2Proof.Machine

/-! ## Assembly -/

/-- Byte `k` has the weight `2 ^ (8 * k)` (R151). -/
theorem leNat_eq_sum (P : List Byte) :
    leNat P = ((List.range P.length).map fun k => (P.getD k 0).toNat * 2 ^ (8 * k)).sum := by
  induction P with
  | nil => rfl
  | cons b P ih =>
    rw [leNat, ih, List.length_cons, List.range_succ_eq_map, List.map_cons, List.map_map,
      List.sum_cons, ← List.sum_map_mul_left]
    congr 2
    · simp
    · refine List.map_congr_left fun k _ => ?_
      simp only [Function.comp_apply, List.getD_cons_succ, Nat.mul_succ, pow_add]
      ring

/-- Settles O20: by induction on the bytes, the first being the least significant. -/
theorem assemblyIsLittleEndian : Obligations.AssemblyIsLittleEndian := by
  unfold Obligations.AssemblyIsLittleEndian
  intro P
  refine ⟨leNat_eq_sum P, ?_⟩
  rw [pow_mul]
  exact leNat_lt P

/-! ## The number a lane denotes -/

/-- The number a field of kind `k` denotes whose assembled number is `p` (R160, R165). -/
def readingOf (k : Kind) (p : Int) : Int :=
  match k with
  | .u8 => p
  | .u16 => p
  | .u32 => p
  | .i16 => if p < 32768 then p else p - 65536
  | .i32 => if p < 2147483648 then p else p - 4294967296
  | .f32 => p

theorem toNat_zext32 {v : Nat} (h : v < 4294967296) : (zext32 v).toNat = v := by
  rw [zext32, BitVec.toNat_ofNat, Nat.mod_eq_of_lt h]

/-- Two's complement of 32 bits. -/
theorem toInt_zext32 {v : Nat} (h : v < 4294967296) :
    (zext32 v).toInt = if (v : Int) < 2147483648 then (v : Int) else v - 4294967296 := by
  rw [BitVec.toInt_eq_toNat_cond, toNat_zext32 h]
  omega

/-- Sign extension keeps the two's complement reading of 16 bits. -/
theorem toInt_sext32of16 {v : Nat} (h : v < 65536) :
    (sext32of16 v).toInt = if (v : Int) < 32768 then (v : Int) else v - 65536 := by
  rw [sext32of16, BitVec.toInt_signExtend_of_le (by decide), BitVec.toInt_eq_toNat_cond,
    BitVec.toNat_ofNat]
  omega

/-- A lane denotes the reading of the number assembled from its bytes. -/
theorem intVal_laneOfBytes {k : Kind} {bytes : List Byte} (h : bytes.length = width k) :
    (laneOfBytes k bytes).intVal = readingOf k (leNat bytes) := by
  have hlt := leNat_lt bytes
  rw [h] at hlt
  cases k <;> simp only [width] at hlt
  case i16 => exact toInt_sext32of16 hlt
  case i32 => exact toInt_zext32 hlt
  all_goals exact congrArg Nat.cast (toNat_zext32 (by omega))

/-- The reading of a number of the kind's width is in the kind's range. -/
theorem inRange_readingOf {k : Kind} {p : Int} (h0 : 0 ≤ p) (hlt : p < (256 ^ width k : Nat)) :
    inRange k (readingOf k p) = true := by
  cases k <;> refine decide_eq_true ?_ <;> simp only [width, readingOf] at hlt ⊢ <;> omega

/-- Settles O25: a lane denotes the reading of its bytes, which are as many as its kind is wide. -/
theorem fieldValues : Obligations.FieldValues := by
  unfold Obligations.FieldValues
  intro k bytes h
  have hlt := leNat_lt bytes
  rw [h] at hlt
  rw [intVal_laneOfBytes h]
  exact ⟨inRange_readingOf (by omega) (by exact_mod_cast hlt), by cases k <;> rfl⟩

/-! ## Encoded values -/

/-- A value in range is the reading of its pattern (R163). -/
theorem readingOf_emod {k : Kind} {v : Int} (h : inRange k v = true) :
    readingOf k (v % (256 ^ width k : Nat)) = v := by
  cases k <;> simp only [width, readingOf, inRange, decide_eq_true_iff] at h ⊢ <;> omega

/-- The bytes of an encoded value assemble to its pattern. -/
theorem leNat_encField (k : Kind) (v : Int) :
    (leNat (encField k v) : Int) = v % (256 ^ width k : Nat) := by
  have hpos : (0 : Int) < (256 ^ width k : Nat) := by positivity
  have h0 := Int.emod_nonneg v hpos.ne'
  have hlt := Int.emod_lt_of_pos v hpos
  rw [encField, leNat_leBytes, Nat.mod_eq_of_lt (by omega), Int.toNat_of_nonneg h0]

/-- The lane of an encoded value in range denotes the value. -/
theorem intVal_encField {k : Kind} {v : Int} (h : inRange k v = true) :
    (laneOfBytes k (encField k v)).intVal = v := by
  rw [intVal_laneOfBytes (encField_length k v), leNat_encField, readingOf_emod h]

theorem val_of_ne_f32 {l : Lane} (h : l.kind ≠ .f32) : l.val = .int l.intVal := by
  obtain ⟨k, w⟩ := l
  cases k with
  | f32 => exact absurd rfl h
  | _ => rfl

/-- The word of an f32 lane is the encoded pattern. -/
theorem word_encField_f32 {v : Int} (h : inRange .f32 v = true) :
    (laneOfBytes .f32 (encField .f32 v)).word = BitVec.ofInt 32 v := by
  have hword : ((laneOfBytes .f32 (encField .f32 v)).word.toNat : Int) = v := intVal_encField h
  conv_rhs => rw [← hword]
  rw [BitVec.ofInt_natCast, BitVec.ofNat_toNat, BitVec.setWidth_eq]

/-- Encoded values are as long as their layout. -/
theorem encFields_length {ks : List Kind} {vals : List Int} (h : vals.length = ks.length) :
    (encFields ks vals).length = widthSum ks := by
  induction ks generalizing vals with
  | nil => rfl
  | cons k ks ih =>
    obtain _ | ⟨v, vals⟩ := vals
    · cases h
    · simp [encFields, widthSum, ih (Nat.succ.inj h)]

/-- The layout over the encoded values: each field lies on the bytes of its own value. -/
theorem lanesOf_encFields {ks : List Kind} {vals : List Int} (h : vals.length = ks.length) :
    lanesOf ks (encFields ks vals) =
      List.zipWith (fun k v => laneOfBytes k (encField k v)) ks vals := by
  induction ks generalizing vals with
  | nil => rfl
  | cons k ks ih =>
    obtain _ | ⟨v, vals⟩ := vals
    · cases h
    · rw [encFields, lanesOf, List.take_left' (encField_length k v),
        List.drop_left' (encField_length k v), ih (Nat.succ.inj h), List.zipWith_cons_cons]

end Sys2Proof.Machine

/-! SUPPORT. What CVT answers, kind by kind (42_deserializer.md rules R152 to R157). -/

namespace Sys2Proof.Machine

/-! ## The lanes of one, two and four bytes -/

theorem zext32_one (b0 : Byte) : zext32 (leNat [b0]) = b0.setWidth 32 := by
  refine BitVec.eq_of_toNat_eq ?_
  simp [zext32, leNat]

theorem zext32_two (b0 b1 : Byte) : zext32 (leNat [b0, b1]) = (b1 ++ b0).setWidth 32 :=
  ofNat_leNat_two 32 b0 b1

theorem zext32_four (b0 b1 b2 b3 : Byte) :
    zext32 (leNat [b0, b1, b2, b3]) = b3 ++ b2 ++ b1 ++ b0 := ofNat_leNat_four b0 b1 b2 b3

theorem sext32of16_two (b0 b1 : Byte) :
    sext32of16 (leNat [b0, b1]) = (b1 ++ b0).signExtend 32 := by
  rw [sext32of16, ofNat_leNat_two, BitVec.setWidth_eq]

/-! ## The answers -/

/-- CVT on data of the width, the word of the lane given. -/
theorem exec_cvt_word {s : State} (hr : Ready s) {i : Instr} {k : Kind} (hf : i.form = .cvt k)
    (hl : i.data.length = width k) {w : Word} (hw : laneWord k (leNat i.data) = w) :
    exec i s = .next (afterCommand i.command { Response.cleared with
      outcome := .ok, nf := 1, fields := [⟨k, w⟩] } s) := by
  rw [exec_cvt hr hf hl, laneOfBytes, hw]

/-- Settles O21: the assembled number zero-extended is the bytes appended. -/
theorem cvtUnsignedResults : Obligations.CvtUnsignedResults := by
  unfold Obligations.CvtUnsignedResults
  intro s b0 b1 b2 b3 hr
  exact ⟨exec_cvt_word hr rfl rfl (zext32_one b0), exec_cvt_word hr rfl rfl (zext32_two b0 b1),
    exec_cvt_word hr rfl rfl (zext32_four b0 b1 b2 b3)⟩

/-- Settles O22: the assembled number sign-extended is the bytes appended and sign-extended. -/
theorem cvtSignedResults : Obligations.CvtSignedResults := by
  unfold Obligations.CvtSignedResults
  intro s b0 b1 b2 b3 hr
  exact ⟨exec_cvt_word hr rfl rfl (sext32of16_two b0 b1),
    exec_cvt_word hr rfl rfl (zext32_four b0 b1 b2 b3)⟩

/-- Settles O23: the pattern is the four bytes appended. -/
theorem cvtFloatKeepsPattern : Obligations.CvtFloatKeepsPattern := by
  unfold Obligations.CvtFloatKeepsPattern
  intro s b0 b1 b2 b3 hr
  exact exec_cvt_word hr rfl rfl (zext32_four b0 b1 b2 b3)

/-- Settles O24: each kind refuses every length that is not its width. -/
theorem cvtWrongLength : Obligations.CvtWrongLength := by
  unfold Obligations.CvtWrongLength
  intro s data hr hw
  exact ⟨fun h => exec_cvt_mismatch hr rfl hw h, fun h => exec_cvt_mismatch hr rfl hw h,
    fun h => exec_cvt_mismatch hr rfl hw h, fun h => exec_cvt_mismatch hr rfl hw h,
    fun h => exec_cvt_mismatch hr rfl hw h, fun h => exec_cvt_mismatch hr rfl hw h⟩

end Sys2Proof.Machine

/-! SUPPORT. What DECODE answers: to a tag it does not know, to a wrong length, and to data a registered spec
lies on (42_deserializer.md rules R158, R159, R161 and R163). -/

namespace Sys2Proof.Machine

/-! ## The two errors -/

/-- Settles O26: the tag is looked up before the length is read. -/
theorem decodeUnregisteredTag : Obligations.DecodeUnregisteredTag := by
  unfold Obligations.DecodeUnregisteredTag
  intro s t data hr hlen hl
  have hw : (Instr.decodeRecord t data).WellFormed := hlen
  exact (exec_of_ready hr _).trans (decodeBody_accept_unknown (command_wellFormed hw) s hl)

/-- Settles O27: the length latched is the length of the data. -/
theorem decodeLengthMismatch : Obligations.DecodeLengthMismatch := by
  unfold Obligations.DecodeLengthMismatch
  intro s t spec data hr hlen hl hne
  have hw : (Instr.decodeRecord t data).WellFormed := hlen
  have hlatched : lenByte data ≠ spec.payloadLength := fun h => hne (h ▸ lenByte_toNat hlen).symm
  exact (exec_of_ready hr _).trans
    (decodeBody_accept_mismatch (command_wellFormed hw) s hl hlatched)

/-! ## Data of the spec's length -/

/-- The state after DECODE of the tag `t`, registered with `spec`, on the spec's data. -/
def afterDecode (t : Byte) (spec : PacketSpec) (data : List Byte) (s : State) : State :=
  { afterCommand ⟨0x02, t, spec.payloadLength, data⟩
      { Response.cleared with
        outcome := .ok, tagV := true, tag := t, nf := BitVec.ofNat 8 spec.layout.length,
        fields := lanesOf spec.layout data } s with
    tag := t, tagV := true }

section

variable {s : State} {t : Byte} {spec : PacketSpec} {data : List Byte} (hr : Ready s)
  (hl : lookup s.cfg.registry t = some spec)
  (hsum : widthSum spec.layout = spec.payloadLength.toNat)
  (hd : data.length = spec.payloadLength.toNat)

include hr hl hsum hd in
/-- DECODE lays the layout of the spec over the data (R158). -/
theorem exec_decodeRecord_ok :
    exec (.decodeRecord t data) s = .next (afterDecode t spec data s) := by
  have hw : (Instr.decodeRecord t data).WellFormed := by
    have := spec.payloadLength.isLt
    simp only [Instr.WellFormed, Instr.data]
    omega
  have hlen : lenByte data = spec.payloadLength := ofNat_length hd
  rw [afterDecode, ← hlen]
  exact (exec_of_ready hr _).trans
    (decodeBody_accept_ok (command_wellFormed hw) s hl hlen hsum.le)

include hsum in
/-- A layout has at most as many fields as bytes, so `NF` holds their number. -/
theorem layout_length_le : spec.layout.length ≤ 255 := by
  have := length_le_widthSum spec.layout
  have := spec.payloadLength.isLt
  omega

include hsum hd in
/-- The bytes of a field all lie in the data. -/
theorem fieldBytes_length {j : Nat} {k : Kind} (hj : spec.layout[j]? = some k) :
    ((data.drop (fieldOffset spec.layout j)).take (width k)).length = width k := by
  have := fieldOffset_le spec.layout j k hj
  simp
  omega

end

/-- Settles O28: the lanes of the layout over the data, each of the bytes at its offset. -/
theorem decodeFieldsInLayoutOrder : Obligations.DecodeFieldsInLayoutOrder := by
  unfold Obligations.DecodeFieldsInLayoutOrder
  intro s t spec data hr hl hsum hd
  exact ⟨lanesOf spec.layout data, exec_decodeRecord_ok hr hl hsum hd, layout_length_le hsum,
    lanesOf_length _ _, lanesOf_getElem? _ _⟩

theorem form_cvt_instr (k : Kind) (arg : Byte) (data : List Byte) :
    ((Form.cvt k).instr arg data).form = .cvt k := by cases k <;> rfl

theorem data_cvt_instr (k : Kind) (arg : Byte) (data : List Byte) :
    ((Form.cvt k).instr arg data).data = data := by cases k <;> rfl

/-- Settles O29: both are the lane of the field's bytes. -/
theorem decodeFieldEqualsCvt : Obligations.DecodeFieldEqualsCvt := by
  unfold Obligations.DecodeFieldEqualsCvt
  intro s u t' t spec data j k hr hu hl hsum hd he hj
  rw [exec_decodeRecord_ok hr hl hsum hd] at he
  cases he
  have hlen := fieldBytes_length hsum hd hj
  have hcvt := exec_cvt hu (form_cvt_instr k 0 _) ((congrArg _ (data_cvt_instr k 0 _)).trans hlen)
  rw [data_cvt_instr] at hcvt
  exact ⟨_, _, hcvt, rfl, rfl, lanesOf_getElem? _ _ _ _ hj⟩

/-- Settles O30: field `j` of the layout lies on the bytes of value `j`, whose lane denotes it. -/
theorem decodeRoundTrip : Obligations.DecodeRoundTrip := by
  unfold Obligations.DecodeRoundTrip
  intro s t spec vals hr hl hsum hlen hrange
  have hd := (encFields_length hlen).trans hsum
  refine ⟨_, exec_decodeRecord_ok hr hl hsum hd, rfl, lanesOf_length _ _, fun j k v hk hv => ?_⟩
  have hv' := hrange j k v hk hv
  have hlane : (lanesOf spec.layout (encFields spec.layout vals))[j]? =
      some (laneOfBytes k (encField k v)) := by
    simp [lanesOf_encFields hlen, List.getElem?_zipWith, hk, hv]
  refine ⟨_, hlane, rfl, fun hne => ?_, ?_⟩
  · rw [val_of_ne_f32 hne, intVal_encField hv']
  · rintro rfl
    have hword := word_encField_f32 hv'
    exact ⟨hword, congrArg (Value.f32 <| f32Datum ·) hword⟩

/-! ## After a verified frame -/

/-- The payload of an OK answer is as long as the spec of its tag says (41_frame_reader.md rule R127), and on
the way there the tag latched is registered (R123). -/
def PayloadOfSpec (s : State) : Prop :=
  match s.phase with
  | .idle => s.rsp.outcome = .ok → ∃ spec, lookup s.cfg.registry s.rsp.tag = some spec ∧
      s.rsp.payload.length = spec.payloadLength.toNat
  | .checkReady => True
  | .readSync => True
  | .readTag => True
  | .readCkA => TagRegistered s
  | .readCkB => TagRegistered s
  | .readPayload => TagRegistered s
  | .verify => TagRegistered s
  | .exec => True

/-- An attempt that ends with another outcome. -/
theorem payloadOfSpec_raise {o : OutcomeCode} (r : Response) (s : State) (h : o ≠ .ok) :
    PayloadOfSpec (raise o r s) := fun ho => absurd ho h

/-- Verification answers `SPEC_LEN` bytes of `PBUF`. -/
theorem payloadOfSpec_phaseVerify {s : State} (h : TagRegistered s) :
    PayloadOfSpec (phaseVerify s) := by
  obtain ⟨-, spec, hl, hlen⟩ := h
  unfold phaseVerify
  split
  · exact fun _ => ⟨spec, hl, (Memory.bytes_length _ _ _).trans (congrArg BitVec.toNat hlen)⟩
  · exact payloadOfSpec_raise _ _ nofun

theorem payloadOfSpec_framePhase {s t : State} (hs : PayloadOfSpec s) (h : framePhase s = .moved t) :
    PayloadOfSpec t := by
  obtain ⟨hp, ⟨-, rfl⟩ | ⟨n, rest, -, -, ⟨-, rfl⟩ | ⟨-, rfl⟩⟩⟩ |
    ⟨hp, ⟨w, -, rfl⟩ | ⟨b, w, -, ⟨-, rfl⟩ | ⟨-, rfl⟩⟩⟩ |
    ⟨hp, ⟨w, -, rfl⟩ | ⟨b, w, hw, ⟨-, rfl⟩ | ⟨spec, hl, rfl⟩⟩⟩ |
    ⟨hp, ⟨w, -, rfl⟩ | ⟨b, w, hw, rfl⟩⟩ | ⟨hp, ⟨w, -, rfl⟩ | ⟨b, w, hw, rfl⟩⟩ |
    ⟨hp, ⟨-, ⟨w, -, rfl⟩ | ⟨b, w, hw, rfl⟩⟩ | ⟨-, rfl⟩⟩ | ⟨hp, rfl⟩ := framePhase_cases h
  all_goals rw [PayloadOfSpec, hp] at hs
  · trivial
  · exact payloadOfSpec_raise _ _ nofun
  · trivial
  · exact payloadOfSpec_raise _ _ nofun
  · trivial
  · exact payloadOfSpec_raise _ _ nofun
  · exact payloadOfSpec_raise _ _ nofun
  · exact payloadOfSpec_raise _ _ nofun
  · obtain ⟨rest, -, -, rfl⟩ := srcRead_eq_byte hw
    exact ⟨rfl, spec, hl, rfl⟩
  · exact payloadOfSpec_raise _ _ nofun
  · obtain ⟨rest, -, -, rfl⟩ := srcRead_eq_byte hw
    exact hs
  · exact payloadOfSpec_raise _ _ nofun
  · obtain ⟨rest, -, -, rfl⟩ := srcRead_eq_byte hw
    exact hs
  · exact payloadOfSpec_raise _ _ nofun
  · obtain ⟨rest, -, -, rfl⟩ := srcRead_eq_byte hw
    split <;> exact hs
  · exact hs
  · exact payloadOfSpec_phaseVerify hs

/-- The answer of an attempt that ended OK. -/
theorem attempt_ok_payload {s t : State} (hr : Ready s) (he : exec .tryReadFrame s = .next t)
    (hv : t.rspV = true) (ho : t.rsp.outcome = .ok) :
    ∃ spec, lookup s.cfg.registry t.rsp.tag = some spec ∧
      t.rsp.payload.length = spec.payloadLength.toNat := by
  obtain ⟨hcfg, -⟩ := frameReaderFrame s t hr he
  rw [exec_tryReadFrame hr] at he
  cases he
  have hidle := (endedOrHeld_attempt hr).phase_eq_idle hv
  have h : PayloadOfSpec (runFrame frameFuel (accept Instr.tryReadFrame.command s)) :=
    runFrame_induct (fun _ _ => payloadOfSpec_framePhase) _ _ trivial
  rw [PayloadOfSpec, hidle, hcfg] at h
  exact h ho

/-- Settles O31: the payload verified has the length of its tag's spec, and the spec is legal. -/
theorem frameOkThenDecodeOk : Obligations.FrameOkThenDecodeOk := by
  unfold Obligations.FrameOkThenDecodeOk
  intro s t u hreg hr he hv ho hu hcfg
  obtain ⟨spec, hl, hlen⟩ := attempt_ok_payload hr he hv ho
  have hsum := lookup_legal hreg hl
  have hnf := layout_length_le hsum
  exact ⟨spec, _, hl, exec_decodeRecord_ok hu (hcfg ▸ hl) hsum hlen, rfl,
    (BitVec.toNat_ofNat _ _).trans (Nat.mod_eq_of_lt (by omega))⟩

end Sys2Proof.Machine

/-! SUPPORT. That the machine never stops (60_exceptions.md rule R180; 70_reset_and_hazards.md rule R215): the two
faults of the EXEC phase are out of reach of a state that meets the invariant, and nothing else faults. -/

namespace Sys2Proof.Machine

/-- A registered layout lies within `PBUF` (10_state.md rule R27), so DECODE answers a state. -/
theorem exists_decodeBody_eq_next {s : State} (hreg : registryLegal s.cfg.registry = true) :
    ∃ t, decodeBody s = .next t := by
  simp only [decodeBody]
  split
  · exact ⟨_, rfl⟩
  · next spec hl =>
    split
    · exact ⟨_, rfl⟩
    · have hsum := lookup_legal hreg hl
      have hlt := spec.payloadLength.isLt
      obtain ⟨lanes, hw, -⟩ := walkLayout_inBounds (latchTag s.cmdArg s) spec.layout 0
        (by simp only [maxPayloadLen]; omega)
      rw [hw]
      exact ⟨_, rfl⟩

/-- A single field lies within `PBUF` whatever its kind, so CVT answers a state. -/
theorem exists_cvtBody_eq_next (k : Kind) (s : State) : ∃ t, cvtBody k s = .next t := by
  unfold cvtBody
  split
  · exact ⟨_, rfl⟩
  · have hk := width_le k
    rw [conv, memRead, if_pos (by simp only [maxPayloadLen]; omega)]
    exact ⟨_, rfl⟩

/-- Acceptance never leaves TRY_READ_FRAME latched in the EXEC phase (20_memory.md rule R59), so the header
directs it to one of the bodies. -/
theorem Inv.exists_execPhase_eq_next {s : State} (h : Inv s) (hp : s.phase = .exec) :
    ∃ t, execPhase s = .next t := by
  have hph := h.phase
  rw [PhaseInv, hp] at hph
  obtain ⟨-, -, hne⟩ := hph
  unfold execPhase
  split
  · next hc => exact absurd hc hne
  · exact exists_decodeBody_eq_next h.registry
  · exact ⟨_, rfl⟩
  · exact exists_cvtBody_eq_next _ s
  · exact ⟨_, rfl⟩

/-- One transition of `PHASE`: only the EXEC phase could fault. -/
theorem Inv.exists_blockTurn_eq_next {s : State} (h : Inv s) : ∃ t, blockTurn s = .next t := by
  unfold blockTurn
  split
  · exact ⟨_, rfl⟩
  · exact ⟨_, rfl⟩
  · exact ⟨_, rfl⟩
  · split
    · next he => exact h.exists_execPhase_eq_next he
    · split <;> exact ⟨_, rfl⟩

/-- Each transition answers a state that meets the invariant again. -/
theorem Inv.exists_blockTurns_eq_next {s : State} (h : Inv s) (n : Nat) :
    ∃ t, blockTurns n s = .next t := by
  induction n generalizing s with
  | zero => exact ⟨s, rfl⟩
  | succ n ih =>
    obtain ⟨t, ht⟩ := h.exists_blockTurn_eq_next
    rw [blockTurns, ht]
    exact ih (blockTurn_keeps inv_keptByTurns h ht)

/-- Settles O52: a move of the block is its transitions of `PHASE`, a turn of the block is one of them, and the
host's and the source's turns always answer a state. -/
theorem stepNeverStops : Obligations.StepNeverStops := by
  unfold Obligations.StepNeverStops
  intro s h
  match hg : s.agenda with
  | [] =>
    rw [step_of_noTurn hg, blockMoveIsPhaseTransitions]
    exact h.exists_blockTurns_eq_next _
  | .host a :: turns => exact ⟨_, step_of_host hg⟩
  | .source a :: turns => exact ⟨_, step_of_source hg⟩
  | .block :: turns =>
    rw [step_of_block hg]
    exact (inv_keptByTurns.agenda turns s h).exists_blockTurn_eq_next

end Sys2Proof.Machine

/-! SUPPORT. Reset and construction: the reset state, that it meets the invariant, and the configuration a
constructed block has (70_reset_and_hazards.md rules R200 to R203). -/

namespace Sys2Proof.Machine

/-- Settles O13: each register of the block just reset is read off `resetBlock`. -/
theorem resetAbortsCommand : Obligations.ResetAbortsCommand := by
  unfold Obligations.ResetAbortsCommand
  intro s turns hg
  refine ⟨resetBlock (setAgenda turns s), step_of_host hg, ?_⟩
  simp [setAgenda]

/-- A block just constructed is a block reset, with nothing on its ports. -/
theorem inv_constructed {cfg : Cfg} (h : registryLegal cfg.registry = true) :
    Inv (State.constructed cfg) :=
  ⟨Memory.wf_nil, h, fun _ => rfl, fun _ => rfl, Nat.zero_le _, responseInv_cleared _⟩

/-- Settles O50: the registry of the reset state is empty, so it is legal. -/
theorem resetMeetsInvariant : Obligations.ResetMeetsInvariant := by
  unfold Obligations.ResetMeetsInvariant
  exact ⟨inv_constructed rfl, fun _ => inv_constructed⟩

/-- Construction fails at the lowest failing tag (R203). -/
theorem construct_eq_error_iff {raw : RawCfg} {t : Byte} : construct raw = .error ⟨t⟩ ↔
    FailsAt raw t ∧ ∀ t' : Byte, t'.toNat < t.toNat → ¬FailsAt raw t' := by
  obtain ⟨u, hu, hlow, herr⟩ | ⟨hnone, hok⟩ := construct_cases raw
  · rw [herr]
    constructor
    · intro h
      cases h
      exact ⟨hu, hlow⟩
    · rintro ⟨ht, hlow'⟩
      have hle : t.toNat ≤ u.toNat := Nat.not_lt.1 fun hlt => hlow' u hlt hu
      have hge : u.toNat ≤ t.toNat := Nat.not_lt.1 fun hlt => hlow t hlt ht
      rw [BitVec.eq_of_toNat_eq (Nat.le_antisymm hge hle)]
  · rw [hok]
    exact ⟨nofun, fun h => absurd h.1 (hnone t)⟩

/-- A registered spec that does not fail is looked up with the length and the descriptors supplied. -/
theorem lookup_checkedCfg_of_legal {raw : RawCfg} {t : Byte} {r : RawSpec}
    (hr : raw.registry t = some r) (h : RawLegal r) :
    ∃ spec, lookup (checkedCfg raw).registry t = some spec ∧
      spec.payloadLength.toNat = r.payloadLength ∧ spec.layout.map Kind.descriptor = r.descriptors := by
  rw [lookup_checkedCfg, checkedSpec, hr, Option.bind_some]
  match hc : checkSpec r with
  | none => exact absurd h (checkSpec_isNone.1 (by rw [hc, Option.isNone_none]))
  | some spec =>
    obtain ⟨-, hd, -, hp⟩ := checkSpec_eq_some.1 hc
    exact ⟨spec, rfl, hp, hd.symm⟩

/-- Settles O14: an error by the lowest failing tag; otherwise the block of the checked configuration, whose
registry is legal. -/
theorem constructionChecksRegistry : Obligations.ConstructionChecksRegistry := by
  unfold Obligations.ConstructionChecksRegistry
  refine ⟨fun raw t => construct_eq_error_iff, fun raw h => ?_⟩
  refine ⟨_, construct_of_legal h, rfl, inv_constructed (checkedCfg_legal raw), rfl, rfl, rfl,
    fun t => ⟨fun hr => ?_, fun r hr => ?_⟩⟩
  · rw [constructed_cfg, lookup_checkedCfg, checkedSpec, hr, Option.bind_none]
  · exact lookup_checkedCfg_of_legal hr (by_contra fun hl => h t ⟨r, hr, hl⟩)

end Sys2Proof.Machine

/-! SUPPORT. Attempts the source answers in full: they end (70_reset_and_hazards.md rule R214). -/

namespace Sys2Proof.Machine

theorem phase_ne_idle_of_moved {s t : State} (h : framePhase s = .moved t) : s.phase ≠ .idle := by
  intro hp
  rw [framePhase_idle hp] at h
  cases h

/-- A read that answers a byte takes it from the front and counts it (20_memory.md rule R51). -/
theorem srcRead_byte_takes {s t : State} {b : Byte} (h : srcRead s = .byte b t) :
    s.src.answers = .byte b :: t.src.answers ∧ t.consumed = s.consumed + 1 := by
  obtain ⟨rest, -, hl, rfl⟩ := srcRead_eq_byte h
  exact ⟨hl, rfl⟩

/-- A transition that does not end the attempt reads a byte, or takes no answer to a read: an `EOS` ends it. -/
theorem framePhase_reads {s t : State} (h : framePhase s = .moved t) (ht : t.phase ≠ .idle) :
    (t.src.answers = s.src.answers ∧ t.consumed = s.consumed) ∨
      ∃ b, s.src.answers = .byte b :: t.src.answers ∧ t.consumed = s.consumed + 1 := by
  obtain ⟨-, ⟨-, rfl⟩ | ⟨n, rest, -, -, ⟨-, rfl⟩ | ⟨-, rfl⟩⟩⟩ |
    ⟨-, ⟨w, -, rfl⟩ | ⟨b, w, hw, ⟨-, rfl⟩ | ⟨-, rfl⟩⟩⟩ |
    ⟨-, ⟨w, -, rfl⟩ | ⟨b, w, hw, ⟨-, rfl⟩ | ⟨spec, -, rfl⟩⟩⟩ |
    ⟨-, ⟨w, -, rfl⟩ | ⟨b, w, hw, rfl⟩⟩ | ⟨-, ⟨w, -, rfl⟩ | ⟨b, w, hw, rfl⟩⟩ |
    ⟨-, ⟨-, ⟨w, -, rfl⟩ | ⟨b, w, hw, rfl⟩⟩ | ⟨-, rfl⟩⟩ | ⟨-, rfl⟩ := framePhase_cases h
  · exact .inl ⟨rfl, rfl⟩
  · exact absurd rfl ht
  · exact .inl ⟨rfl, rfl⟩
  · exact absurd rfl ht
  · exact .inr ⟨b, (srcRead_byte_takes hw :)⟩
  · exact absurd rfl ht
  · exact absurd rfl ht
  · exact absurd rfl ht
  · exact .inr ⟨b, (srcRead_byte_takes hw :)⟩
  · exact absurd rfl ht
  · exact .inr ⟨b, (srcRead_byte_takes hw :)⟩
  · exact absurd rfl ht
  · exact .inr ⟨b, (srcRead_byte_takes hw :)⟩
  · exact absurd rfl ht
  · exact .inr ⟨b, (srcRead_byte_takes hw :)⟩
  · exact .inl ⟨rfl, rfl⟩
  · exact absurd (phaseVerify_phase s) ht

/-- What there is to read is enough to end the attempt: an `EOS` is to come, for good or among the answers, or
the bytes read and the answers waiting are as many as the longest frame has bytes (R214). -/
def EnoughAnswers (s : State) : Prop :=
  s.phase = .idle ∨ ¬Answering s ∨ .eos ∈ s.src.answers ∨
    259 ≤ s.consumed.toNat + s.src.answers.length

/-- A byte read is one more read and one fewer waiting. -/
theorem enoughAnswers_framePhase {s t : State} (hs : EnoughAnswers s) (hc : PhaseCount s)
    (h : framePhase s = .moved t) : EnoughAnswers t := by
  have hidle := phase_ne_idle_of_moved h
  by_cases ht : t.phase = .idle
  · exact .inl ht
  refine .inr ?_
  obtain hp | hx | hs := hs
  · exact absurd hp hidle
  · refine .inl ?_
    rwa [Answering, (framePhase_frame h).1, (framePhase_exhausted hx h).1]
  · refine .inr ?_
    obtain ⟨hl, hn⟩ | ⟨b, hl, hn⟩ := framePhase_reads h ht
    · rwa [hl, hn]
    · have hone : t.consumed.toNat = s.consumed.toNat + 1 := by
        have hlt := hc.consumed_lt hidle
        rw [hn]
        bv_omega
      rw [hl, List.mem_cons, List.length_cons] at hs
      obtain (he | he) | hm := hs
      · cases he
      · exact .inl he
      · exact .inr (by omega)

/-- So it is in every phase of an attempt from readiness on. -/
theorem runFrame_enoughAnswers {s : State} {rs : List Nat} (hl : readyLeft s = some rs)
    (hs : ¬Answering s ∨ .eos ∈ s.src.answers ∨ 259 ≤ s.src.answers.length) :
    EnoughAnswers (runFrame frameFuel (accept Instr.tryReadFrame.command s)) := by
  have hstart : EnoughAnswers (inAttempt .readSync 0 s.src.answers rs s) :=
    .inr (hs.imp_right (.imp_right fun hm => hm.trans (Nat.le_add_left _ _)))
  rw [runFrame_atSync hl]
  have hend := runFrame_induct (P := fun t => EnoughAnswers t ∧ PhaseCount t)
    (fun _ _ ⟨he, hc⟩ hm => ⟨enoughAnswers_framePhase he hc hm, phaseCount_framePhase hc hm⟩)
    frameFuel (inAttempt .readSync 0 s.src.answers rs s) ⟨hstart, rfl, rfl⟩
  exact hend.1

/-- In an attempt that waits for a byte, what there was to read has run out. -/
theorem EnoughAnswers.not_held {s : State} (h : EnoughAnswers s) (hc : PhaseCount s)
    (hw : framePhase s = .waits) : s.phase = .idle := by
  have hlen := s.specLen.isLt
  by_contra hidle
  obtain hp | hp | ⟨hp, -⟩ | ⟨hp, ha, hl⟩ := framePhase_of_waits hw
  · exact hidle hp
  · rw [PhaseCount, hp] at hc
    exact hc
  · rw [PhaseCount, hp] at hc
    exact hc
  · have hmany : 259 ≤ s.consumed.toNat := by
      obtain hi | hx | he | hm := h
      · exact absurd hi hidle
      · exact absurd ha hx
      · simp [hl] at he
      · simpa [hl] using hm
    obtain hp | hp | hp | hp | ⟨hp, hlt⟩ := hp
    all_goals
      rw [PhaseCount, hp] at hc
      obtain ⟨hn, -⟩ := hc
    iterate 4
      · simp [hn] at hmany
    · omega

/-- Settles O43: with enough to read and step 1 passed, no phase of the attempt can be the one it holds in. -/
theorem answeredAttemptEnds : Obligations.AnsweredAttemptEnds := by
  unfold Obligations.AnsweredAttemptEnds
  intro s hr hl hs
  obtain ⟨rs, hl⟩ := Option.ne_none_iff_exists'.1 hl
  have hidle := (runFrame_enoughAnswers hl hs).not_held (runFrame_counts hl).2 (runFrame_stops _)
  refine ⟨_, exec_tryReadFrame hr, hidle, ?_⟩
  obtain ⟨-, hv⟩ | ⟨hp, -⟩ := endedOrHeld_attempt hr
  · exact hv
  · exact absurd hidle hp

end Sys2Proof.Machine

/-! SUPPORT. Calls of the host one after another: on a block that is not ready, and through noise up to a frame
(70_reset_and_hazards.md rules R206 and R212). -/

namespace Sys2Proof.Machine

theorem hostCall_of_not_ready {s : State} (h : ¬Ready s) (i : Instr) : hostCall i s = none := by
  rw [hostCall, if_neg fun hc => h ((ready_iff s).2 hc)]

theorem poll_of_not_ready {s : State} (h : ¬Ready s) (n : Nat) : poll n s = none := by
  cases n with
  | zero => rfl
  | succ n => rw [poll_succ, hostCall_of_not_ready h, Option.bind_none]

/-- A call whose command is held is not answered (20_memory.md rule R55). -/
theorem hostCall_of_held {i : Instr} {s t : State} (he : exec i s = .next t) (hv : t.rspV = false) :
    hostCall i s = none := by
  simp [hostCall, he, hv]

/-- Settles O59: by whether the block is ready, and then by whether the command has ended. -/
theorem hostCallNeedsReadyBlock : Obligations.HostCallNeedsReadyBlock := by
  unfold Obligations.HostCallNeedsReadyBlock
  intro i s
  refine ⟨fun hn => ⟨hostCall_of_not_ready hn i, fun n => ⟨poll_of_not_ready hn n, ?_⟩⟩,
    fun t hr he => ⟨hostCall_of_held he, fun hv => ?_⟩⟩
  · rw [readPacket_eq, poll_of_not_ready hn, Option.bind_none]
  · rw [hostCall_of_exec hr he hv, takeResponse_pending t hv]

/-- A response that is not NO_DATA_AVAILABLE ends the polling. -/
theorem poll_of_answer {n : Nat} {s t : State} {r : Response}
    (hc : hostCall .tryReadFrame s = some (r, t)) (ho : r.outcome ≠ .noDataAvailable) :
    poll (n + 1) s = some (r, t) := by
  rw [poll_succ, hc, Option.bind_some, if_neg ho]

/-- NO_DATA_AVAILABLE makes the host poll again. -/
theorem poll_of_noData {n : Nat} {s t : State} {r : Response}
    (hc : hostCall .tryReadFrame s = some (r, t)) (ho : r.outcome = .noDataAvailable) :
    poll (n + 1) s = poll n t := by
  rw [poll_succ, hc, Option.bind_some, if_pos ho]

/-- The answer of an attempt at a byte of noise (41_frame_reader.md rule R122). -/
def noiseResponse : Response :=
  { Response.cleared with outcome := .noDataAvailable, consumed := 1 }

/-- A FILE source is not queried (41_frame_reader.md rule R121). -/
theorem readyLeft_of_file {s : State} (hk : s.cfg.sourceKind = .file) :
    readyLeft s = some s.src.readies := by
  simp [readyLeft, hk]

/-- One byte of noise costs one call, and the block is ready for the next, the source one byte further. -/
theorem hostCall_noise {s : State} {b : Byte} {rest : List ReadAnswer} (hr : Ready s)
    (hk : s.cfg.sourceKind = .file) (hx : s.src.exhausted = false) (hb : b ≠ s.cfg.syncByte)
    (hs : s.src.answers = .byte b :: rest) :
    ∃ t, hostCall .tryReadFrame s = some (noiseResponse, t) ∧ Ready t ∧ t.cfg = s.cfg ∧
      t.src = { s.src with cursor := s.src.cursor + 1, answers := rest } := by
  have hl := readyLeft_of_file hk
  have ha : Answering s := by simp [Answering, hx]
  have he := (attemptAtSync s b rest _ hr hl ha).2 hs hb
  exact ⟨_, hostCall_of_exec hr he rfl, ⟨rfl, rfl⟩, rfl, rfl⟩

/-- A valid frame next on a FILE source is answered OK by one call (41_frame_reader.md rule R127). -/
theorem hostCall_frame {s : State} {t : Byte} {spec : PacketSpec} {P : List Byte}
    {rest : List ReadAnswer} (hr : Ready s) (hk : s.cfg.sourceKind = .file)
    (hx : s.src.exhausted = false) (hl : lookup s.cfg.registry t = some spec)
    (hP : P.length = spec.payloadLength.toNat)
    (hs : s.src.answers =
      (frameBytes s.cfg.syncByte t (fletcher P).1 (fletcher P).2 P).map .byte ++ rest) :
    ∃ r u, hostCall .tryReadFrame s = some (r, u) ∧ r.outcome = .ok ∧ r.tag = t ∧ r.payload = P ∧
      Ready u ∧ u.src.answers = rest ∧ u.src.cursor = s.src.cursor + (4 + P.length) := by
  have hready := readyLeft_of_file hk
  have ha : Answering s := by simp [Answering, hx]
  have he := attemptVerifiesFrame s t _ _ spec P rest _ hr hready ha hl hP hs
  dsimp only at he
  rw [if_pos rfl] at he
  exact ⟨_, _, hostCall_of_exec hr he rfl, rfl, rfl, rfl, ⟨rfl, rfl⟩, rfl, rfl⟩

/-- Settles O48: by induction on the noise, one call a byte, and one call for the frame after it. -/
theorem noiseThenFrame : Obligations.NoiseThenFrame := by
  unfold Obligations.NoiseThenFrame
  intro s noise t spec P rest hr hk hx hnoise hl hP hs
  induction noise generalizing s with
  | nil =>
    obtain ⟨r, u, hcall, ho, ht, hp, hu, hrest, hc⟩ := hostCall_frame hr hk hx hl hP hs
    exact ⟨r, u, attempts_succ_of_hostCall hcall (attempts_zero u),
      poll_of_answer hcall (by simp [ho]), ho, ht, hp, hu, hrest, hc.trans (Nat.add_assoc _ _ _).symm⟩
  | cons b noise ih =>
    obtain ⟨hb, hnoise⟩ := List.forall_mem_cons.1 hnoise
    obtain ⟨v, hcall, hv, hcfg, hsrc⟩ := hostCall_noise hr hk hx hb hs
    obtain ⟨r, u, hatt, hpoll, ho, ht, hp, hu, hrest, hc⟩ := ih v hv (hcfg ▸ hk) (hsrc ▸ hx)
      (hcfg ▸ hnoise) (hcfg ▸ hl) (by rw [hsrc, hcfg]; rfl)
    refine ⟨r, u, attempts_succ_of_hostCall hcall hatt, (poll_of_noData hcall rfl).trans hpoll, ho, ht,
      hp, hu, hrest, ?_⟩
    rw [hc, hsrc, List.length_cons]
    dsimp only
    omega

end Sys2Proof.Machine

/-! SUPPORT. The end of a run stays (70_reset_and_hazards.md rule R215). -/

namespace Sys2Proof.Machine

/-- With nothing on the port an idle block waits. -/
theorem RunEnded.fetch {s : State} (h : RunEnded s) : fetch s = .waits := by
  obtain ⟨hp, hv, ho⟩ := h
  obtain ⟨hport, -⟩ := (stillOffered_eq_nil s).1 ho
  simp [Machine.fetch, hp, hv, hport, decode, splitCommand]

theorem RunEnded.blockTurn {s : State} (h : RunEnded s) : blockTurn s = .next s := by
  simp only [Machine.blockTurn, h.fetch]

theorem RunEnded.blockMove {s : State} (h : RunEnded s) : blockMove s = .next s := by
  simp only [Machine.blockMove, h.fetch]

/-- The turns after the first offer nothing either, nor does the first. -/
theorem RunEnded.nextTurn {s : State} {a : Turn} {turns : List Turn} (h : RunEnded s)
    (hg : s.agenda = a :: turns) : RunEnded (setAgenda turns s) ∧ a.bytesOffered = [] := by
  obtain ⟨hp, hv, ho⟩ := h
  obtain ⟨hport, hturns⟩ := (stillOffered_eq_nil s).1 ho
  rw [hg, List.forall_mem_cons] at hturns
  exact ⟨⟨hp, hv, (stillOffered_eq_nil _).2 ⟨hport, hturns.2⟩⟩, hturns.1⟩

/-- The run is over in `t`, and nothing was offered, taken, configured or read since `s`. -/
def StaysEnded (s t : State) : Prop :=
  RunEnded t ∧ t.host = s.host ∧ t.cfg = s.cfg ∧ t.src.cursor = s.src.cursor

theorem RunEnded.stays {s : State} (h : RunEnded s) : StaysEnded s s := ⟨h, rfl, rfl, rfl⟩

/-- A turn of the host at the end of a run offers nothing, finds no response to take, or resets. -/
theorem RunEnded.hostTurn {s : State} (h : RunEnded s) {a : HostAction}
    (ha : (Turn.host a).bytesOffered = []) : StaysEnded s (hostTurn a s) := by
  have ⟨_, hv, ho⟩ := h
  cases a with
  | offer bytes =>
    obtain rfl : bytes = [] := ha
    have hsame : Machine.hostTurn (.offer []) s = s := by simp [Machine.hostTurn, setPort]
    rw [hsame]
    exact h.stays
  | take =>
    rw [Machine.hostTurn, takeResponse_none s hv]
    exact h.stays
  | reset => exact ⟨⟨rfl, rfl, ho⟩, rfl, rfl, rfl⟩

/-- A turn of the source brings nothing to the port. -/
theorem RunEnded.sourceTurn {s : State} (h : RunEnded s) (a : SourceAction) :
    StaysEnded s (sourceTurn a s) := by
  obtain ⟨ys, zs, he⟩ := sourceTurn_eq_deliver a s
  rw [he]
  exact ⟨h, rfl, rfl, rfl⟩

/-- By the agent whose turn it is. -/
theorem RunEnded.step {s t : State} (h : RunEnded s) (hs : step s = .next t) : StaysEnded s t := by
  match hg : s.agenda with
  | [] =>
    rw [step_of_noTurn hg, h.blockMove] at hs
    cases hs
    exact h.stays
  | .host a :: turns =>
    obtain ⟨h', ha⟩ := h.nextTurn hg
    rw [step_of_host hg] at hs
    cases hs
    exact h'.hostTurn ha
  | .source a :: turns =>
    rw [step_of_source hg] at hs
    cases hs
    exact (h.nextTurn hg).1.sourceTurn a
  | .block :: turns =>
    have h' := (h.nextTurn hg).1
    rw [step_of_block hg, h'.blockTurn] at hs
    cases hs
    exact h'.stays

/-- Settles O60: every turn leaves the run ended, and a block at the end of a run makes no transition. -/
theorem runEndedIsKept : Obligations.RunEndedIsKept := by
  unfold Obligations.RunEndedIsKept
  intro s t h hs
  obtain ⟨ht, hhost, hcfg, hc⟩ := h.step hs
  exact ⟨ht, hhost, hcfg, hc, blockTurns_of_stay ht.blockTurn⟩

end Sys2Proof.Machine
